-- ==== Sys2Proof/Word.lean ====
section
/-! DEFINITION. The 64-bit register word of BFME and its plainest arithmetic (00_scope.md R5, R7). -/

namespace Sys2Proof

/-- A register, an operand, a length, a digest or a word index: 64 bits, unsigned (R5, R7).
A storage word of W bits is carried in one too; for W = 32 its upper half is 0. -/
abbrev Word := BitVec 64

/-- One byte of the register window. -/
abbrev Byte := BitVec 8

/-- `ceil_div(a, b)`, the least integer not below a / b, for b ≥ 1 (R7). -/
def ceilDiv (a b : Nat) : Nat := (a + b - 1) / b

/-- A bit as the register value 0 or 1 (10_state.md R23). -/
def bitWord (b : Bool) : Word := if b then 1#64 else 0#64

end Sys2Proof
end

