-- ==== Sys2Proof/Config.lean ====
section
/-! DEFINITION. What an implementation of BFME fixes (00_scope.md R5) and the values the spec leaves free. -/

namespace Sys2Proof

/-- The legal values of the storage word width W (R5: 32 or 64). -/
inductive Width where
  | w32
  | w64
deriving DecidableEq, Repr

/-- W as a number of bits. -/
def Width.bits : Width → Nat
  | .w32 => 32
  | .w64 => 64

/-- The implementation parameters of one device (R5). LAT is none of them here: a latency is where the
engine's turn stands in `State.pending` (DESIGN CHOICE, log 5). -/
structure Params where
  /-- W, read as PARAM_W. -/
  width    : Width
  /-- NBITS_MAX, read as PARAM_NBITS_MAX. -/
  nbitsMax : Word
  /-- K_MAX, read as PARAM_K_MAX. -/
  kMax     : Word
deriving DecidableEq, Repr

namespace Params

/-- W. -/
def W (p : Params) : Nat := p.width.bits

/-- NW_MAX = ceil_div(NBITS_MAX, W), the number of physical words (R5). -/
def nwMax (p : Params) : Nat := ceilDiv p.nbitsMax.toNat p.W

/-- The ranges of R5: 1 ≤ NBITS_MAX (≤ 2^64 − 1 by its type) and 1 ≤ K_MAX ≤ 2^32. -/
def legal (p : Params) : Bool :=
  decide (1 ≤ p.nbitsMax.toNat) && decide (1 ≤ p.kMax.toNat) && decide (p.kMax.toNat ≤ 2 ^ 32)

end Params

namespace Config

/-- The parameters `State.reset` carries: those of 95_test_vectors.md. DESIGN CHOICE (log 1): the spec leaves them
open, and statements over all states hold for every legal choice. -/
def params : Params := { width := .w32, nbitsMax := 4096#64, kMax := 64#64 }

/-- The ID register (10_state.md R38). -/
def idValue : Word := 0x0000010042464D45#64

/-- The free draws of reads made while BUSY = 1 (42_host.md R205: "a free draw under no law"); draw number n is
`freeRead n`. No body: nothing can be proved of a value of it (DESIGN CHOICE, log 7). -/
opaque freeRead : Nat → Word

end Config

end Sys2Proof
end

