-- ==== Sys2Proof/Syntax.lean ====
section
/-! DEFINITION. The commands of BFME (30_encoding.md R94, opcode_table.json), one constructor per row, and the
fields of a CMD value (R91). -/

namespace Sys2Proof

/-- The 19 commands. Only three take the V bit (R92). -/
inductive Instr where
  | bvNew
  | bvFromElem (v : Bool)
  | bvLen
  | bvIsEmpty
  | bvGet
  | bvSet (v : Bool)
  | bvPush (v : Bool)
  | bvClear
  | bvSetAll
  | bvNegate
  | bvReserve
  | bvReadWord
  | bvIterStart
  | bvIterNext
  | bfConfig
  | bfInsert
  | bfQuery
  | bfClear
  | bfIndex
deriving DecidableEq, Repr

/-- The fields of a 64-bit CMD value: OPC [7:0], V [8], RSV [31:9], RSVH [63:32] (R91). -/
structure Fields where
  opc  : BitVec 8
  v    : Bool
  rsv  : BitVec 23
  rsvh : BitVec 32
deriving DecidableEq, Repr

/-- Why a CMD value is no command: the four conditions of R95, and a byte string that is no 8-byte CMD value. -/
inductive Illegal where
  /-- R95 (a): c[63:32] ≠ 0. -/
  | highBits
  /-- R95 (b): c[31:9] ≠ 0. -/
  | reservedBits
  /-- R95 (c): OPC is a reserved value. -/
  | reservedOpcode
  /-- R95 (d): V = 1 on an opcode that takes no V. -/
  | strayV
  /-- The bytes given are not 8 (a CMD value is one 8-byte register write, 20_memory.md R64). -/
  | badLength
deriving DecidableEq, Repr

/-- What the decoder answers: exactly one command, or illegal with the reason (R99). -/
inductive Decoded where
  | ok (i : Instr)
  | illegal (why : Illegal)
deriving DecidableEq, Repr

/-- One command with the operands the host writes for it, in the order ARG0, ARG1 (R100, R101). -/
structure Command where
  instr : Instr
  args  : List Word
deriving DecidableEq, Repr

end Sys2Proof
end

