-- ==== Sys2Proof/Machine/State.lean ====
section
/-! DEFINITION. The state of BFME (10_state.md R20 to R42), the events its environment offers it, and the state
after reset. -/

namespace Sys2Proof.Machine

/-- The reasons a step could stop the machine: none. Every fault of the spec is a recorded fault after which the
engine still answers the host (60_exceptions.md R230 to R233), so it is a next state (DEDUCED, log 8). -/
inductive Fault where
deriving DecidableEq, Repr

/-- The reasons an instruction has no meaning. -/
inductive Refusal where
  /-- Answered by an arm of `exec` whose instruction has no meaning yet; safe. No arm answers it. -/
  | notModelled (mnemonic : String)
deriving DecidableEq, Repr

/-- MODE (10_state.md R25). -/
inductive Mode where
  | vector
  | filter
deriving DecidableEq, Repr

/-- The fault codes (60_exceptions.md R221); code 0x00, "none", is the absence of one. -/
inductive FaultCode where
  | errIllegal
  | errRange
  | errCapacity
  | errConfig
  | errMode
  | errIter
  | errBusy
  | errBus
deriving DecidableEq, Repr

/-- The registers of the window (20_memory.md R62). -/
inductive Reg where
  | cmd
  | arg0
  | arg1
  | result
  | status
  | ctrl
  | nbits
  | nwords
  | capwords
  | k
  | iterPos
  | faultInfo0
  | faultInfo1
  | paramW
  | paramNbitsMax
  | paramKMax
  | id
deriving DecidableEq, Repr

/-- STORE, sparse: (word index, word) cells, word indexes strictly rising, no word 0; an unlisted word is 0.
Storage has no byte addresses, so a cell is a word (10_state.md R37, 91_not_in_source.md N3; DESIGN CHOICE, log 2). -/
abbrev Memory := List (Nat × Word)

/-- The command in flight: its CMD value and the operand snapshots (30_encoding.md R96). -/
structure InFlight where
  c  : Word
  a0 : Word
  a1 : Word
deriving DecidableEq, Repr

/-- What can happen next: a host access (00_scope.md R11), the reset input (70_reset_and_hazards.md R260), or the
end of the command in flight (60_exceptions.md R235). -/
inductive Event where
  /-- MemRead(addr, n). -/
  | read (addr n : Word)
  /-- MemWrite(addr, n, v) (log 16). -/
  | write (addr n v : Word)
  /-- rst_i is asserted (DESIGN CHOICE, log 17). -/
  | rst
  /-- The latency of the command in flight is over: it completes or faults. -/
  | engine
deriving DecidableEq, Repr

/-- The state of the machine; INVENTORY.md lists each field with its rule and its reset value. -/
structure State where
  /-- PARAM_W, PARAM_NBITS_MAX, PARAM_K_MAX: constant registers (R38). -/
  params     : Params
  /-- STORE (R37). -/
  store      : Memory
  /-- NBITS (R26). -/
  nbits      : Word
  /-- CAPWORDS (R28). -/
  capwords   : Word
  /-- K (R29). -/
  k          : Word
  /-- STATUS.MODE (R25). -/
  mode       : Mode
  /-- STATUS.ITER_ACTIVE (R34). -/
  iterActive : Bool
  /-- ITER_POS (R34). -/
  iterPos    : Word
  /-- CMD (R24). -/
  cmd        : Word
  /-- ARG0 (R22). -/
  arg0       : Word
  /-- ARG1 (R22). -/
  arg1       : Word
  /-- RESULT (R23). -/
  result     : Word
  /-- STATUS.NONE (R31). -/
  noneFlag   : Bool
  /-- STATUS.FAULT and STATUS.FAULT_CODE (R33). -/
  fault      : Option FaultCode
  /-- FAULT_INFO0 (R35). -/
  faultInfo0 : Word
  /-- FAULT_INFO1 (R35). -/
  faultInfo1 : Word
  /-- The command in flight; present exactly while STATUS.BUSY = 1 (R20 (f), R32). -/
  inFlight   : Option InFlight
  /-- The program position: how many commands have completed or faulted (R21; DESIGN CHOICE, log 9). -/
  pos        : Nat
  /-- The model's own: the events still to come, oldest first (DESIGN CHOICE, log 5). -/
  pending    : List Event
  /-- The model's own: what the last host access returned, if it was a read that reached BFME (DESIGN CHOICE, log 13). -/
  reply      : Option Word
  /-- The model's own: how many free draws were taken (42_host.md R205; DESIGN CHOICE, log 7). -/
  draws      : Nat
deriving DecidableEq, Repr

/-- The state right after reset of a device with parameters `p` (10_state.md R42). -/
def State.resetOf (p : Params) : State :=
  { params := p, store := [], nbits := 0#64, capwords := 0#64, k := 0#64, mode := .vector,
    iterActive := false, iterPos := 0#64, cmd := 0#64, arg0 := 0#64, arg1 := 0#64, result := 0#64,
    noneFlag := false, fault := none, faultInfo0 := 0#64, faultInfo1 := 0#64, inFlight := none,
    pos := 0, pending := [], reply := none, draws := 0 }

/-- The machine right after reset (R42), with the parameters of `Config.params` (DESIGN CHOICE, log 1). -/
def State.reset : State := State.resetOf Config.params

/-- The answer of a step of this machine. -/
abbrev Result := Host.Outcome State Fault Refusal

end Sys2Proof.Machine
end

