-- ==== Sys2Proof/Machine/Operands.lean ====
section
/-! DEFINITION. What a command takes at its start: its operand snapshots (30_encoding.md R93, R96) and the mode it is
legal in (R98). -/

namespace Sys2Proof.Machine

/-- W of this device. -/
def State.W (s : State) : Nat := s.params.W

/-- STATUS.BUSY: a command is in flight (10_state.md R32). -/
def State.busy (s : State) : Bool := s.inFlight.isSome

/-- The command a meaning works for: the one in flight; with none in flight, CMD, ARG0 and ARG1 as they stand, which
is what accepting it now would snapshot (R96; DESIGN CHOICE, log 10). -/
def State.current (s : State) : InFlight :=
  match s.inFlight with
  | some f => f
  | none   => { c := s.cmd, a0 := s.arg0, a1 := s.arg1 }

/-- The ARG0 snapshot `a0` (R96). -/
def State.a0 (s : State) : Word := s.current.a0

/-- The ARG1 snapshot `a1` (R96). -/
def State.a1 (s : State) : Word := s.current.a1

/-- `legal_in_mode(opc, mode)`: the table of R98. -/
def legalInMode : Instr → Mode → Bool
  | .bvNew,        _ => true
  | .bvFromElem _, _ => true
  | .bvLen,        _ => true
  | .bvIsEmpty,    _ => true
  | .bvGet,        _ => true
  | .bvSet _,      m => m == .vector
  | .bvPush _,     m => m == .vector
  | .bvClear,      m => m == .vector
  | .bvSetAll,     m => m == .vector
  | .bvNegate,     m => m == .vector
  | .bvReserve,    m => m == .vector
  | .bvReadWord,   _ => true
  | .bvIterStart,  _ => true
  | .bvIterNext,   _ => true
  | .bfConfig,     _ => true
  | .bfInsert,     m => m == .filter
  | .bfQuery,      m => m == .filter
  | .bfClear,      m => m == .filter
  | .bfIndex,      m => m == .filter

/-- The mutating class (40_bitvector.md R125; the last column of R98). -/
def mutating : Instr → Bool
  | .bvNew        => true
  | .bvFromElem _ => true
  | .bvLen        => false
  | .bvIsEmpty    => false
  | .bvGet        => false
  | .bvSet _      => true
  | .bvPush _     => true
  | .bvClear      => true
  | .bvSetAll     => true
  | .bvNegate     => true
  | .bvReserve    => true
  | .bvReadWord   => false
  | .bvIterStart  => false
  | .bvIterNext   => false
  | .bfConfig     => true
  | .bfInsert     => true
  | .bfQuery      => false
  | .bfClear      => true
  | .bfIndex      => false

end Sys2Proof.Machine
end

