-- ==== Sys2Proof/Machine/Flags.lean ====
section
/-! DEFINITION. STATUS and its flags (10_state.md R30 to R33, R43), and the fault codes (60_exceptions.md R221). -/

namespace Sys2Proof.Machine

/-- The NONE flag of a read at position `i` of a space of `n` positions: 1 past the end (R31: BV_GET against NBITS,
BV_READ_WORD against NWORDS, BV_ITER_NEXT against NBITS). -/
def absentFlag (i n : Nat) : Bool := decide (n ≤ i)

/-- The value of a fault code (R221). -/
def FaultCode.value : FaultCode → Nat
  | .errIllegal  => 0x01
  | .errRange    => 0x02
  | .errCapacity => 0x03
  | .errConfig   => 0x04
  | .errMode     => 0x05
  | .errIter     => 0x06
  | .errBusy     => 0x07
  | .errBus      => 0x08

/-- STATUS.FAULT_CODE, 0x00 when no fault is recorded (R30, R221). -/
def State.faultCodeValue (s : State) : Nat :=
  match s.fault with
  | some code => code.value
  | none      => 0x00

/-- STATUS (R30): BUSY [0], NONE [1], FAULT [2], MODE [3], ITER_ACTIVE [4], FAULT_CODE [15:8]; the other bits are 0. -/
def State.status (s : State) : Word :=
  BitVec.ofNat 64
    (s.busy.toNat + 2 * s.noneFlag.toNat + 4 * s.fault.isSome.toNat + 8 * (s.mode == .filter).toNat
      + 16 * s.iterActive.toNat + 256 * s.faultCodeValue)

/-- The output level `busy_o` (60_exceptions.md R238). -/
def State.busyO (s : State) : Bool := s.busy

/-- The output level `fault_o` (60_exceptions.md R238). -/
def State.faultO (s : State) : Bool := s.fault.isSome

end Sys2Proof.Machine
end

