-- ==== Sys2Proof/Machine/Ops.lean ====
section
/-! DEFINITION. The shared operations of the meanings: the bit storage (00_scope.md R9, R10), completing a command and
raising a fault (R12, 60_exceptions.md R230), closing an iteration (40_bitvector.md R125), the prologue's mode check
(30_encoding.md R96) and reset (70_reset_and_hazards.md R261). -/

namespace Sys2Proof.Machine

/-- `ones_W`: the W-bit word with every bit 1 (R10). -/
def ones (W : Nat) : Word := BitVec.ofNat 64 (2 ^ W - 1)

/-- `tail_mask(n)`: what the last word of a length n ≥ 1 keeps (R10). -/
def tailMask (W n : Nat) : Word := if n % W = 0 then ones W else (1#64 <<< (n % W)) - 1#64

namespace Memory

/-- `Word(w)` (R9). -/
def word : Memory → Nat → Word
  | [], _               => 0#64
  | (a, x) :: rest, w => if a = w then x else word rest w

/-- A cell, or nothing where its word is what an unlisted word reads as. -/
def cell (w : Nat) (v : Word) : Memory := if v = 0#64 then [] else [(w, v)]

/-- `Word(w) <- v` (R9), keeping the canonical form. -/
def setWord : Memory → Nat → Word → Memory
  | [], w, v => cell w v
  | (a, x) :: rest, w, v =>
    if w < a then cell w v ++ (a, x) :: rest
    else if w = a then cell w v ++ rest
    else (a, x) :: setWord rest w v

/-- `BitGet(p)` (R9): bit p mod W of word p div W (20_memory.md R67). -/
def bit (W : Nat) (m : Memory) (p : Nat) : Bool := (word m (p / W)).getLsbD (p % W)

/-- A word with its bit b replaced by v. -/
def withBit (x : Word) (b : Nat) (v : Bool) : Word :=
  if v then x ||| (1#64 <<< b) else x &&& ~~~(1#64 <<< b)

/-- `BitSet(p, v)` (R9). -/
def setBit (W : Nat) (m : Memory) (p : Nat) (v : Bool) : Memory :=
  setWord m (p / W) (withBit (word m (p / W)) (p % W) v)

/-- `for w in 0 .. nw-1: Word(w) <- 0`. -/
def zeroWords (nw : Nat) (m : Memory) : Memory := m.filter fun c => decide (nw ≤ c.1)

/-- `for w in 0 .. nw-1: Word(w) <- f(Word(w))`. -/
def mapWords (nw : Nat) (f : Word → Word) (m : Memory) : Memory :=
  ((List.range nw).flatMap fun w => cell w (f (word m w))) ++ zeroWords nw m

/-- `if nw >= 1: Word(nw-1) <- Word(nw-1) & tail_mask(n)` with nw = ceil_div(n, W): the tail masking of
BV_FROM_ELEM, BV_SET_ALL and BV_NEGATE (40_bitvector.md R112, R119, R120). -/
def maskTail (W n : Nat) (m : Memory) : Memory :=
  let nw := ceilDiv n W
  if 1 ≤ nw then setWord m (nw - 1) (word m (nw - 1) &&& tailMask W n) else m

/-- The words of BV_FROM_ELEM (R112): the live words of a length n filled with v, the last one masked when v = 1. -/
def fill (W n : Nat) (v : Bool) (m : Memory) : Memory :=
  if v then maskTail W n (mapWords (ceilDiv n W) (fun _ => ones W) m) else zeroWords (ceilDiv n W) m

/-- The canonical form: word indexes strictly rising and no word equal to what an unlisted one reads as. -/
def wf : Memory → Bool
  | []             => true
  | (a, x) :: rest => x != 0#64 && rest.all (fun c => decide (a < c.1)) && wf rest

end Memory

/-- `Word(w)` of STORE (R9). -/
def State.word (s : State) (w : Nat) : Word := Memory.word s.store w

/-- `BitGet(p)` of STORE (R9). -/
def State.bit (s : State) (p : Nat) : Bool := Memory.bit s.W s.store p

/-- NWORDS = ceil_div(NBITS, W) (10_state.md R27). -/
def State.nwords (s : State) : Nat := ceilDiv s.nbits.toNat s.W

/-- `invalidate_iter()` (R12, 40_bitvector.md R125). -/
def State.closeIter (s : State) : State := { s with iterActive := false, iterPos := 0#64 }

/-- The state `complete(r, none)` leaves (R12): the answer is in RESULT and NONE, BUSY falls, and the program position
advances by 1 (10_state.md R21). -/
def State.completed (s : State) (r : Word) (absent : Bool) : State :=
  { s with result := r, noneFlag := absent, inFlight := none, pos := s.pos + 1 }

/-- The fault record of `raise Fault(code, info0, info1)` (60_exceptions.md R230): written only when no fault is
recorded yet (R232). -/
def State.recordFault (s : State) (code : FaultCode) (info0 info1 : Word) : State :=
  { s with
    fault      := if s.fault.isNone then some code else s.fault
    faultInfo0 := if s.fault.isNone then info0 else s.faultInfo0
    faultInfo1 := if s.fault.isNone then info1 else s.faultInfo1 }

/-- Fault entry for a command (R230): record the command value and the ARG0 snapshot, end the command, and advance
the program position (10_state.md R21). -/
def State.faulted (s : State) (code : FaultCode) : State :=
  { s.recordFault code s.current.c s.current.a0 with inFlight := none, pos := s.pos + 1 }

/-- Reset (70_reset_and_hazards.md R261): every register to its reset value (10_state.md R42). The constant registers
keep their constants; STORE keeps its words, all dead (DESIGN CHOICE, log 3); the environment's events to come, the program position
and the draw counter are not the machine's to reset (DESIGN CHOICE, logs 7, 9). -/
def State.afterReset (s : State) : State :=
  { State.resetOf s.params with store := s.store, pos := s.pos, pending := s.pending, draws := s.draws }

/-- `complete(r, none)` (R12). -/
def complete (r : Word) (absent : Bool) (s : State) : Result := .next (s.completed r absent)

/-- `raise Fault(code, c, a0)` by a command (R12, R230). -/
def raiseFault (code : FaultCode) (s : State) : Result := .next (s.faulted code)

/-- The mode check of the common prologue (30_encoding.md R96, R98), then the command's own rule. -/
def inLegalMode (i : Instr) (s : State) (body : Result) : Result :=
  if legalInMode i s.mode then body else raiseFault .errMode s

end Sys2Proof.Machine
end

