-- ==== Sys2Proof/Machine/BitVector.lean ====
section
/-! DEFINITION. The BV_* commands (40_bitvector.md R111 to R124), each after its rule's pseudocode. -/

namespace Sys2Proof.Machine

/-- BV_NEW (R111). -/
def execBvNew (s : State) : Result :=
  inLegalMode .bvNew s <|
    complete 0#64 false
      { s with nbits := 0#64, capwords := 0#64, mode := .vector, k := 0#64 }.closeIter

/-- BV_FROM_ELEM (R112). -/
def execBvFromElem (v : Bool) (s : State) : Result :=
  inLegalMode (.bvFromElem v) s <|
    let n := s.a0.toNat
    if s.params.nbitsMax.toNat < n then raiseFault .errCapacity s
    else
      complete 0#64 false
        { s with
          store := Memory.fill s.W n v s.store
          nbits := s.a0, capwords := BitVec.ofNat 64 (ceilDiv n s.W)
          mode := .vector, k := 0#64 }.closeIter

/-- BV_LEN (R113). -/
def execBvLen (s : State) : Result :=
  inLegalMode .bvLen s <| complete s.nbits false s

/-- BV_IS_EMPTY (R114). -/
def execBvIsEmpty (s : State) : Result :=
  inLegalMode .bvIsEmpty s <| complete (bitWord (s.nbits.toNat == 0)) false s

/-- BV_GET (R115). -/
def execBvGet (s : State) : Result :=
  inLegalMode .bvGet s <|
    let i := s.a0.toNat
    let absent := absentFlag i s.nbits.toNat
    complete (if absent then 0#64 else bitWord (s.bit i)) absent s

/-- BV_SET (R116). -/
def execBvSet (v : Bool) (s : State) : Result :=
  inLegalMode (.bvSet v) s <|
    let i := s.a0.toNat
    if s.nbits.toNat ≤ i then raiseFault .errRange s
    else complete 0#64 false { s with store := Memory.setBit s.W s.store i v }.closeIter

/-- BV_PUSH (R117). -/
def execBvPush (v : Bool) (s : State) : Result :=
  inLegalMode (.bvPush v) s <|
    let n := s.nbits.toNat
    if n = s.params.nbitsMax.toNat then raiseFault .errCapacity s
    else
      let store := if n % s.W = 0 then Memory.setWord s.store (n / s.W) 0#64 else s.store
      complete 0#64 false
        { s with
          store := Memory.setBit s.W store n v
          nbits := BitVec.ofNat 64 (n + 1)
          capwords := BitVec.ofNat 64 (max s.capwords.toNat (ceilDiv (n + 1) s.W)) }.closeIter

/-- BV_CLEAR (R118). -/
def execBvClear (s : State) : Result :=
  inLegalMode .bvClear s <|
    complete 0#64 false { s with store := Memory.zeroWords s.nwords s.store }.closeIter

/-- BV_SET_ALL (R119). -/
def execBvSetAll (s : State) : Result :=
  inLegalMode .bvSetAll s <|
    let filled := Memory.mapWords s.nwords (fun _ => ones s.W) s.store
    complete 0#64 false { s with store := Memory.maskTail s.W s.nbits.toNat filled }.closeIter

/-- BV_NEGATE (R120); the flip is of W bits. -/
def execBvNegate (s : State) : Result :=
  inLegalMode .bvNegate s <|
    let flipped := Memory.mapWords s.nwords (fun x => ~~~x &&& ones s.W) s.store
    complete 0#64 false { s with store := Memory.maskTail s.W s.nbits.toNat flipped }.closeIter

/-- BV_RESERVE (R121); the sum is exact. -/
def execBvReserve (s : State) : Result :=
  inLegalMode .bvReserve s <|
    let total := s.nbits.toNat + s.a0.toNat
    if s.params.nbitsMax.toNat < total then raiseFault .errCapacity s
    else
      complete 0#64 false
        { s with capwords := BitVec.ofNat 64 (max s.capwords.toNat (ceilDiv total s.W)) }.closeIter

/-- BV_READ_WORD (R122). -/
def execBvReadWord (s : State) : Result :=
  inLegalMode .bvReadWord s <|
    let w := s.a0.toNat
    let absent := absentFlag w s.nwords
    complete (if absent then 0#64 else s.word w) absent s

/-- BV_ITER_START (R123). -/
def execBvIterStart (s : State) : Result :=
  inLegalMode .bvIterStart s <|
    complete 0#64 false { s with iterActive := true, iterPos := 0#64 }

/-- BV_ITER_NEXT (R124). -/
def execBvIterNext (s : State) : Result :=
  inLegalMode .bvIterNext s <|
    if s.iterActive then
      let p := s.iterPos.toNat
      if absentFlag p s.nbits.toNat then complete 0#64 true s
      else complete (bitWord (s.bit p)) false { s with iterPos := BitVec.ofNat 64 (p + 1) }
    else raiseFault .errIter s

end Sys2Proof.Machine
end

