-- ==== Sys2Proof/Machine/Bloom.lean ====
section
/-! DEFINITION. The hash-to-k-indices mapper, the probe combiner and the BF_* commands (41_bloom.md R164 to R172). -/

namespace Sys2Proof.Machine

/-- `index(d, i) = (d[31:0] + d[63:32] * i) mod m`, exact (R165, R166); with m = 0, which no run reaches, the sum itself
(log 11). -/
def probeIndex (m : Nat) (d : Word) (i : Nat) : Nat :=
  ((d.extractLsb' 0 32).toNat + (d.extractLsb' 32 32).toNat * i) % m

/-- BF_INSERT's writes: a 1 into each of the first k probe bits (R167 (b), R169). -/
def setProbes (W m : Nat) (d : Word) : Nat → Memory → Memory
  | 0, store     => store
  | k + 1, store => Memory.setBit W (setProbes W m d k store) (probeIndex m d k) true

/-- BF_QUERY's answer: the AND of the first k probe bits (R167 (a), R170). -/
def allProbes (W m : Nat) (d : Word) (store : Memory) : Nat → Bool
  | 0     => true
  | k + 1 => allProbes W m d store k && Memory.bit W store (probeIndex m d k)

/-- BF_CONFIG (R168). -/
def execBfConfig (s : State) : Result :=
  inLegalMode .bfConfig s <|
    let m := s.a0.toNat
    let k := s.a1.toNat
    if m = 0 ∨ s.params.nbitsMax.toNat < m ∨ k = 0 ∨ s.params.kMax.toNat < k then raiseFault .errConfig s
    else
      complete 0#64 false
        { s with
          store := Memory.zeroWords (ceilDiv m s.W) s.store
          nbits := s.a0, capwords := BitVec.ofNat 64 (ceilDiv m s.W)
          k := s.a1, mode := .filter }.closeIter

/-- BF_INSERT (R169). -/
def execBfInsert (s : State) : Result :=
  inLegalMode .bfInsert s <|
    complete 0#64 false
      { s with store := setProbes s.W s.nbits.toNat s.a0 s.k.toNat s.store }.closeIter

/-- BF_QUERY (R170). -/
def execBfQuery (s : State) : Result :=
  inLegalMode .bfQuery s <|
    complete (bitWord (allProbes s.W s.nbits.toNat s.a0 s.store s.k.toNat)) false s

/-- BF_CLEAR (R171). -/
def execBfClear (s : State) : Result :=
  inLegalMode .bfClear s <|
    complete 0#64 false { s with store := Memory.zeroWords s.nwords s.store }.closeIter

/-- BF_INDEX (R172). -/
def execBfIndex (s : State) : Result :=
  inLegalMode .bfIndex s <|
    if s.k.toNat ≤ s.a1.toNat then raiseFault .errRange s
    else complete (BitVec.ofNat 64 (probeIndex s.nbits.toNat s.a0 s.a1.toNat)) false s

end Sys2Proof.Machine
end

