-- ==== Sys2Proof/Machine/Dispatch.lean ====
section
/-! DEFINITION. exec: one arm per command of the opcode table (30_encoding.md R94). -/

namespace Sys2Proof.Machine

def exec (i : Instr) (s : State) : Host.Outcome State Fault Refusal :=
  match i with
  | .bvNew => Sys2Proof.Machine.execBvNew s
  | .bvFromElem v => Sys2Proof.Machine.execBvFromElem v s
  | .bvLen => Sys2Proof.Machine.execBvLen s
  | .bvIsEmpty => Sys2Proof.Machine.execBvIsEmpty s
  | .bvGet => Sys2Proof.Machine.execBvGet s
  | .bvSet v => Sys2Proof.Machine.execBvSet v s
  | .bvPush v => Sys2Proof.Machine.execBvPush v s
  | .bvClear => Sys2Proof.Machine.execBvClear s
  | .bvSetAll => Sys2Proof.Machine.execBvSetAll s
  | .bvNegate => Sys2Proof.Machine.execBvNegate s
  | .bvReserve => Sys2Proof.Machine.execBvReserve s
  | .bvReadWord => Sys2Proof.Machine.execBvReadWord s
  | .bvIterStart => Sys2Proof.Machine.execBvIterStart s
  | .bvIterNext => Sys2Proof.Machine.execBvIterNext s
  | .bfConfig => Sys2Proof.Machine.execBfConfig s
  | .bfInsert => Sys2Proof.Machine.execBfInsert s
  | .bfQuery => Sys2Proof.Machine.execBfQuery s
  | .bfClear => Sys2Proof.Machine.execBfClear s
  | .bfIndex => Sys2Proof.Machine.execBfIndex s

end Sys2Proof.Machine
end

