-- ==== Sys2Proof/WellFormed.lean ====
section
/-! DEFINITION. Well-formed commands: the operands are exactly those the command uses (30_encoding.md R93, R100).
The V bit needs no check here: `Instr` gives it to the three commands of R92 only. -/

namespace Sys2Proof

/-- How many operand registers the command uses (R93): none, ARG0, or ARG0 and ARG1. -/
def Instr.arity : Instr → Nat
  | .bvNew        => 0
  | .bvFromElem _ => 1
  | .bvLen        => 0
  | .bvIsEmpty    => 0
  | .bvGet        => 1
  | .bvSet _      => 1
  | .bvPush _     => 0
  | .bvClear      => 0
  | .bvSetAll     => 0
  | .bvNegate     => 0
  | .bvReserve    => 1
  | .bvReadWord   => 1
  | .bvIterStart  => 0
  | .bvIterNext   => 0
  | .bfConfig     => 2
  | .bfInsert     => 1
  | .bfQuery      => 1
  | .bfClear      => 0
  | .bfIndex      => 2

/-- A command carries exactly the operands its row of R93 marks used (R100). -/
def Command.wf (c : Command) : Bool := c.args.length == c.instr.arity

end Sys2Proof
end

