-- ==== Sys2Proof/Decode.lean ====
section
/-! DEFINITION. Decoding a CMD value (30_encoding.md R91, R94, R95, R99), total and rejecting by name; then the
encoder, written from the command-word columns of R94. -/

namespace Sys2Proof

/-- Split a CMD value into its fields (R91). -/
def Fields.ofCmd (c : Word) : Fields :=
  { opc  := c.extractLsb' 0 8
    v    := c.getLsbD 8
    rsv  := c.extractLsb' 9 23
    rsvh := c.extractLsb' 32 32 }

/-- A command that takes no V: V = 1 is illegal on it (R92, R95 (d)). -/
def withoutV (v : Bool) (i : Instr) : Decoded := if v then .illegal .strayV else .ok i

/-- The opcode map (R94); every value it does not list is reserved (R95 (c)). -/
def decodeOpcode (opc : Nat) (v : Bool) : Decoded :=
  match opc with
  | 0x01 => withoutV v .bvNew
  | 0x02 => .ok (.bvFromElem v)
  | 0x03 => withoutV v .bvLen
  | 0x04 => withoutV v .bvIsEmpty
  | 0x05 => withoutV v .bvGet
  | 0x06 => .ok (.bvSet v)
  | 0x07 => .ok (.bvPush v)
  | 0x08 => withoutV v .bvClear
  | 0x09 => withoutV v .bvSetAll
  | 0x0A => withoutV v .bvNegate
  | 0x0B => withoutV v .bvReserve
  | 0x0C => withoutV v .bvReadWord
  | 0x0D => withoutV v .bvIterStart
  | 0x0E => withoutV v .bvIterNext
  | 0x20 => withoutV v .bfConfig
  | 0x21 => withoutV v .bfInsert
  | 0x22 => withoutV v .bfQuery
  | 0x23 => withoutV v .bfClear
  | 0x24 => withoutV v .bfIndex
  | _    => .illegal .reservedOpcode

/-- Decode the fields: the four conditions of R95 in their order. -/
def Fields.decode (f : Fields) : Decoded :=
  if f.rsvh ≠ 0#32 then .illegal .highBits
  else if f.rsv ≠ 0#23 then .illegal .reservedBits
  else decodeOpcode f.opc.toNat f.v

/-- Decode a 64-bit CMD value (R90, R99). -/
def decode (c : Word) : Decoded := (Fields.ofCmd c).decode

/-- The value whose little-endian bytes are `bs` (20_memory.md R63). -/
def leValue : List Byte → Nat
  | []      => 0
  | b :: bs => b.toNat + 256 * leValue bs

/-- The `n` little-endian bytes of a value (20_memory.md R63). -/
def leBytes : Nat → Nat → List Byte
  | 0, _     => []
  | n + 1, v => BitVec.ofNat 8 v :: leBytes n (v / 256)

/-- Decode the bytes of a CMD write, lowest offset first; total on any bytes (R63, R64, R99). -/
def decodeBytes (bs : List Byte) : Decoded :=
  if bs.length = 8 then decode (BitVec.ofNat 64 (leValue bs)) else .illegal .badLength

/-- The CMD value of a table word: `nbits` bits numbered as the opcode table numbers them, every bit above them 0. -/
def tableWord (nbits w : Nat) : Word := BitVec.ofNat 64 (w % 2 ^ nbits)

/-- The instruction the decoder reads from a table word laid out as the host writes it to CMD: 8 bytes,
little-endian. -/
def decodeTableWord (nbits w : Nat) : Option Instr :=
  match decodeBytes (leBytes 8 (tableWord nbits w).toNat) with
  | .ok i      => some i
  | .illegal _ => none

/-- The command word of each command (R94, columns V=0 and V=1). -/
def encode : Instr → BitVec 32
  | .bvNew        => 0x00000001#32
  | .bvFromElem v => if v then 0x00000102#32 else 0x00000002#32
  | .bvLen        => 0x00000003#32
  | .bvIsEmpty    => 0x00000004#32
  | .bvGet        => 0x00000005#32
  | .bvSet v      => if v then 0x00000106#32 else 0x00000006#32
  | .bvPush v     => if v then 0x00000107#32 else 0x00000007#32
  | .bvClear      => 0x00000008#32
  | .bvSetAll     => 0x00000009#32
  | .bvNegate     => 0x0000000A#32
  | .bvReserve    => 0x0000000B#32
  | .bvReadWord   => 0x0000000C#32
  | .bvIterStart  => 0x0000000D#32
  | .bvIterNext   => 0x0000000E#32
  | .bfConfig     => 0x00000020#32
  | .bfInsert     => 0x00000021#32
  | .bfQuery      => 0x00000022#32
  | .bfClear      => 0x00000023#32
  | .bfIndex      => 0x00000024#32

/-- The 64-bit value the host writes to CMD: zext_64 of the command word (R90, R101). -/
def cmdValue (i : Instr) : Word := (encode i).setWidth 64

end Sys2Proof
end

