-- ==== Sys2Proof/Machine/Host.lean ====
section
/-! DEFINITION. Host accesses to the register window (20_memory.md R62 to R66, 42_host.md R200 to R207), the reset
input (70_reset_and_hazards.md R260), and the fetch of the command in flight. -/

namespace Sys2Proof.Machine

/-- The register at an offset of the window; no register at the reserved offsets 0x88 to 0xFF (R62, R65). -/
def Reg.ofOffset (addr : Nat) : Option Reg :=
  match addr with
  | 0x00 => some .cmd
  | 0x08 => some .arg0
  | 0x10 => some .arg1
  | 0x18 => some .result
  | 0x20 => some .status
  | 0x28 => some .ctrl
  | 0x30 => some .nbits
  | 0x38 => some .nwords
  | 0x40 => some .capwords
  | 0x48 => some .k
  | 0x50 => some .iterPos
  | 0x58 => some .faultInfo0
  | 0x60 => some .faultInfo1
  | 0x68 => some .paramW
  | 0x70 => some .paramNbitsMax
  | 0x78 => some .paramKMax
  | 0x80 => some .id
  | _    => none

/-- The value the host reads from a register while BUSY = 0 (10_state.md R41, R200). -/
def State.readReg (s : State) : Reg → Word
  | .cmd           => s.cmd
  | .arg0          => s.arg0
  | .arg1          => s.arg1
  | .result        => s.result
  | .status        => s.status
  | .ctrl          => 0#64
  | .nbits         => s.nbits
  | .nwords        => BitVec.ofNat 64 s.nwords
  | .capwords      => s.capwords
  | .k             => s.k
  | .iterPos       => s.iterPos
  | .faultInfo0    => s.faultInfo0
  | .faultInfo1    => s.faultInfo1
  | .paramW        => BitVec.ofNat 64 s.W
  | .paramNbitsMax => s.params.nbitsMax
  | .paramKMax     => s.params.kMax
  | .id            => Config.idValue

/-- The registers that read their value while BUSY = 1 too (R205). -/
def Reg.stable : Reg → Bool
  | .cmd           => true
  | .arg0          => true
  | .arg1          => true
  | .result        => false
  | .status        => false
  | .ctrl          => false
  | .nbits         => false
  | .nwords        => false
  | .capwords      => false
  | .k             => false
  | .iterPos       => false
  | .faultInfo0    => false
  | .faultInfo1    => false
  | .paramW        => true
  | .paramNbitsMax => true
  | .paramKMax     => true
  | .id            => true

/-- One free draw given to the host (R205, log 7): all of it, or for STATUS all but BUSY, which reads 1. -/
def busyDraw (r : Reg) (free : Word) : Word := if r = .status then free ||| 1#64 else free

/-- The window's byte at an offset: byte j of the register v at offset o is v[8j+7:8j] (20_memory.md R63); no byte at a
reserved offset. No host access is narrower than a register (R64). -/
def State.windowByte (s : State) (addr : Nat) : Option Byte :=
  (Reg.ofOffset (addr / 8 * 8)).map fun r => (s.readReg r).extractLsb' (8 * (addr % 8)) 8

/-- The register an access reaches: an 8-byte access, 8-byte aligned, not reserved (checks (1) and (2) of R204). -/
def accessTarget (addr n : Word) : Option Reg :=
  if n ≠ 8#64 ∨ addr.toNat % 8 ≠ 0 then none else Reg.ofOffset addr.toNat

/-- An offset at or above 0x100 is not in the window and does not reach BFME (R65; DEDUCED, log 12). -/
def outsideWindow (addr : Word) : Bool := decide (0x100 ≤ addr.toNat)

/-- The state after a host access, with what it returned to the host (log 13). -/
def State.replying (s : State) (v : Option Word) : State := { s with reply := v }

/-- MemRead(addr, n) (R200, R204, R205; R64 and R65: a read that faults returns 0). -/
def State.hostRead (s : State) (addr n : Word) : State :=
  if outsideWindow addr then s.replying none
  else match accessTarget addr n with
    | none   => (s.recordFault .errBus addr n).replying (some 0#64)
    | some r =>
      if s.busy && !r.stable then
        { s.replying (some (busyDraw r (Config.freeRead s.draws))) with draws := s.draws + 1 }
      else s.replying (some (s.readReg r))

/-- The accepted CMD write of the prologue (30_encoding.md R96): CMD and BUSY are written and the operands are
sampled. -/
def State.accepted (s : State) (c : Word) : State :=
  { s with cmd := c, inFlight := some { c := c, a0 := s.arg0, a1 := s.arg1 } }

/-- ERR_BUS of a host write: info1 = n | (1 << 8) (60_exceptions.md R221, R229; DEDUCED, log 16). -/
def State.busWriteFault (s : State) (addr n : Word) : State := s.recordFault .errBus addr (n ||| 0x100#64)

/-- ERR_BUSY of a host write (R206, 60_exceptions.md R228); the command in flight goes on (DEDUCED, log 4). -/
def State.busyWriteFault (s : State) (addr n : Word) : State := s.recordFault .errBusy addr (n ||| 0x100#64)

/-- A write to CMD (R202). -/
def State.writeCmd (s : State) (addr n c : Word) : State :=
  if s.busy then s.busyWriteFault addr n
  else if s.fault.isSome then s
  else s.accepted c

/-- A write to CTRL (R203). -/
def State.writeCtrl (s : State) (addr n v : Word) : State :=
  if v = 1#64 then s.afterReset
  else if v = 0#64 then s
  else s.busWriteFault addr n

/-- A write to a register of the window, checks (3) to (7) of R204. -/
def State.writeReg (s : State) (r : Reg) (addr n v : Word) : State :=
  match r with
  | .cmd           => s.writeCmd addr n v
  | .arg0          => if s.busy then s.busyWriteFault addr n else { s with arg0 := v }
  | .arg1          => if s.busy then s.busyWriteFault addr n else { s with arg1 := v }
  | .ctrl          => s.writeCtrl addr n v
  | .result        => s.busWriteFault addr n
  | .status        => s.busWriteFault addr n
  | .nbits         => s.busWriteFault addr n
  | .nwords        => s.busWriteFault addr n
  | .capwords      => s.busWriteFault addr n
  | .k             => s.busWriteFault addr n
  | .iterPos       => s.busWriteFault addr n
  | .faultInfo0    => s.busWriteFault addr n
  | .faultInfo1    => s.busWriteFault addr n
  | .paramW        => s.busWriteFault addr n
  | .paramNbitsMax => s.busWriteFault addr n
  | .paramKMax     => s.busWriteFault addr n
  | .id            => s.busWriteFault addr n

/-- MemWrite(addr, n, v) (R201 to R204, R206, R207). -/
def State.hostWrite (s : State) (addr n v : Word) : State :=
  if outsideWindow addr then s.replying none
  else match accessTarget addr n with
    | none   => (s.busWriteFault addr n).replying none
    | some r => (s.writeReg r addr n v).replying none

/-- What the command in flight is: the decoder's reading of its CMD value. -/
def State.fetch (s : State) : Option Decoded := s.inFlight.map fun f => decode f.c

end Sys2Proof.Machine
end

