-- ==== Sys2Proof/Machine/Engine.lean ====
section
/-! DEFINITION. The engine's turn and the events of a step (00_scope.md R15, 60_exceptions.md R235). -/

namespace Sys2Proof.Machine

/-- The engine's turn: the command in flight ends, by ERR_ILLEGAL if its value is illegal (30_encoding.md R95, R96),
else by its own rule. With none in flight the engine is idle and keeps every piece of state (60_exceptions.md R245). -/
def engineTurn (s : State) : Result :=
  match s.fetch with
  | none                => .next s
  | some (.illegal _)   => raiseFault .errIllegal s
  | some (.ok i)        => exec i s

/-- One event: a host access, the reset input (70_reset_and_hazards.md R260), or the engine's turn. -/
def handleEvent (e : Event) (s : State) : Result :=
  match e with
  | .read addr n    => .next (s.hostRead addr n)
  | .write addr n v => .next (s.hostWrite addr n v)
  | .rst            => .next s.afterReset
  | .engine         => engineTurn s

end Sys2Proof.Machine
end

