-- ==== Sys2Proof/Machine/Step.lean ====
section
/-! DEFINITION. One step of the machine, and how a given command is made the one the next step runs. -/

namespace Sys2Proof.Machine

/-- One step: the oldest pending event; with none left, the engine's turn, so that a command in flight always ends
(70_reset_and_hazards.md R273; DESIGN CHOICE, log 5). -/
def step (s : State) : Host.Outcome State Fault Refusal :=
  match s.pending with
  | []        => engineTurn s
  | e :: rest => handleEvent e { s with pending := rest }

/-- The state in which the host's CMD write of the table word has just been accepted (30_encoding.md R96) and the
engine moves next: the very next step runs that command (DESIGN CHOICE, log 6). -/
def State.withFetchWord (s : State) (nbits w : Nat) : State :=
  { s.accepted (tableWord nbits w) with pending := .engine :: s.pending }

end Sys2Proof.Machine
end

