-- ==== Sys2Proof/Machine/Assembler.lean ====
section
/-! DEFINITION. The host's side of a command: the bus accesses an assembly command stands for (30_encoding.md R101),
programs as command sequences (10_state.md R21), and the
assembler: its lines and pseudo-instructions (30_encoding.md R100, R102). -/

namespace Sys2Proof.Machine

/-! Expansion into bus accesses (R101). -/

/-- One access of the BUSY poll: MemRead(0x20, 8). -/
def pollRead : Event := .read 0x20#64 8#64

/-- The operand writes: ARG0 if used, then ARG1 if used (R101). -/
def argWrites (c : Command) : List Event :=
  match c.args with
  | []           => []
  | [a0]         => [.write 0x08#64 8#64 a0]
  | a0 :: a1 :: _ => [.write 0x08#64 8#64 a0, .write 0x10#64 8#64 a1]

/-- The CMD write (R101). -/
def cmdWrite (c : Command) : Event := .write 0x00#64 8#64 (cmdValue c.instr)

/-- The BUSY poll that finds BUSY = 1 `busyPolls` times, then the command over, then BUSY = 0 (R101). -/
def waitEvents (busyPolls : Nat) : List Event := List.replicate busyPolls pollRead ++ [.engine, pollRead]

/-- The events of one assembly command (R101), with the latency as the number of polls that find it busy (DESIGN CHOICE, log 5). -/
def commandEvents (c : Command) (busyPolls : Nat) : List Event :=
  argWrites c ++ cmdWrite c :: waitEvents busyPolls

/-- The state the host's operand writes leave (R101, R201). -/
def writeArgs (c : Command) (s : State) : State :=
  match c.args with
  | []           => s
  | [a0]         => s.hostWrite 0x08#64 8#64 a0
  | a0 :: a1 :: _ => (s.hostWrite 0x08#64 8#64 a0).hostWrite 0x10#64 8#64 a1

/-- One command as the host performs it with no poll in between: operand writes, CMD write, the engine's turn. -/
def runCommand (c : Command) (s : State) : Result :=
  engineTurn ((writeArgs c s).hostWrite 0x00#64 8#64 (cmdValue c.instr))

/-- What a host that issues a whole program (10_state.md R21) leaves, one command after another. It looks at no fault: after
one, the later CMD writes are discarded and their operand writes are not (42_host.md R207). How the run of a program
ends is `runEnd`. -/
def runProgram : List Command → State → Result
  | [], s      => .next s
  | c :: cs, s =>
    match runCommand c s with
    | .next t    => runProgram cs t
    | .fault r   => .fault r
    | .refused r => .refused r

/-- The events of a program, each command with the number of polls that find it busy (R101, 95_test_vectors.md). -/
def programEvents (prog : List (Command × Nat)) : List Event := prog.flatMap fun x => commandEvents x.1 x.2

/-! Assembler lines (R100, R102). Text is a list of characters. -/

/-- Why an assembler refuses a line (R100, R102; DESIGN CHOICE, log 15). -/
inductive AsmError where
  | unknownMnemonic
  | badOperand
  | wrongOperandCount
  /-- `bf.create`: capacity is not an integer ≥ 1. -/
  | badCapacity
  /-- `bf.create`: error_rate is not a real number between 0 and 1. -/
  | badErrorRate
  /-- `bf.create`: m > NBITS_MAX or k > K_MAX would follow. -/
  | filterTooLarge
deriving DecidableEq, Repr

/-- The error rate a line spells: the quotient num / den (DESIGN CHOICE, log 15). -/
structure Rate where
  num : Nat
  den : Nat
deriving DecidableEq, Repr

/-- 0 < error_rate < 1 (41_bloom.md R161). -/
def Rate.valid (r : Rate) : Bool := decide (0 < r.num) && decide (r.num < r.den)

/-- What the assembler takes from its host: the device's parameters, the hash capability H on key texts (41_bloom.md
R164), and SIZE (R160), which `AsmHost.SizesExactly` holds to the exact values (log 14). -/
structure AsmHost where
  params : Params
  hash   : List Char → Word
  size   : Nat → Rate → Nat × Nat

/-- What one line stands for: a command, or the pseudo-instructions `reset` and `wait`, which issue none (R102). -/
inductive Item where
  | command (c : Command)
  | reset
  | wait
deriving DecidableEq, Repr

/-- What the assembler answers for a line. -/
inductive Assembled where
  | ok (item : Item)
  | refused (why : AsmError)
deriving DecidableEq, Repr

/-- `reset`: MemWrite(0x28, 8, 1) (R102). -/
def resetWrite : Event := .write 0x28#64 8#64 1#64

/-- The bus accesses of a line (R101, R102), with the polls that find the engine busy; none does where no command is in
flight (log 5). -/
def Item.events (busyPolls : Nat) : Item → List Event
  | .command c => commandEvents c busyPolls
  | .reset     => [resetWrite]
  | .wait      => waitEvents busyPolls

/-- The assembler's spelling: the opcode name in lower case with its first `_` written as `.`, and `.0` or `.1` on the
three commands that take V (R100). -/
def asmName : Instr → List Char
  | .bvNew        => "bv.new".toList
  | .bvFromElem v => if v then "bv.from_elem.1".toList else "bv.from_elem.0".toList
  | .bvLen        => "bv.len".toList
  | .bvIsEmpty    => "bv.is_empty".toList
  | .bvGet        => "bv.get".toList
  | .bvSet v      => if v then "bv.set.1".toList else "bv.set.0".toList
  | .bvPush v     => if v then "bv.push.1".toList else "bv.push.0".toList
  | .bvClear      => "bv.clear".toList
  | .bvSetAll     => "bv.set_all".toList
  | .bvNegate     => "bv.negate".toList
  | .bvReserve    => "bv.reserve".toList
  | .bvReadWord   => "bv.read_word".toList
  | .bvIterStart  => "bv.iter_start".toList
  | .bvIterNext   => "bv.iter_next".toList
  | .bfConfig     => "bf.config".toList
  | .bfInsert     => "bf.insert".toList
  | .bfQuery      => "bf.query".toList
  | .bfClear      => "bf.clear".toList
  | .bfIndex      => "bf.index".toList

/-- Every command in each of its V forms. -/
def allForms : List Instr :=
  [.bvNew, .bvFromElem false, .bvFromElem true, .bvLen, .bvIsEmpty, .bvGet, .bvSet false, .bvSet true,
   .bvPush false, .bvPush true, .bvClear, .bvSetAll, .bvNegate, .bvReserve, .bvReadWord, .bvIterStart,
   .bvIterNext, .bfConfig, .bfInsert, .bfQuery, .bfClear, .bfIndex]

def isBlank (c : Char) : Bool := c == ' ' || c == '\t'

/-- The line without blanks at its ends. -/
def trimBlanks (l : List Char) : List Char := ((l.dropWhile isBlank).reverse.dropWhile isBlank).reverse

/-- The value of a digit in a base up to 16. -/
def digitValue (base : Nat) (c : Char) : Option Nat :=
  let n := c.toNat
  let d :=
    if 48 ≤ n ∧ n ≤ 57 then n - 48
    else if 97 ≤ n ∧ n ≤ 102 then n - 87
    else if 65 ≤ n ∧ n ≤ 70 then n - 55
    else 16
  if d < base then some d else none

/-- The number a list of digits spells, most significant first, continuing from `acc`. -/
def digitsValue (base : Nat) : Nat → List Char → Option Nat
  | acc, []      => some acc
  | acc, c :: cs =>
    match digitValue base c with
    | some d => digitsValue base (acc * base + d) cs
    | none   => none

/-- An unsigned integer in decimal or `0x` hexadecimal (R100). -/
def parseNat (l : List Char) : Option Nat :=
  match l with
  | []                    => none
  | '0' :: 'x' :: []      => none
  | '0' :: 'x' :: digits  => digitsValue 16 0 digits
  | digits                => digitsValue 10 0 digits

/-- An operand: an unsigned integer that fits in 64 bits (R100). -/
def parseOperand (l : List Char) : Option Word :=
  match parseNat l with
  | some n => if n < 2 ^ 64 then some (BitVec.ofNat 64 n) else none
  | none   => none

/-- A decimal numeral, with or without a fraction: digits, or digits `.` digits (DESIGN CHOICE, log 15). -/
def parseDecimal (l : List Char) : Option Rate :=
  let whole := l.takeWhile (· != '.')
  match whole, l.dropWhile (· != '.') with
  | [], _            => none
  | _, []            => (digitsValue 10 0 whole).map fun n => { num := n, den := 1 }
  | _, _ :: []       => none
  | _, _ :: fraction => (digitsValue 10 0 (whole ++ fraction)).map fun n => { num := n, den := 10 ^ fraction.length }

/-- An error rate: a decimal numeral or a quotient of two (DESIGN CHOICE, log 15). -/
def parseRate (l : List Char) : Option Rate :=
  match l.dropWhile (· != '/') with
  | []           => parseDecimal l
  | _ :: divisor =>
    match parseDecimal (trimBlanks (l.takeWhile (· != '/'))), parseDecimal (trimBlanks divisor) with
    | some a, some b => some { num := a.num * b.den, den := a.den * b.num }
    | _, _           => none

/-- The pieces of a text between commas. -/
def splitCommas : List Char → List (List Char)
  | []      => [[]]
  | c :: cs =>
    if c == ',' then [] :: splitCommas cs
    else
      match splitCommas cs with
      | []           => [[c]]
      | piece :: more => (c :: piece) :: more

/-- All operands of a line, or none if one of them is no operand. -/
def parseOperands : List (List Char) → Option (List Word)
  | []      => some []
  | p :: ps =>
    match parseOperand (trimBlanks p), parseOperands ps with
    | some w, some ws => some (w :: ws)
    | _, _            => none

/-! Pseudo-instructions (R102). -/

/-- `bf.add <key>`: bf.insert of the key's digest H(key). -/
def bfAdd {κ : Type} (H : κ → Word) (key : κ) : Command := { instr := .bfInsert, args := [H key] }

/-- `bf.contains <key>`: bf.query of the key's digest H(key). -/
def bfContains {κ : Type} (H : κ → Word) (key : κ) : Command := { instr := .bfQuery, args := [H key] }

/-- `bf.create` on numbers: `bf.config m, k` with (m, k) = SIZE(capacity, error_rate), or the line's refusal. -/
def assembleCreate (host : AsmHost) (capacity : Nat) (rate : Rate) : Assembled :=
  if capacity = 0 then .refused .badCapacity
  else if rate.valid then
    let mk := host.size capacity rate
    if mk.1 ≤ host.params.nbitsMax.toNat ∧ mk.2 ≤ host.params.kMax.toNat then
      .ok (.command { instr := .bfConfig, args := [BitVec.ofNat 64 mk.1, BitVec.ofNat 64 mk.2] })
    else .refused .filterTooLarge
  else .refused .badErrorRate

/-- `bf.create <capacity>, <error_rate>` on the text after the mnemonic. -/
def assembleCreateText (host : AsmHost) (rest : List Char) : Assembled :=
  match splitCommas rest with
  | [capacityText, rateText] =>
    match parseNat (trimBlanks capacityText), parseRate (trimBlanks rateText) with
    | some capacity, some rate => assembleCreate host capacity rate
    | none, _                  => .refused .badCapacity
    | some _, none             => .refused .badErrorRate
  | _ => .refused .wrongOperandCount

/-- `bf.add` and `bf.contains`: the key is the text after the mnemonic (DESIGN CHOICE, log 15). -/
def assembleKey (expand : List Char → Command) (rest : List Char) : Assembled :=
  if rest.isEmpty then .refused .wrongOperandCount else .ok (.command (expand rest))

/-- A command of the opcode table (R100). -/
def assembleCommand (name rest : List Char) : Assembled :=
  match allForms.find? (fun i => asmName i == name) with
  | none   => .refused .unknownMnemonic
  | some i =>
    match (if rest.isEmpty then some [] else parseOperands (splitCommas rest)) with
    | none    => .refused .badOperand
    | some ws =>
      if (Command.mk i ws).wf then .ok (.command { instr := i, args := ws }) else .refused .wrongOperandCount

/-- Assemble one line: a command `<mnemonic>[.<v>] [<arg0>[, <arg1>]]   [; comment]` (R100), or a pseudo-instruction
(R102). -/
def assemble (host : AsmHost) (line : List Char) : Assembled :=
  let body := trimBlanks (line.takeWhile (· != ';'))
  let name := body.takeWhile fun c => !isBlank c
  let rest := trimBlanks (body.dropWhile fun c => !isBlank c)
  if name == "bf.create".toList then assembleCreateText host rest
  else if name == "bf.add".toList then assembleKey (bfAdd host.hash) rest
  else if name == "bf.contains".toList then assembleKey (bfContains host.hash) rest
  else if name == "reset".toList then (if rest.isEmpty then .ok .reset else .refused .wrongOperandCount)
  else if name == "wait".toList then (if rest.isEmpty then .ok .wait else .refused .wrongOperandCount)
  else assembleCommand name rest

end Sys2Proof.Machine
end

