-- ==== Sys2Proof/Machine/Sizing.lean ====
section
/-! DEFINITION. SIZE, the host-side sizing function (41_bloom.md R160 to R163), over exact reals, and the
condition `bf.create` emits under (30_encoding.md R102). It is a relation: an exact real quotient has no numeral to
compute with (DEDUCED, log 14). -/

namespace Sys2Proof.Machine

/-- SIZE's preconditions (R161): capacity ≥ 1 and 0 < error_rate < 1. -/
def SizePre (capacity : Nat) (errorRate : ℝ) : Prop := 1 ≤ capacity ∧ 0 < errorRate ∧ errorRate < 1

/-- `(m, k) = SIZE(capacity, error_rate)` (R160): m = ⌈capacity · |ln error_rate| / (ln 2)²⌉ and
k = ⌈m · ln 2 / capacity⌉, in exact reals (R162). -/
def IsSize (capacity : Nat) (errorRate : ℝ) (m k : Nat) : Prop :=
  SizePre capacity errorRate ∧
  (m : ℤ) = ⌈(capacity : ℝ) * |Real.log errorRate| / Real.log 2 ^ 2⌉ ∧
  (k : ℤ) = ⌈(m : ℝ) * Real.log 2 / (capacity : ℝ)⌉

/-- `bf.create <capacity>, <error_rate>` emits `bf.config m, k`; it emits nothing when the preconditions fail or when
m > NBITS_MAX or k > K_MAX would follow (R102). -/
def CreateEmits (p : Params) (capacity : Nat) (errorRate : ℝ) (c : Command) : Prop :=
  ∃ m k : Nat, IsSize capacity errorRate m k ∧ m ≤ p.nbitsMax.toNat ∧ k ≤ p.kMax.toNat ∧
    c = { instr := .bfConfig, args := [BitVec.ofNat 64 m, BitVec.ofNat 64 k] }

/-- The error rate a line spells, as a real number. -/
def Rate.Denotes (r : Rate) (x : ℝ) : Prop := x = (r.num : ℝ) / (r.den : ℝ)

/-- The assembler's host evaluates SIZE exactly (41_bloom.md R162). -/
def AsmHost.SizesExactly (host : AsmHost) : Prop :=
  ∀ (capacity : Nat) (rate : Rate) (x : ℝ), rate.Denotes x → SizePre capacity x →
    IsSize capacity x (host.size capacity rate).1 (host.size capacity rate).2

end Sys2Proof.Machine
end

