-- ==== Sys2Proof/Machine/Run.lean ====
section
/-! DEFINITION. How the run of a program ends (70_reset_and_hazards.md R271). -/

namespace Sys2Proof.Machine

/-- A host access that issues a command, if it is accepted: an 8-byte write of CMD (42_host.md R202). -/
def Event.issues (e : Event) : Bool :=
  match e with
  | .write addr n _ => addr == 0x00#64 && n == 8#64
  | .read _ _       => false
  | .rst            => false
  | .engine         => false

/-- The host observes STATUS.BUSY = 0: the event was the poll's read, and it returned a value with bit 0 clear. -/
def observesIdle (e : Event) (after : State) : Bool :=
  e == pollRead && after.reply.any fun v => !v.getLsbD 0

/-- Whether the host has observed BUSY = 0 since its last command, after one more event. -/
def observedNext (observed : Bool) (e : Event) (after : State) : Bool :=
  !e.issues && (observed || observesIdle e after)

/-- How a run ends (R271). -/
inductive RunEnd where
  /-- The last command is issued, BUSY = 0 observed after it, FAULT = 0. -/
  | successful (final : State)
  /-- The first state with FAULT = 1; the rest of the program is discarded. -/
  | unsuccessful (final : State)
  /-- The events are over, the command in flight has ended without a fault, and BUSY = 0 has not been observed after the
  last command: the engine is idle from `now` on (60_exceptions.md R245). -/
  | unfinished (now : State)
deriving DecidableEq, Repr

/-- The end of the run over the events still to come, step by step: the first moment at which R271 says that it ends. With
no event left one step remains, in which the command in flight ends (70_reset_and_hazards.md R273, log 5): a fault of
it is the run's first fault too. -/
def runEndFrom : List Event → Bool → State → RunEnd
  | [], observed, s =>
    if s.fault.isSome then .unsuccessful s
    else if observed then .successful s
    else
      match step s with
      | .next t    => if t.fault.isSome then .unsuccessful t else .unfinished t
      | .fault _   => .unfinished s
      | .refused _ => .unfinished s
  | e :: rest, observed, s =>
    if s.fault.isSome then .unsuccessful s
    else if observed && !(e :: rest).any Event.issues then .successful s
    else
      match step s with
      | .next t    => runEndFrom rest (observedNext observed e t) t
      | .fault _   => .unfinished s
      | .refused _ => .unfinished s

/-- How the run of the pending events ends (R271). With no command in flight there is none to wait for. -/
def runEnd (s : State) : RunEnd := runEndFrom s.pending (!s.busy) s

end Sys2Proof.Machine
end

