-- ==== Sys2Proof/Safety.lean ====
section
/-! DEFINITION. What a good state and a good run are, in the terms the statements use. -/

namespace Sys2Proof.Machine

/-- The invariants of the state, each a rule of the spec. -/
structure State.Inv (s : State) : Prop where
  /-- The parameters are in their ranges (00_scope.md R5). -/
  paramsLegal   : s.params.legal = true
  /-- STORE is in its canonical form. -/
  storeWf       : Memory.wf s.store = true
  /-- A word has W bits (10_state.md R37). -/
  wordFits      : ∀ w, (s.word w).toNat < 2 ^ s.W
  /-- Word indexes are below NW_MAX (R37). -/
  storeBound    : ∀ w, s.params.nwMax ≤ w → s.word w = 0#64
  /-- NBITS ≤ NBITS_MAX (R26). -/
  nbitsBound    : s.nbits.toNat ≤ s.params.nbitsMax.toNat
  /-- NWORDS ≤ CAPWORDS (R28). -/
  capwordsLower : s.nwords ≤ s.capwords.toNat
  /-- CAPWORDS ≤ NW_MAX (R28). -/
  capwordsUpper : s.capwords.toNat ≤ s.params.nwMax
  /-- K = 0 in VECTOR mode (R29). -/
  vectorK       : s.mode = .vector → s.k = 0#64
  /-- 1 ≤ K ≤ K_MAX and 1 ≤ m in FILTER mode (R29, 00_scope.md R6). -/
  filterK       : s.mode = .filter →
                    1 ≤ s.k.toNat ∧ s.k.toNat ≤ s.params.kMax.toNat ∧ 1 ≤ s.nbits.toNat
  /-- ITER_POS ≤ NBITS while an iteration is open (R34). -/
  iterBound     : s.iterActive = true → s.iterPos.toNat ≤ s.nbits.toNat
  /-- ITER_POS = 0 while none is open (R34). -/
  iterClosed    : s.iterActive = false → s.iterPos = 0#64
  /-- When NONE = 1, RESULT = 0 (R31). -/
  noneResult    : s.noneFlag = true → s.result = 0#64
  /-- With no fault recorded FAULT_INFO0 and FAULT_INFO1 are 0 (60_exceptions.md R221). -/
  noFaultInfo   : s.fault = none → s.faultInfo0 = 0#64 ∧ s.faultInfo1 = 0#64
  /-- The command in flight is CMD with the operands of ARG0 and ARG1: none of them can be written meanwhile
  (42_host.md R205, R206). -/
  inFlightRegs  : ∀ f, s.inFlight = some f → f.c = s.cmd ∧ f.a0 = s.arg0 ∧ f.a1 = s.arg1
  /-- The tail-bit invariant (10_state.md R39). -/
  tailClean     : 1 ≤ s.nwords → s.word (s.nwords - 1) &&& ~~~tailMask s.W s.nbits.toNat = 0#64

/-- `n` steps from `s`. -/
def steps : Nat → State → Result
  | 0, s     => .next s
  | n + 1, s =>
    match step s with
    | .next t    => steps n t
    | .fault r   => .fault r
    | .refused r => .refused r

/-- The run from `s` ends successfully, in the state `final` (70_reset_and_hazards.md R271). -/
def State.EndsWell (s final : State) : Prop := runEnd s = .successful final

/-- Two states that agree on what a final state is: every register, and the live words of STORE
(70_reset_and_hazards.md R271). -/
def State.SameFinal (s t : State) : Prop :=
  (∀ r : Reg, s.readReg r = t.readReg r) ∧ ∀ w, w < s.nwords → s.word w = t.word w

/-- The engine can take a command: BUSY = 0 and FAULT = 0 (42_host.md R202). -/
def State.ready (s : State) : Bool := !s.busy && s.fault.isNone

/-- Every register at its reset value (10_state.md R42), the constant registers (R38) aside. Of STORE it says nothing:
its words are unspecified. -/
structure State.AtResetValues (s : State) : Prop where
  cmd        : s.cmd = 0#64
  arg0       : s.arg0 = 0#64
  arg1       : s.arg1 = 0#64
  result     : s.result = 0#64
  status     : s.status = 0#64
  busy       : s.busy = false
  noneFlag   : s.noneFlag = false
  fault      : s.fault = none
  mode       : s.mode = .vector
  iterActive : s.iterActive = false
  faultCode  : s.faultCodeValue = 0x00
  nbits      : s.nbits = 0#64
  nwords     : s.nwords = 0
  capwords   : s.capwords = 0#64
  k          : s.k = 0#64
  iterPos    : s.iterPos = 0#64
  faultInfo0 : s.faultInfo0 = 0#64
  faultInfo1 : s.faultInfo1 = 0#64
  inFlight   : s.inFlight = none

/-- OPC of a CMD value (30_encoding.md R91). -/
def opcodeOf (c : Word) : Nat := c.toNat % 256

/-- The CMD values that are illegal: conditions (a) to (d) of 30_encoding.md R95. -/
def IllegalValue (c : Word) : Prop :=
  c.extractLsb' 32 32 ≠ 0#32 ∨
  c.extractLsb' 9 23 ≠ 0#23 ∨
  (opcodeOf c = 0x00 ∨ (0x0F ≤ opcodeOf c ∧ opcodeOf c ≤ 0x1F) ∨ (0x25 ≤ opcodeOf c ∧ opcodeOf c ≤ 0xFF)) ∨
  (c.getLsbD 8 = true ∧ opcodeOf c ≠ 0x02 ∧ opcodeOf c ≠ 0x06 ∧ opcodeOf c ≠ 0x07)

/-- What a command that raises a fault leaves (60_exceptions.md R230, R232): the record (command value, ARG0 snapshot)
if none was there, the command over, the program position past it, and nothing else. -/
def State.faultEntry (s : State) (code : FaultCode) : State :=
  match s.fault with
  | none   =>
    { s with fault := some code, faultInfo0 := s.current.c, faultInfo1 := s.current.a0,
             inFlight := none, pos := s.pos + 1 }
  | some _ => { s with inFlight := none, pos := s.pos + 1 }

/-- The events that reset (70_reset_and_hazards.md R260). -/
def isResetEvent (e : Event) : Bool := e == .rst || e == .write 0x28#64 8#64 1#64

/-- The constructor commands: each begins a new container or filter (90_conflicts.md C5). -/
def isConstructor : Instr → Bool
  | .bvNew        => true
  | .bvFromElem _ => true
  | .bfConfig     => true
  | _             => false

/-- Two states that agree on everything but the words that are not live (10_state.md R40). -/
def State.sameButDead (s t : State) : Prop :=
  t = { s with store := t.store } ∧ ∀ w, w < s.nwords → t.word w = s.word w

end Sys2Proof.Machine
end

