-- ==== Sys2Proof/Certificates/Slice0/Obligations.lean ====
section
/-! DEFINITION. The statements for the provers. `exec i s` is a command's meaning, `s.current` the command in flight
with its operand snapshots, `s.bit p` position p of the logical vector, `s.word w` storage word w. -/

open Sys2Proof Sys2Proof.Machine

/-! Reset -/

/-- 10_state.md R42, 70_reset_and_hazards.md R261: what reset leaves, whatever the parameters. -/
def Obligations.ResetGivesEveryRegisterItsResetValue : Prop :=
  ∀ p : Params,
    (State.resetOf p).AtResetValues ∧
    (State.resetOf p).readReg .paramW = BitVec.ofNat 64 p.W ∧
    (State.resetOf p).readReg .paramNbitsMax = p.nbitsMax ∧
    (State.resetOf p).readReg .paramKMax = p.kMax ∧
    (State.resetOf p).readReg .id = 0x0000010042464D45#64 ∧
    State.reset.AtResetValues

/-- 70_reset_and_hazards.md R260, R262, 42_host.md R203: rst_i and a write of 1 to CTRL do the same from every state,
busy or faulted, and leave the reset values and no command in flight; a write of 0 has no effect, and any other value is
ERR_BUS and does not reset. -/
def Obligations.BothResetSourcesResetFromEveryState : Prop :=
  ∀ (s : State) (rest : List Event),
    (∃ t, step { s with pending := .rst :: rest } = .next t ∧
      step { s with pending := .write 0x28#64 8#64 1#64 :: rest } = .next t ∧
      t.AtResetValues ∧ t.params = s.params ∧ t.pending = rest) ∧
    step { s with pending := .write 0x28#64 8#64 0#64 :: rest } = .next { s with pending := rest, reply := none } ∧
    (∀ v : Word, v ≠ 0#64 → v ≠ 1#64 →
      (s.fault = none → step { s with pending := .write 0x28#64 8#64 v :: rest } = .next { s with
          pending := rest, reply := none, fault := some .errBus, faultInfo0 := 0x28#64, faultInfo1 := 0x108#64 }) ∧
      (s.fault ≠ none → step { s with pending := .write 0x28#64 8#64 v :: rest } = .next { s with
          pending := rest, reply := none }))

/-- The reset state meets the invariant. That reset lists no word of STORE is the model's choice (log 2). -/
def Obligations.ResetMeetsTheInvariant : Prop :=
  State.reset.Inv ∧ ∀ p : Params, p.legal = true → (State.resetOf p).Inv

/-- Every step, whatever the event and from whatever state that meets it, keeps the invariant of the state: the
canonical store, W-bit words, NBITS ≤ NBITS_MAX, NWORDS ≤ CAPWORDS ≤ NW_MAX, K, ITER_POS, NONE, the fault record, the
command in flight, and the tail bits; and no step changes the parameters. The canonical form of STORE is the model's
choice (log 2). -/
def Obligations.EveryStepKeepsTheInvariant : Prop :=
  ∀ s t : State, s.Inv → step s = .next t → t.Inv ∧ t.params = s.params

/-! Decoding -/

/-- 30_encoding.md R99: every CMD value is exactly one command, the one whose value it is, or illegal under R95. -/
def Obligations.ValueDecodesExactlyToTheCommandItEncodes : Prop :=
  (∀ (c : Word) (i : Instr), decode c = .ok i ↔ c = cmdValue i) ∧
  (∀ c : Word, (∃ why, decode c = .illegal why) ↔ IllegalValue c)

/-- The command words of 30_encoding.md R94, written out. -/
def Obligations.CommandWordsDecodeAsTheTableSays : Prop :=
  decode 0x00000001#64 = .ok .bvNew ∧ decode 0x00000002#64 = .ok (.bvFromElem false) ∧
  decode 0x00000102#64 = .ok (.bvFromElem true) ∧ decode 0x00000003#64 = .ok .bvLen ∧
  decode 0x00000004#64 = .ok .bvIsEmpty ∧ decode 0x00000005#64 = .ok .bvGet ∧
  decode 0x00000006#64 = .ok (.bvSet false) ∧ decode 0x00000106#64 = .ok (.bvSet true) ∧
  decode 0x00000007#64 = .ok (.bvPush false) ∧ decode 0x00000107#64 = .ok (.bvPush true) ∧
  decode 0x0000000E#64 = .ok .bvIterNext ∧ decode 0x00000020#64 = .ok .bfConfig ∧
  decode 0x00000024#64 = .ok .bfIndex

/-- 20_memory.md R63: byte j of a register at offset o is v[8j+7:8j]; and a CMD value laid out so decodes as itself. -/
def Obligations.WindowIsLittleEndian : Prop :=
  (∀ (s : State) (o j : Nat) (r : Reg), Reg.ofOffset o = some r → j < 8 →
    s.windowByte (o + j) = some ((s.readReg r).extractLsb' (8 * j) 8)) ∧
  (∀ c : Word, decodeBytes (leBytes 8 c.toNat) = decode c)

/-- 30_encoding.md R95: the illegal values, and the one effect of such a command. -/
def Obligations.IllegalValueOnlyRaisesErrIllegal : Prop :=
  ∀ (s : State) (f : InFlight), s.inFlight = some f → s.pending = [] →
    (IllegalValue f.c → step s = .next (s.faultEntry .errIllegal)) ∧
    (¬ IllegalValue f.c → ∃ i, decode f.c = .ok i ∧ step s = exec i s)

/-- 60_exceptions.md R222: ERR_ILLEGAL for every illegal value, in either mode, and for no other reason. -/
def Obligations.ErrIllegalForIllegalValuesOnly : Prop :=
  (∀ (s : State) (f : InFlight) (why : Illegal),
    s.inFlight = some f → decode f.c = .illegal why → engineTurn s = .next (s.faultEntry .errIllegal)) ∧
  (∀ (i : Instr) (s t : State), exec i s = .next t → t.fault = some .errIllegal → s.fault = some .errIllegal) ∧
  (∀ (s : State) (addr n v : Word),
    ((s.hostRead addr n).fault = some .errIllegal → s.fault = some .errIllegal) ∧
    ((s.hostWrite addr n v).fault = some .errIllegal → s.fault = some .errIllegal))

/-! The step -/

/-- A step runs the decoded command: when the engine moves and the value in flight decodes to i, the step is exec i,
with the operands sampled at acceptance (30_encoding.md R96); and withFetchWord makes the next step do so. When the
engine moves is the model's choice (logs 5, 6). -/
def Obligations.StepRunsTheDecodedCommand : Prop :=
  (∀ (s : State) (f : InFlight) (i : Instr), s.inFlight = some f → decode f.c = .ok i →
    (s.pending = [] → step s = exec i s) ∧
    (∀ rest, s.pending = .engine :: rest → step s = exec i { s with pending := rest }) ∧
    s.current.c = f.c ∧ s.a0 = f.a0 ∧ s.a1 = f.a1) ∧
  (∀ (s : State) (nbits w : Nat) (i : Instr), decodeTableWord nbits w = some i →
    step (s.withFetchWord nbits w) = exec i (s.accepted (tableWord nbits w)))

/-- 60_exceptions.md R245: when BUSY = 0 it is idle, with every piece of state kept. -/
def Obligations.IdleEngineKeepsEveryPieceOfState : Prop :=
  ∀ s : State, s.inFlight = none → engineTurn s = .next s ∧ (s.pending = [] → step s = .next s)

/-- 60_exceptions.md R223: exactly the commands named raise ERR_MODE in each mode. -/
def Obligations.ErrModeForExactlyTheCommandsNamed : Prop :=
  ∀ (i : Instr) (s : State),
    let named :=
      (s.mode = .filter ∧ ((∃ v, i = .bvSet v) ∨ (∃ v, i = .bvPush v) ∨ i = .bvClear ∨ i = .bvSetAll ∨
        i = .bvNegate ∨ i = .bvReserve)) ∨
      (s.mode = .vector ∧ (i = .bfInsert ∨ i = .bfQuery ∨ i = .bfClear ∨ i = .bfIndex))
    (named → exec i s = .next (s.faultEntry .errMode)) ∧
    (¬ named → ∀ t, exec i s = .next t → t.fault = some .errMode → s.fault = some .errMode)

/-! The commands: result, flags, frame and completion of each -/

/-- 40_bitvector.md R111. -/
def Obligations.BvNewMakesTheStorageAnEmptyContainer : Prop :=
  decode 0x01#64 = .ok .bvNew ∧
  ∀ s : State, exec .bvNew s = .next { s with
    nbits := 0#64, capwords := 0#64, mode := .vector, k := 0#64, iterActive := false, iterPos := 0#64,
    result := 0#64, noneFlag := false, inFlight := none, pos := s.pos + 1 }

/-- 40_bitvector.md R112: both values of V, both modes. -/
def Obligations.BvFromElemFillsAndMasks : Prop :=
  decode 0x002#64 = .ok (.bvFromElem false) ∧ decode 0x102#64 = .ok (.bvFromElem true) ∧
  ∀ (v : Bool) (s : State), Memory.wf s.store = true →
    let n := s.a0.toNat
    let nw := ceilDiv n s.W
    (s.params.nbitsMax.toNat < n → exec (.bvFromElem v) s = .next (s.faultEntry .errCapacity)) ∧
    (n ≤ s.params.nbitsMax.toNat → ∃ st, exec (.bvFromElem v) s = .next { s with
        store := st, nbits := s.a0, capwords := BitVec.ofNat 64 nw, mode := .vector, k := 0#64,
        iterActive := false, iterPos := 0#64, result := 0#64, noneFlag := false, inFlight := none,
        pos := s.pos + 1 } ∧
      Memory.wf st = true ∧
      (∀ w, Memory.word st w =
        if w < nw then (if v then (if w + 1 = nw then ones s.W &&& tailMask s.W n else ones s.W) else 0#64)
        else s.word w) ∧
      (∀ p, p < n → Memory.bit s.W st p = v))

/-- 40_bitvector.md R113 and R114. -/
def Obligations.LengthQueriesReturnTheLength : Prop :=
  decode 0x03#64 = .ok .bvLen ∧ decode 0x04#64 = .ok .bvIsEmpty ∧
  ∀ s : State,
    exec .bvLen s = .next { s with
      result := s.nbits, noneFlag := false, inFlight := none, pos := s.pos + 1 } ∧
    exec .bvIsEmpty s = .next { s with
      result := if s.nbits = 0#64 then 1#64 else 0#64, noneFlag := false, inFlight := none, pos := s.pos + 1 } ∧
    (s.Inv → s.mode = .filter → s.nbits ≠ 0#64)

/-- 40_bitvector.md R115. -/
def Obligations.BvGetReadsTheBitOrAnswersAbsent : Prop :=
  decode 0x05#64 = .ok .bvGet ∧
  ∀ s : State,
    let i := s.a0.toNat
    (i < s.nbits.toNat → exec .bvGet s = .next { s with
      result := (s.word (i / s.W) >>> (i % s.W)) &&& 1#64, noneFlag := false, inFlight := none,
      pos := s.pos + 1 }) ∧
    (s.nbits.toNat ≤ i → exec .bvGet s = .next { s with
      result := 0#64, noneFlag := true, inFlight := none, pos := s.pos + 1 })

/-- 40_bitvector.md R116: both values of V. -/
def Obligations.BvSetWritesOneBit : Prop :=
  decode 0x006#64 = .ok (.bvSet false) ∧ decode 0x106#64 = .ok (.bvSet true) ∧
  ∀ (v : Bool) (s : State), Memory.wf s.store = true →
    let i := s.a0.toNat
    (s.mode = .filter → exec (.bvSet v) s = .next (s.faultEntry .errMode)) ∧
    (s.mode = .vector → s.nbits.toNat ≤ i → exec (.bvSet v) s = .next (s.faultEntry .errRange)) ∧
    (s.mode = .vector → i < s.nbits.toNat → ∃ st, exec (.bvSet v) s = .next { s with
        store := st, iterActive := false, iterPos := 0#64, result := 0#64, noneFlag := false,
        inFlight := none, pos := s.pos + 1 } ∧
      Memory.wf st = true ∧
      (∀ w, w ≠ i / s.W → Memory.word st w = s.word w) ∧
      (∀ b, (Memory.word st (i / s.W)).getLsbD b = if b = i % s.W then v else (s.word (i / s.W)).getLsbD b) ∧
      (∀ p, Memory.bit s.W st p = if p = i then v else s.bit p))

/-- 40_bitvector.md R117: both values of V. -/
def Obligations.BvPushAppendsOneBit : Prop :=
  decode 0x007#64 = .ok (.bvPush false) ∧ decode 0x107#64 = .ok (.bvPush true) ∧
  ∀ (v : Bool) (s : State), Memory.wf s.store = true →
    let n := s.nbits.toNat
    (s.mode = .filter → exec (.bvPush v) s = .next (s.faultEntry .errMode)) ∧
    (s.mode = .vector → n = s.params.nbitsMax.toNat → exec (.bvPush v) s = .next (s.faultEntry .errCapacity)) ∧
    (s.mode = .vector → n < s.params.nbitsMax.toNat → ∃ st, exec (.bvPush v) s = .next { s with
        store := st, nbits := s.nbits + 1#64,
        capwords := BitVec.ofNat 64 (max s.capwords.toNat (ceilDiv (n + 1) s.W)),
        iterActive := false, iterPos := 0#64, result := 0#64, noneFlag := false, inFlight := none,
        pos := s.pos + 1 } ∧
      (s.nbits + 1#64).toNat = n + 1 ∧
      Memory.wf st = true ∧
      (∀ w, w ≠ n / s.W → Memory.word st w = s.word w) ∧
      (n % s.W = 0 → Memory.word st (n / s.W) = if v then 1#64 else 0#64) ∧
      (n % s.W ≠ 0 → ∀ b, (Memory.word st (n / s.W)).getLsbD b =
        if b = n % s.W then v else (s.word (n / s.W)).getLsbD b) ∧
      (∀ p, p < n → Memory.bit s.W st p = s.bit p) ∧ Memory.bit s.W st n = v)

/-- 40_bitvector.md R118. -/
def Obligations.BvClearZeroesEveryLiveWord : Prop :=
  decode 0x08#64 = .ok .bvClear ∧
  ∀ s : State, Memory.wf s.store = true →
    (s.mode = .filter → exec .bvClear s = .next (s.faultEntry .errMode)) ∧
    (s.mode = .vector → ∃ st, exec .bvClear s = .next { s with
        store := st, iterActive := false, iterPos := 0#64, result := 0#64, noneFlag := false,
        inFlight := none, pos := s.pos + 1 } ∧
      Memory.wf st = true ∧
      (∀ w, Memory.word st w = if w < s.nwords then 0#64 else s.word w))

/-- 40_bitvector.md R119. -/
def Obligations.BvSetAllSetsEveryLiveBit : Prop :=
  decode 0x09#64 = .ok .bvSetAll ∧
  ∀ s : State, Memory.wf s.store = true →
    (s.mode = .filter → exec .bvSetAll s = .next (s.faultEntry .errMode)) ∧
    (s.mode = .vector → ∃ st, exec .bvSetAll s = .next { s with
        store := st, iterActive := false, iterPos := 0#64, result := 0#64, noneFlag := false,
        inFlight := none, pos := s.pos + 1 } ∧
      Memory.wf st = true ∧
      (∀ w, Memory.word st w =
        if w < s.nwords then
          (if w + 1 = s.nwords then ones s.W &&& tailMask s.W s.nbits.toNat else ones s.W)
        else s.word w) ∧
      (∀ p, p < s.nbits.toNat → Memory.bit s.W st p = true))

/-- 40_bitvector.md R120. -/
def Obligations.BvNegateFlipsEveryLiveBit : Prop :=
  decode 0x0A#64 = .ok .bvNegate ∧
  ∀ s : State, Memory.wf s.store = true →
    (s.mode = .filter → exec .bvNegate s = .next (s.faultEntry .errMode)) ∧
    (s.mode = .vector → ∃ st, exec .bvNegate s = .next { s with
        store := st, iterActive := false, iterPos := 0#64, result := 0#64, noneFlag := false,
        inFlight := none, pos := s.pos + 1 } ∧
      Memory.wf st = true ∧
      (∀ w, s.nwords ≤ w → Memory.word st w = s.word w) ∧
      (∀ w b, w < s.nwords → (Memory.word st w).getLsbD b =
        (decide (b < s.W) && decide (w * s.W + b < s.nbits.toNat) && !(s.word w).getLsbD b)) ∧
      (∀ p, p < s.nbits.toNat → Memory.bit s.W st p = !s.bit p))

/-- 40_bitvector.md R121. -/
def Obligations.BvReserveRaisesTheReservedCapacity : Prop :=
  decode 0x0B#64 = .ok .bvReserve ∧
  ∀ s : State,
    let total := s.nbits.toNat + s.a0.toNat
    (s.mode = .filter → exec .bvReserve s = .next (s.faultEntry .errMode)) ∧
    (s.mode = .vector → s.params.nbitsMax.toNat < total → exec .bvReserve s = .next (s.faultEntry .errCapacity)) ∧
    (s.mode = .vector → total ≤ s.params.nbitsMax.toNat → ∃ cap : Word, exec .bvReserve s = .next { s with
        capwords := cap, iterActive := false, iterPos := 0#64, result := 0#64, noneFlag := false,
        inFlight := none, pos := s.pos + 1 } ∧
      cap.toNat = max s.capwords.toNat (ceilDiv total s.W))

/-- 40_bitvector.md R122. -/
def Obligations.BvReadWordReadsALiveWordOrAnswersAbsent : Prop :=
  decode 0x0C#64 = .ok .bvReadWord ∧
  ∀ s : State,
    (s.a0.toNat < s.nwords → exec .bvReadWord s = .next { s with
      result := s.word s.a0.toNat, noneFlag := false, inFlight := none, pos := s.pos + 1 }) ∧
    (s.nwords ≤ s.a0.toNat → exec .bvReadWord s = .next { s with
      result := 0#64, noneFlag := true, inFlight := none, pos := s.pos + 1 }) ∧
    (s.Inv → (s.word s.a0.toNat).toNat < 2 ^ s.W ∧
      (s.a0.toNat + 1 = s.nwords → ∀ b, s.nbits.toNat % s.W ≠ 0 → s.nbits.toNat % s.W ≤ b →
        (s.word s.a0.toNat).getLsbD b = false))

/-- 40_bitvector.md R123. -/
def Obligations.BvIterStartOpensAnIterationAtZero : Prop :=
  decode 0x0D#64 = .ok .bvIterStart ∧
  ∀ s : State, exec .bvIterStart s = .next { s with
    iterActive := true, iterPos := 0#64, result := 0#64, noneFlag := false, inFlight := none, pos := s.pos + 1 }

/-- 40_bitvector.md R124. -/
def Obligations.BvIterNextYieldsTheNextBit : Prop :=
  decode 0x0E#64 = .ok .bvIterNext ∧
  ∀ s : State,
    let p := s.iterPos.toNat
    (s.iterActive = false → exec .bvIterNext s = .next (s.faultEntry .errIter)) ∧
    (s.iterActive = true → p < s.nbits.toNat → exec .bvIterNext s = .next { s with
      iterPos := s.iterPos + 1#64, result := (s.word (p / s.W) >>> (p % s.W)) &&& 1#64, noneFlag := false,
      inFlight := none, pos := s.pos + 1 }) ∧
    (s.iterActive = true → s.nbits.toNat ≤ p → exec .bvIterNext s = .next { s with
      result := 0#64, noneFlag := true, inFlight := none, pos := s.pos + 1 })

/-- 41_bloom.md R168. -/
def Obligations.BfConfigConstructsTheFilter : Prop :=
  decode 0x20#64 = .ok .bfConfig ∧
  ∀ s : State, Memory.wf s.store = true →
    let m := s.a0.toNat
    let k := s.a1.toNat
    let bad := m = 0 ∨ s.params.nbitsMax.toNat < m ∨ k = 0 ∨ s.params.kMax.toNat < k
    (bad → exec .bfConfig s = .next (s.faultEntry .errConfig)) ∧
    (¬ bad → ∃ st, exec .bfConfig s = .next { s with
        store := st, nbits := s.a0, capwords := BitVec.ofNat 64 (ceilDiv m s.W), k := s.a1, mode := .filter,
        iterActive := false, iterPos := 0#64, result := 0#64, noneFlag := false, inFlight := none,
        pos := s.pos + 1 } ∧
      Memory.wf st = true ∧
      (∀ w, Memory.word st w = if w < ceilDiv m s.W then 0#64 else s.word w))

/-- 41_bloom.md R169. -/
def Obligations.BfInsertSetsTheProbeBits : Prop :=
  decode 0x21#64 = .ok .bfInsert ∧
  ∀ s : State, Memory.wf s.store = true →
    let index := fun i => (s.a0.toNat % 2 ^ 32 + s.a0.toNat / 2 ^ 32 * i) % s.nbits.toNat
    (s.mode = .vector → exec .bfInsert s = .next (s.faultEntry .errMode)) ∧
    (s.mode = .filter → ∃ st, exec .bfInsert s = .next { s with
        store := st, iterActive := false, iterPos := 0#64, result := 0#64, noneFlag := false,
        inFlight := none, pos := s.pos + 1 } ∧
      Memory.wf st = true ∧
      (∀ w, (∀ i, i < s.k.toNat → w ≠ index i / s.W) → Memory.word st w = s.word w) ∧
      (∀ p, Memory.bit s.W st p = true ↔ s.bit p = true ∨ ∃ i, i < s.k.toNat ∧ p = index i))

/-- 41_bloom.md R170. -/
def Obligations.BfQueryAndsTheProbeBits : Prop :=
  decode 0x22#64 = .ok .bfQuery ∧
  ∀ s : State,
    let index := fun i => (s.a0.toNat % 2 ^ 32 + s.a0.toNat / 2 ^ 32 * i) % s.nbits.toNat
    (s.mode = .vector → exec .bfQuery s = .next (s.faultEntry .errMode)) ∧
    (s.mode = .filter → ∃ r : Word, exec .bfQuery s = .next { s with
        result := r, noneFlag := false, inFlight := none, pos := s.pos + 1 } ∧
      (r = 1#64 ∨ r = 0#64) ∧ (r = 1#64 ↔ ∀ i, i < s.k.toNat → s.bit (index i) = true))

/-- 41_bloom.md R171. -/
def Obligations.BfClearZeroesTheBitField : Prop :=
  decode 0x23#64 = .ok .bfClear ∧
  ∀ s : State, Memory.wf s.store = true →
    (s.mode = .vector → exec .bfClear s = .next (s.faultEntry .errMode)) ∧
    (s.mode = .filter → ∃ st, exec .bfClear s = .next { s with
        store := st, iterActive := false, iterPos := 0#64, result := 0#64, noneFlag := false,
        inFlight := none, pos := s.pos + 1 } ∧
      Memory.wf st = true ∧
      (∀ w, Memory.word st w = if w < s.nwords then 0#64 else s.word w))

/-- 41_bloom.md R172. -/
def Obligations.BfIndexReturnsOneProbeIndex : Prop :=
  decode 0x24#64 = .ok .bfIndex ∧
  ∀ s : State,
    let i := s.a1.toNat
    (s.mode = .vector → exec .bfIndex s = .next (s.faultEntry .errMode)) ∧
    (s.mode = .filter → s.k.toNat ≤ i → exec .bfIndex s = .next (s.faultEntry .errRange)) ∧
    (s.mode = .filter → i < s.k.toNat → exec .bfIndex s = .next { s with
      result := BitVec.ofNat 64 ((s.a0.toNat % 2 ^ 32 + s.a0.toNat / 2 ^ 32 * i) % s.nbits.toNat),
      noneFlag := false, inFlight := none, pos := s.pos + 1 })

/-! Storage, mapper and combiner -/

/-- 20_memory.md R67 with 00_scope.md R9: bit order in storage is least-significant bit first. -/
def Obligations.PositionIsABitOfItsWord : Prop :=
  ∀ s : State,
    (∀ p, bitWord (s.bit p) = (s.word (p / s.W) >>> (p % s.W)) &&& 1#64) ∧
    (∀ w b, b < s.W → s.bit (w * s.W + b) = (s.word w).getLsbD b)

/-- 20_memory.md R69: the word view and the bit view agree, as the two commands answer. -/
def Obligations.WordViewAndBitViewAgree : Prop :=
  ∀ (s : State) (w b : Nat), s.Inv → s.ready = true → w < s.nwords →
    ∃ t, runCommand { instr := .bvReadWord, args := [BitVec.ofNat 64 w] } s = .next t ∧
      (b < s.W → w * s.W + b < s.nbits.toNat →
        ∃ u, runCommand { instr := .bvGet, args := [BitVec.ofNat 64 (w * s.W + b)] } s = .next u ∧
          u.noneFlag = false ∧ u.result = bitWord (t.result.getLsbD b)) ∧
      (b < s.W → w + 1 = s.nwords → s.nbits.toNat ≤ w * s.W + b → t.result.getLsbD b = false) ∧
      (s.W ≤ b → t.result.getLsbD b = false)

/-- 41_bloom.md R165, R166: the index, its range, and that 64-bit arithmetic computes it exactly. -/
def Obligations.ProbeIndexIsExactInSixtyFourBits : Prop :=
  ∀ (d : Word) (m i : Nat), 1 ≤ m → m < 2 ^ 64 → i < 2 ^ 32 →
    let a := d.toNat % 2 ^ 32
    let b := d.toNat / 2 ^ 32
    probeIndex m d i = (a + b * i) % m ∧ probeIndex m d i < m ∧ probeIndex m d 0 = a % m ∧
    (b % m = 0 → probeIndex m d i = probeIndex m d 0) ∧
    (((d &&& 0xFFFFFFFF#64) + (d >>> 32) * BitVec.ofNat 64 i) % BitVec.ofNat 64 m).toNat = probeIndex m d i

/-- 41_bloom.md R167: any order of the k probes gives the same answer and the same store. -/
def Obligations.ProbesMayBeTakenInAnyOrder : Prop :=
  ∀ (s : State) (order : List Nat), Memory.wf s.store = true → s.mode = .filter →
    order.Perm (List.range s.k.toNat) →
    (∃ t, exec .bfQuery s = .next t ∧
      t.result = bitWord (order.all fun i => s.bit (probeIndex s.nbits.toNat s.a0 i))) ∧
    (∃ t, exec .bfInsert s = .next t ∧
      t.store = order.foldl (fun st i => Memory.setBit s.W st (probeIndex s.nbits.toNat s.a0 i) true) s.store)

/-- STORE's canonical form (the model's own, log 2): a word write is read back and leaves every other word, keeps the
form, and stores with the same words are the same data. -/
def Obligations.StoreIsCanonicalAndReadsBackWrites : Prop :=
  (∀ (m : Memory) (w v w'), Memory.wf m = true →
    Memory.wf (Memory.setWord m w v) = true ∧
    Memory.word (Memory.setWord m w v) w' = if w' = w then v else Memory.word m w') ∧
  (∀ m m' : Memory, Memory.wf m = true → Memory.wf m' = true →
    (∀ w, Memory.word m w = Memory.word m' w) → m = m')

/-! Whole-machine rules -/

/-- 60_exceptions.md R230, R231: a command completes, or raises one fault with no other effect; in both cases the
operand registers, CMD, the parameters and the environment are untouched, BUSY falls, and the program position advances
by 1 (10_state.md R21, R22). -/
def Obligations.CommandCompletesOrOnlyRecordsAFault : Prop :=
  ∀ (i : Instr) (s : State), ∃ t, exec i s = .next t ∧
    t.busy = false ∧ t.pos = s.pos + 1 ∧ t.cmd = s.cmd ∧ t.arg0 = s.arg0 ∧ t.arg1 = s.arg1 ∧
    t.params = s.params ∧ t.pending = s.pending ∧ t.reply = s.reply ∧ t.draws = s.draws ∧
    ((∃ code, t = s.faultEntry code) ∨
     (t.fault = s.fault ∧ t.faultInfo0 = s.faultInfo0 ∧ t.faultInfo1 = s.faultInfo1))

/-- 60_exceptions.md R232, R233: the first fault is kept, and with no command in flight the faulted state is quiescent;
reset is the only way out. A command in flight still ends (log 4). -/
def Obligations.FaultIsStickyUntilReset : Prop :=
  ∀ s t : State, s.fault ≠ none → (∀ e, s.pending.head? = some e → isResetEvent e = false) → step s = .next t →
    t.fault = s.fault ∧ t.faultInfo0 = s.faultInfo0 ∧ t.faultInfo1 = s.faultInfo1 ∧
    (s.inFlight = none →
      t = { s with arg0 := t.arg0, arg1 := t.arg1, reply := t.reply, pending := t.pending })

/-- 40_bitvector.md R125: a command of the mutating class that completes closes the iteration, one that faults does
not; no other command but BV_ITER_START and BV_ITER_NEXT touches it. -/
def Obligations.MutatingCommandsCloseTheIteration : Prop :=
  ∀ (i : Instr) (s t : State), exec i s = .next t →
    (i = .bvNew ∨ (∃ v, i = .bvFromElem v) ∨ (∃ v, i = .bvSet v) ∨ (∃ v, i = .bvPush v) ∨ i = .bvClear ∨
      i = .bvSetAll ∨ i = .bvNegate ∨ i = .bvReserve ∨ i = .bfConfig ∨ i = .bfInsert ∨ i = .bfClear →
      (t.iterActive = false ∧ t.iterPos = 0#64) ∨ ∃ code, t = s.faultEntry code) ∧
    (i = .bvLen ∨ i = .bvIsEmpty ∨ i = .bvGet ∨ i = .bvReadWord ∨ i = .bfQuery ∨ i = .bfIndex →
      t.iterActive = s.iterActive ∧ t.iterPos = s.iterPos ∧ t.store = s.store)

/-- 41_bloom.md R173 with 10_state.md R25, R26 and R29: who may change the bit field, NBITS, K and MODE. -/
def Obligations.OnlyTheNamedCommandsChangeTheFilter : Prop :=
  ∀ (i : Instr) (s t : State), exec i s = .next t →
    (s.mode = .filter → t.store ≠ s.store → i = .bfInsert ∨ i = .bfClear ∨ isConstructor i = true) ∧
    (s.mode = .filter → t.nbits ≠ s.nbits ∨ t.k ≠ s.k → isConstructor i = true) ∧
    (s.mode = .filter → t.mode = .vector → i = .bvNew ∨ ∃ v, i = .bvFromElem v) ∧
    (s.mode = .vector → t.mode = .filter → i = .bfConfig) ∧
    (t.nbits ≠ s.nbits → isConstructor i = true ∨ ∃ v, i = .bvPush v) ∧
    (s.Inv → t.nbits.toNat < s.nbits.toNat → isConstructor i = true)

/-- 40_bitvector.md R126: every command leaves the tail bits clean, and reset leaves no live word. -/
def Obligations.EveryCommandLeavesTheTailClean : Prop :=
  (∀ (i : Instr) (s t : State), s.Inv → exec i s = .next t →
    ∀ b, t.nbits.toNat % t.W ≠ 0 → t.nbits.toNat % t.W ≤ b → (t.word (t.nwords - 1)).getLsbD b = false) ∧
  (∀ s : State, s.afterReset.nwords = 0)

/-- 40_bitvector.md R127. -/
def Obligations.SetThenGetRoundTrips : Prop :=
  ∀ (s : State) (i : Word) (v : Bool), s.Inv → s.ready = true → s.mode = .vector → i.toNat < s.nbits.toNat →
    ∃ t, runProgram [{ instr := .bvSet v, args := [i] }, { instr := .bvGet, args := [i] }] s = .next t ∧
      t.result = bitWord v ∧ t.noneFlag = false

/-- 40_bitvector.md R128. -/
def Obligations.PushesGrowTheContainer : Prop :=
  ∀ (s : State) (vs : List Bool), s.Inv → s.ready = true → s.mode = .vector → s.nbits = 0#64 →
    vs.length ≤ s.params.nbitsMax.toNat →
    ∃ t, runProgram (vs.map fun v => { instr := .bvPush v, args := [] }) s = .next t ∧
      t.nbits.toNat = vs.length ∧ t.nwords = ceilDiv vs.length s.W ∧
      ∀ (j : Nat) (h : j < vs.length), t.bit j = vs[j]

/-- 40_bitvector.md R129. -/
def Obligations.FromElemLeavesTheTailClean : Prop :=
  ∀ s : State, Memory.wf s.store = true → s.a0.toNat ≤ s.params.nbitsMax.toNat →
    (∃ t, exec (.bvFromElem false) s = .next t ∧ ∀ w, w < t.nwords → t.word w = 0#64) ∧
    (∃ t, exec (.bvFromElem true) s = .next t ∧
      (s.a0.toNat % s.W ≠ 0 → ∀ b, s.a0.toNat % s.W ≤ b → (t.word (t.nwords - 1)).getLsbD b = false))

/-- 40_bitvector.md R124, corner cases: a full iteration yields the NBITS bits in ascending order, then "absent" for
ever, in either mode. -/
def Obligations.IterationYieldsEveryBitInOrder : Prop :=
  ∀ (s : State) (j : Nat), s.Inv → s.ready = true →
    ∃ t, runProgram ({ instr := .bvIterStart, args := [] } ::
        List.replicate (j + 1) { instr := .bvIterNext, args := [] }) s = .next t ∧
      t.fault = none ∧ t.store = s.store ∧
      (j < s.nbits.toNat → t.result = bitWord (s.bit j) ∧ t.noneFlag = false) ∧
      (s.nbits.toNat ≤ j → t.result = 0#64 ∧ t.noneFlag = true)

/-- 41_bloom.md R174: no false negatives, over any sequence of inserts and queries. -/
def Obligations.InsertedDigestIsAlwaysFound : Prop :=
  ∀ (s : State) (before after : List Command) (d : Word), s.Inv → s.ready = true → s.mode = .filter →
    (∀ c, c ∈ before ++ after → ∃ x : Word,
      c = { instr := .bfInsert, args := [x] } ∨ c = { instr := .bfQuery, args := [x] }) →
    ∃ t, runProgram (before ++ { instr := .bfInsert, args := [d] } :: after ++
        [{ instr := .bfQuery, args := [d] }]) s = .next t ∧
      t.fault = none ∧ t.result = 1#64

/-- 41_bloom.md R175. -/
def Obligations.QueryAfterClearAnswersAbsent : Prop :=
  ∀ (s : State) (d : Word), s.Inv → s.ready = true → s.mode = .filter →
    ∃ t, runProgram [{ instr := .bfClear, args := [] }, { instr := .bfQuery, args := [d] }] s = .next t ∧
      t.fault = none ∧ t.result = 0#64

/-- 41_bloom.md R176: filters with equal W and NBITS_MAX, equally configured and fed, hold the same bits; with equal
K_MAX too, every later program is answered alike. -/
def Obligations.EqualFiltersEquallyFedAgree : Prop :=
  ∀ (s₁ s₂ : State) (m k : Word) (ds : List Word), s₁.Inv → s₂.Inv → s₁.ready = true → s₂.ready = true →
    s₁.params.width = s₂.params.width → s₁.params.nbitsMax = s₂.params.nbitsMax →
    1 ≤ m.toNat → m.toNat ≤ s₁.params.nbitsMax.toNat → 1 ≤ k.toNat →
    k.toNat ≤ s₁.params.kMax.toNat → k.toNat ≤ s₂.params.kMax.toNat →
    let prog := { instr := .bfConfig, args := [m, k] } ::
      ds.map fun d => ({ instr := .bfInsert, args := [d] } : Command)
    ∃ t₁ t₂, runProgram prog s₁ = .next t₁ ∧ runProgram prog s₂ = .next t₂ ∧
      t₁.nbits = t₂.nbits ∧ t₁.k = t₂.k ∧ t₁.mode = t₂.mode ∧
      (∀ w, w < t₁.nwords → t₁.word w = t₂.word w) ∧
      (s₁.params.kMax = s₂.params.kMax → ∀ later : List Command, ∃ u₁ u₂,
        runProgram later t₁ = .next u₁ ∧ runProgram later t₂ = .next u₂ ∧
        u₁.result = u₂.result ∧ u₁.status = u₂.status)

/-- 10_state.md R40: the words that are not live are never observable: states that differ in nothing else step to
states that differ in nothing else, whatever the event. The other state's store has to be canonical too (log 2). -/
def Obligations.DeadWordsAreUnobservable : Prop :=
  ∀ s t s' : State, s.Inv → Memory.wf t.store = true → s.sameButDead t → step s = .next s' →
    ∃ t', step t = .next t' ∧ s'.sameButDead t' ∧ Memory.wf t'.store = true

/-! Host accesses -/

/-- 10_state.md R30, 60_exceptions.md R221, R238: STATUS field by field, and the output levels. -/
def Obligations.StatusHoldsTheFieldsOfItsLayout : Prop :=
  ∀ s : State,
    (s.status.getLsbD 0 = s.busy) ∧ (s.status.getLsbD 1 = s.noneFlag) ∧
    (s.status.getLsbD 2 = s.fault.isSome) ∧ (s.status.getLsbD 3 = (s.mode == .filter)) ∧
    (s.status.getLsbD 4 = s.iterActive) ∧ s.status.extractLsb' 5 3 = 0#3 ∧ s.status.extractLsb' 16 48 = 0#48 ∧
    s.status.extractLsb' 8 8 =
      (match s.fault with
        | none              => 0x00#8
        | some .errIllegal  => 0x01#8
        | some .errRange    => 0x02#8
        | some .errCapacity => 0x03#8
        | some .errConfig   => 0x04#8
        | some .errMode     => 0x05#8
        | some .errIter     => 0x06#8
        | some .errBusy     => 0x07#8
        | some .errBus      => 0x08#8) ∧
    s.busyO = s.status.getLsbD 0 ∧ s.faultO = s.status.getLsbD 2

/-- 42_host.md R200, 20_memory.md R62: a read of each register while BUSY = 0, with no side effect; the event queue and
the reply are the model's own (logs 5, 13). -/
def Obligations.HostReadReturnsTheRegister : Prop :=
  ∀ (s : State) (rest : List Event), s.inFlight = none →
    let reads := fun (addr v : Word) =>
      step { s with pending := .read addr 8#64 :: rest } = .next { s with pending := rest, reply := some v }
    reads 0x00#64 s.cmd ∧ reads 0x08#64 s.arg0 ∧ reads 0x10#64 s.arg1 ∧ reads 0x18#64 s.result ∧
    reads 0x20#64 s.status ∧ reads 0x28#64 0#64 ∧ reads 0x30#64 s.nbits ∧
    reads 0x38#64 (BitVec.ofNat 64 (ceilDiv s.nbits.toNat s.W)) ∧ reads 0x40#64 s.capwords ∧ reads 0x48#64 s.k ∧
    reads 0x50#64 s.iterPos ∧ reads 0x58#64 s.faultInfo0 ∧ reads 0x60#64 s.faultInfo1 ∧
    reads 0x68#64 (BitVec.ofNat 64 s.W) ∧ reads 0x70#64 s.params.nbitsMax ∧ reads 0x78#64 s.params.kMax ∧
    reads 0x80#64 0x0000010042464D45#64

/-- 42_host.md R205: reads while BUSY = 1. The draw counter is the model's own (log 7); of the value drawn nothing is
said but STATUS.BUSY. -/
def Obligations.HostReadDuringACommand : Prop :=
  ∀ (s : State) (rest : List Event), s.inFlight ≠ none →
    let reads := fun (addr v : Word) =>
      step { s with pending := .read addr 8#64 :: rest } = .next { s with pending := rest, reply := some v }
    reads 0x00#64 s.cmd ∧ reads 0x08#64 s.arg0 ∧ reads 0x10#64 s.arg1 ∧
    reads 0x68#64 (BitVec.ofNat 64 s.W) ∧ reads 0x70#64 s.params.nbitsMax ∧ reads 0x78#64 s.params.kMax ∧
    reads 0x80#64 0x0000010042464D45#64 ∧
    (∀ addr : Word, addr ∈ [0x18#64, 0x20#64, 0x28#64, 0x30#64, 0x38#64, 0x40#64, 0x48#64, 0x50#64, 0x58#64, 0x60#64] →
      ∃ v : Word, step { s with pending := .read addr 8#64 :: rest } = .next { s with
          pending := rest, reply := some v, draws := s.draws + 1 } ∧
        (addr = 0x20#64 → v.getLsbD 0 = true))

/-- 60_exceptions.md R229, 20_memory.md R64, R65, R66: an illegal access in the window records ERR_BUS (once), is not
performed, and a read that faults returns 0. -/
def Obligations.IllegalAccessOnlyRaisesErrBus : Prop :=
  ∀ (s : State) (addr n v : Word) (rest : List Event), addr.toNat < 0x100 →
    let recorded := fun (info1 : Word) (r : Option Word) =>
      if s.fault = none then
        { s with pending := rest, reply := r, fault := some .errBus, faultInfo0 := addr, faultInfo1 := info1 }
      else { s with pending := rest, reply := r }
    (n ≠ 8#64 ∨ addr.toNat % 8 ≠ 0 ∨ 0x88 ≤ addr.toNat →
      step { s with pending := .read addr n :: rest } = .next (recorded n (some 0#64)) ∧
      step { s with pending := .write addr n v :: rest } = .next (recorded (n ||| 0x100#64) none)) ∧
    (n = 8#64 → addr ∈ [0x18#64, 0x20#64, 0x30#64, 0x38#64, 0x40#64, 0x48#64, 0x50#64, 0x58#64, 0x60#64, 0x68#64,
        0x70#64, 0x78#64, 0x80#64] →
      step { s with pending := .write addr n v :: rest } = .next (recorded 0x108#64 none))

/-- 42_host.md R206, 60_exceptions.md R228: a write to CMD, ARG0 or ARG1 while BUSY = 1 records ERR_BUSY and leaves the
command in flight as it is. -/
def Obligations.WriteDuringACommandOnlyRaisesErrBusy : Prop :=
  ∀ (s : State) (addr v : Word) (rest : List Event), s.inFlight ≠ none →
    addr = 0x00#64 ∨ addr = 0x08#64 ∨ addr = 0x10#64 →
    step { s with pending := .write addr 8#64 v :: rest } = .next (
      if s.fault = none then
        { s with pending := rest, reply := none, fault := some .errBusy, faultInfo0 := addr, faultInfo1 := 0x108#64 }
      else { s with pending := rest, reply := none })

/-- 42_host.md R201, R202, R207 with 30_encoding.md R96: operand writes, and a CMD write accepted with its operand
snapshot, or discarded while FAULT = 1. -/
def Obligations.IdleWritesStoreOperandsAndIssueCommands : Prop :=
  ∀ (s : State) (v : Word) (rest : List Event), s.inFlight = none →
    step { s with pending := .write 0x08#64 8#64 v :: rest } = .next { s with
      pending := rest, reply := none, arg0 := v } ∧
    step { s with pending := .write 0x10#64 8#64 v :: rest } = .next { s with
      pending := rest, reply := none, arg1 := v } ∧
    (s.fault = none → step { s with pending := .write 0x00#64 8#64 v :: rest } = .next { s with
      pending := rest, reply := none, cmd := v, inFlight := some { c := v, a0 := s.arg0, a1 := s.arg1 } }) ∧
    (s.fault ≠ none → step { s with pending := .write 0x00#64 8#64 v :: rest } = .next { s with
      pending := rest, reply := none })

/-- 20_memory.md R60: no path from the host bus into the bit storage: no access but a soft reset touches STORE, the
storage-control registers, RESULT or NONE; and an access outside the window leaves BFME alone (R65, log 12). -/
def Obligations.HostAccessNeverTouchesTheStorage : Prop :=
  ∀ (s t : State) (e : Event) (rest : List Event), e ≠ .engine → isResetEvent e = false → s.pending = e :: rest →
    step s = .next t →
    t.store = s.store ∧ t.nbits = s.nbits ∧ t.capwords = s.capwords ∧ t.k = s.k ∧ t.mode = s.mode ∧
    t.iterActive = s.iterActive ∧ t.iterPos = s.iterPos ∧ t.result = s.result ∧ t.noneFlag = s.noneFlag ∧
    t.params = s.params ∧ t.pos = s.pos ∧ t.pending = rest ∧ (s.inFlight ≠ none → t.inFlight = s.inFlight) ∧
    (∀ addr n v : Word, 0x100 ≤ addr.toNat → e = .read addr n ∨ e = .write addr n v →
      t = { s with pending := rest, reply := none })

/-- 60_exceptions.md R235: a host-access fault and the fault of the command in flight: either order, and the first is
the one recorded. -/
def Obligations.EitherFaultMayBeTheOneRecorded : Prop :=
  ∀ (s t : State) (code : FaultCode) (v : Word), s.fault = none → s.inFlight ≠ none →
    engineTurn s = .next t → t.fault = some code →
    (∃ u, steps 2 { s with pending := [.write 0x08#64 8#64 v, .engine] } = .next u ∧
      u.fault = some .errBusy ∧ u.faultInfo0 = 0x08#64 ∧ u.busy = false ∧ u.arg0 = s.arg0) ∧
    (∃ u, steps 2 { s with pending := [.engine, .write 0x08#64 8#64 v] } = .next u ∧
      u.fault = some code ∧ u.faultInfo0 = s.current.c ∧ u.busy = false ∧ u.arg0 = v)

/-- 70_reset_and_hazards.md R273: BUSY = 1 never lasts for ever: it falls before the events run out, or one step
after; the BUSY poll (30_encoding.md R102, `wait`) ends by reading BUSY = 0; and the run of a program ends (R271):
successfully when no command of it faults, else at the first fault, the rest discarded. That the engine moves when no
event is left, the place of its turn and the draw counter are the model's choice (logs 5, 7). -/
def Obligations.BusyAlwaysFalls : Prop :=
  (∀ s : State, ∃ (n : Nat) (t : State), n ≤ s.pending.length + 1 ∧
    steps n s = .next t ∧ t.busy = false) ∧
  (∀ (s : State) (polls : Nat) (rest : List Event), s.pending = Item.wait.events polls ++ rest →
    ∃ t u : State, engineTurn { s with pending := rest } = .next t ∧
      steps (polls + 2) s = .next u ∧ u.busy = false ∧ u.status.getLsbD 0 = false ∧
      u = { t with reply := some t.status, draws := u.draws }) ∧
  (∀ (s : State) (prog : List (Command × Nat)), s.ready = true → (∀ x, x ∈ prog → x.1.wf = true) →
    s.pending = programEvents prog →
    ∃ t : State, runProgram (prog.map Prod.fst) { s with pending := [] } = .next t ∧
      (t.fault = none → ∃ final : State, s.EndsWell final ∧
        final.fault = none ∧ final.busy = false ∧ final.SameFinal t) ∧
      (t.fault ≠ none → ∃ (done discarded : List Command) (c : Command) (v w final : State),
        prog.map Prod.fst = done ++ c :: discarded ∧
        runProgram done { s with pending := [] } = .next v ∧ v.fault = none ∧
        runCommand c v = .next w ∧ w.fault ≠ none ∧
        runEnd s = .unsuccessful final ∧ final.fault = w.fault ∧ final.SameFinal w))

/-- 30_encoding.md R101 with 70_reset_and_hazards.md R273: the bus accesses of an assembly command, however many polls
find it busy, end with BUSY = 0 read and in the state of the command's rule. The place of the
engine's turn and the draw counter are the model's (logs 5, 7). -/
def Obligations.ExpansionRunsTheCommandAtAnyLatency : Prop :=
  ∀ (c : Command) (s : State) (polls : Nat) (rest : List Event),
    c.wf = true → s.inFlight = none → s.fault = none → s.pending = commandEvents c polls ++ rest →
    ∃ t : State, runCommand c { s with pending := rest } = .next t ∧
      t.busy = false ∧ t.cmd = cmdValue c.instr ∧
      steps (commandEvents c polls).length s = .next { t with
        reply := some t.status, draws := t.draws + polls }

/-! Sizing -/

/-- 41_bloom.md R163: under its preconditions SIZE has a value, one only, with m ≥ 1, k ≥ 1 and
k ≥ ceil(log2(1 / error_rate)). -/
def Obligations.SizeGivesAtLeastOneBitAndOneProbe : Prop :=
  ∀ (capacity : Nat) (errorRate : ℝ), SizePre capacity errorRate →
    (∃ m k : Nat, IsSize capacity errorRate m k) ∧
    (∀ m k : Nat, IsSize capacity errorRate m k →
      1 ≤ m ∧ 1 ≤ k ∧ ⌈Real.logb 2 (1 / errorRate)⌉ ≤ (k : ℤ) ∧
      ∀ m' k' : Nat, IsSize capacity errorRate m' k' → m' = m ∧ k' = k)

/-- 30_encoding.md R102 with 41_bloom.md R163, R168: what `bf.create` emits is never refused by the engine: it
configures the filter SIZE asks for; and the assembler, its host evaluating SIZE exactly, emits exactly that, and
otherwise refuses. That a line's error rate is a quotient of two numbers is the model's choice (log 15). -/
def Obligations.CreatedFilterIsNeverRefused : Prop :=
  (∀ (host : AsmHost) (capacity : Nat) (rate : Rate) (x : ℝ) (item : Item), host.SizesExactly → rate.Denotes x →
    (assembleCreate host capacity rate = .ok item ↔
      ∃ c, item = .command c ∧ CreateEmits host.params capacity x c)) ∧
  ∀ (s : State) (capacity m k : Nat) (errorRate : ℝ) (c : Command), s.ready = true →
    IsSize capacity errorRate m k → CreateEmits s.params capacity errorRate c →
    ∃ t, runCommand c s = .next t ∧ t.fault = none ∧ t.mode = .filter ∧ t.nbits.toNat = m ∧ t.k.toNat = k
end

