-- ==== Sys2Proof/Laws/Memory.lean ====
section
/-! SUPPORT. What each operation on the bit storage does to every word and bit, and that each keeps the canonical form. -/

namespace Sys2Proof.Machine

theorem Width.bits_pos (w : Width) : 0 < w.bits := by cases w <;> decide

theorem Width.bits_le (w : Width) : w.bits ≤ 64 := by cases w <;> decide

theorem Params.W_pos (p : Params) : 0 < p.W := Width.bits_pos p.width

theorem Params.W_le (p : Params) : p.W ≤ 64 := Width.bits_le p.width

theorem State.W_pos (s : State) : 0 < s.W := Params.W_pos s.params

theorem State.W_le (s : State) : s.W ≤ 64 := Params.W_le s.params

/-! `ceilDiv` -/

theorem lt_ceilDiv {a b w : Nat} (hb : 0 < b) : w < ceilDiv a b ↔ w * b < a := by
  unfold ceilDiv
  rw [Nat.lt_iff_add_one_le, Nat.le_div_iff_mul_le hb, Nat.add_mul]
  omega

theorem ceilDiv_le_iff {a b n : Nat} (hb : 0 < b) : ceilDiv a b ≤ n ↔ a ≤ n * b := by
  rw [← Nat.not_lt, lt_ceilDiv hb]; omega

theorem ceilDiv_mono {a a' b : Nat} (hb : 0 < b) (h : a ≤ a') : ceilDiv a b ≤ ceilDiv a' b := by
  rw [ceilDiv_le_iff hb]
  exact Nat.le_trans h ((ceilDiv_le_iff hb).1 (Nat.le_refl _))

theorem ceilDiv_le_self {a b : Nat} (hb : 0 < b) : ceilDiv a b ≤ a := by
  rw [ceilDiv_le_iff hb]
  exact Nat.le_mul_of_pos_right a hb

@[simp] theorem ceilDiv_zero {b : Nat} (hb : 0 < b) : ceilDiv 0 b = 0 :=
  Nat.le_zero.1 (ceilDiv_le_self hb)

/-- The word of a position below the length is live. -/
theorem div_lt_ceilDiv {p n b : Nat} (hb : 0 < b) (h : p < n) : p / b < ceilDiv n b := by
  rw [lt_ceilDiv hb]
  exact Nat.lt_of_le_of_lt (Nat.div_mul_le_self p b) h

/-! Words of masks -/

theorem getLsbD_ones {W b : Nat} (hW : W ≤ 64) : (ones W).getLsbD b = decide (b < W) := by
  unfold ones
  rw [BitVec.getLsbD_ofNat, Nat.testBit_two_pow_sub_one]
  by_cases hb : b < 64
  · simp [hb]
  · simp [hb]; omega

theorem getLsbD_tailMask {W n b : Nat} (hW : W ≤ 64) (hpos : 0 < W) :
    (tailMask W n).getLsbD b = decide (b < if n % W = 0 then W else n % W) := by
  unfold tailMask
  split
  · exact getLsbD_ones hW
  · have hlt : n % W < 64 := Nat.lt_of_lt_of_le (Nat.mod_lt n hpos) hW
    have hmask : (1#64 <<< (n % W)) - 1#64 = ones (n % W) := by
      apply BitVec.eq_of_toNat_eq
      have h2 : (2:Nat) ^ (n % W) < 2 ^ 64 := Nat.pow_lt_pow_right (by decide) hlt
      have h1 : 1 ≤ (2:Nat) ^ (n % W) := Nat.one_le_two_pow
      unfold ones
      rw [BitVec.toNat_sub, BitVec.toNat_shiftLeft, Nat.shiftLeft_eq, BitVec.toNat_ofNat, BitVec.toNat_ofNat]
      simp only [Nat.one_mod_two_pow_eq_one.2 (by decide : 0 < 64), Nat.one_mul]
      rw [Nat.mod_eq_of_lt h2]
      omega
    rw [hmask, getLsbD_ones (Nat.le_of_lt hlt)]

/-- What the last live word keeps are the positions below the length. -/
theorem tail_lt_iff {W n w b : Nat} (hW : 0 < W) (hw : w + 1 = ceilDiv n W) :
    (b < if n % W = 0 then W else n % W) ↔ b < W ∧ w * W + b < n := by
  have hlo : w * W < n := (lt_ceilDiv hW).1 (by omega)
  have hhi : n ≤ (w + 1) * W := (ceilDiv_le_iff hW).1 (by omega)
  have hmod := Nat.mod_lt n hW
  have hdiv := Nat.div_add_mod n W
  rw [Nat.add_mul, Nat.one_mul] at hhi
  by_cases hn : n = w * W + W
  · have : n % W = 0 := by rw [hn, ← Nat.succ_mul, Nat.mul_mod_left]
    rw [if_pos this]
    omega
  · have hq : n / W = w := Nat.div_eq_of_lt_le (by omega) (by rw [Nat.add_mul]; omega)
    rw [hq, Nat.mul_comm] at hdiv
    have : n % W ≠ 0 := by omega
    rw [if_neg this]
    omega

/-- The tail mask of the last live word, bit by bit. -/
theorem getLsbD_tailMask_last {W n w : Nat} (hW : W ≤ 64) (hpos : 0 < W) (hw : w + 1 = ceilDiv n W) (b : Nat) :
    (tailMask W n).getLsbD b = (decide (b < W) && decide (w * W + b < n)) := by
  rw [getLsbD_tailMask hW hpos, ← Bool.decide_and, decide_eq_decide]
  exact tail_lt_iff hpos hw

namespace Memory

/-! The canonical form -/

theorem wf_cons {a : Nat} {x : Word} {m : Memory} :
    wf ((a, x) :: m) = true ↔ x ≠ 0#64 ∧ (∀ c ∈ m, a < c.1) ∧ wf m = true := by
  simp [wf, Bool.and_eq_true, List.all_eq_true, and_assoc]

theorem wf_append {l m : Memory} (hl : wf l = true) (hm : wf m = true)
    (h : ∀ c ∈ l, ∀ d ∈ m, c.1 < d.1) : wf (l ++ m) = true := by
  induction l with
  | nil => exact hm
  | cons c l ih =>
    obtain ⟨a, x⟩ := c
    rw [List.cons_append, wf_cons]
    rw [wf_cons] at hl
    refine ⟨hl.1, fun d hd => ?_, ih hl.2.2 fun c hc d hd => h c (List.mem_cons_of_mem _ hc) d hd⟩
    rcases List.mem_append.1 hd with hd | hd
    · exact hl.2.1 d hd
    · exact h (a, x) List.mem_cons_self d hd

theorem wf_cell (w : Nat) (v : Word) : wf (cell w v) = true := by
  unfold cell
  split
  · rfl
  · rename_i h; simp [wf, h]

theorem mem_cell {w : Nat} {v : Word} {c : Nat × Word} (h : c ∈ cell w v) : c = (w, v) := by
  unfold cell at h
  split at h
  · cases h
  · simpa using h

/-- A word listed nowhere reads 0. -/
theorem word_eq_zero {m : Memory} {w : Nat} (h : ∀ c ∈ m, c.1 ≠ w) : word m w = 0#64 := by
  induction m with
  | nil => rfl
  | cons c m ih =>
    obtain ⟨a, x⟩ := c
    unfold word
    rw [if_neg (h (a, x) List.mem_cons_self)]
    exact ih fun c hc => h c (List.mem_cons_of_mem _ hc)

/-- A word is read from the first of two stores that lists it. -/
theorem word_append {l m : Memory} {w : Nat} :
    word (l ++ m) w = if l.any (fun c => c.1 == w) then word l w else word m w := by
  induction l with
  | nil => rfl
  | cons c l ih =>
    obtain ⟨a, x⟩ := c
    by_cases ha : a = w
    · simp [word, ha]
    · simp [word, ha, ih]

theorem word_cell_append {m : Memory} {w w' : Nat} {v : Word} (h : ∀ c ∈ m, w < c.1) :
    word (cell w v ++ m) w' = if w' = w then v else word m w' := by
  unfold cell
  split
  · rename_i hv
    subst hv
    split
    · rename_i hw
      subst hw
      exact word_eq_zero fun c hc => Nat.ne_of_gt (h c hc)
    · rfl
  · simp only [List.singleton_append, word, eq_comm]

/-- Read after write: `Word(w) <- v` changes word w and no other. -/
theorem word_setWord {m : Memory} (hm : wf m = true) (w : Nat) (v : Word) (w' : Nat) :
    word (setWord m w v) w' = if w' = w then v else word m w' := by
  induction m with
  | nil => simpa [setWord] using word_cell_append (m := []) (w := w) (w' := w') (v := v) (by simp)
  | cons c m ih =>
    obtain ⟨a, x⟩ := c
    rw [wf_cons] at hm
    unfold setWord
    split
    · rename_i hlt
      refine word_cell_append fun c hc => ?_
      rcases List.mem_cons.1 hc with rfl | hc
      · exact hlt
      · exact Nat.lt_trans hlt (hm.2.1 c hc)
    · split
      · rename_i heq
        subst heq
        rw [word_cell_append hm.2.1]
        by_cases hw : w' = w
        · simp [hw]
        · simp [word, hw, Ne.symm hw]
      · rename_i hlt hne
        by_cases hw : w' = w
        · subst hw
          simp [word, Ne.symm hne, ih hm.2.2]
        · by_cases ha : a = w' <;> simp [word, hw, ha, ih hm.2.2]

theorem mem_setWord {m : Memory} {w : Nat} {v : Word} {c : Nat × Word} (h : c ∈ setWord m w v) :
    c ∈ m ∨ c = (w, v) := by
  induction m with
  | nil => exact .inr (mem_cell h)
  | cons d m ih =>
    obtain ⟨a, x⟩ := d
    unfold setWord at h
    split at h
    · rcases List.mem_append.1 h with h | h
      · exact .inr (mem_cell h)
      · exact .inl h
    · split at h
      · rcases List.mem_append.1 h with h | h
        · exact .inr (mem_cell h)
        · exact .inl (List.mem_cons_of_mem _ h)
      · rcases List.mem_cons.1 h with h | h
        · exact .inl (h ▸ List.mem_cons_self)
        · exact (ih h).imp_left (List.mem_cons_of_mem _)

theorem wf_setWord {m : Memory} (hm : wf m = true) (w : Nat) (v : Word) : wf (setWord m w v) = true := by
  induction m with
  | nil => exact wf_cell w v
  | cons c m ih =>
    obtain ⟨a, x⟩ := c
    have hm' := wf_cons.1 hm
    unfold setWord
    split
    · rename_i hlt
      refine wf_append (wf_cell w v) hm fun c hc d hd => ?_
      rw [mem_cell hc]
      rcases List.mem_cons.1 hd with rfl | hd
      · exact hlt
      · exact Nat.lt_trans hlt (hm'.2.1 d hd)
    · split
      · rename_i heq
        refine wf_append (wf_cell w v) hm'.2.2 fun c hc d hd => ?_
        rw [mem_cell hc, heq]
        exact hm'.2.1 d hd
      · rename_i hlt hne
        rw [wf_cons]
        refine ⟨hm'.1, fun c hc => ?_, ih hm'.2.2⟩
        rcases mem_setWord hc with hc | rfl
        · exact hm'.2.1 c hc
        · show a < w
          omega

/-! Passes over the live words -/

theorem mem_zeroWords {nw : Nat} {m : Memory} {c : Nat × Word} :
    c ∈ zeroWords nw m ↔ c ∈ m ∧ nw ≤ c.1 := by
  simp [zeroWords]

/-- Zeroing words 0 to nw - 1 leaves the others alone. -/
theorem word_zeroWords (nw : Nat) (m : Memory) (w : Nat) :
    word (zeroWords nw m) w = if w < nw then 0#64 else word m w := by
  induction m with
  | nil => simp [zeroWords, word]
  | cons c m ih =>
    obtain ⟨a, x⟩ := c
    unfold zeroWords at ih ⊢
    by_cases ha : nw ≤ a
    · rw [List.filter_cons_of_pos (by simpa using ha)]
      by_cases haw : a = w
      · subst haw; simp [word, Nat.not_lt.2 ha]
      · simp [word, haw, ih]
    · rw [List.filter_cons_of_neg (by simpa using ha), ih]
      by_cases haw : a = w
      · subst haw; simp [Nat.lt_of_not_le ha]
      · simp [word, haw]

theorem wf_filter {m : Memory} (hm : wf m = true) (q : Nat × Word → Bool) : wf (m.filter q) = true := by
  induction m with
  | nil => rfl
  | cons c m ih =>
    obtain ⟨a, x⟩ := c
    rw [wf_cons] at hm
    by_cases hq : q (a, x) = true
    · rw [List.filter_cons_of_pos hq, wf_cons]
      exact ⟨hm.1, fun c hc => hm.2.1 c (List.mem_filter.1 hc).1, ih hm.2.2⟩
    · rw [List.filter_cons_of_neg hq]
      exact ih hm.2.2

theorem wf_zeroWords {m : Memory} (hm : wf m = true) (nw : Nat) : wf (zeroWords nw m) = true :=
  wf_filter hm _

/-- The cells a pass over words 0 to nw - 1 lists. -/
theorem mem_pass {nw : Nat} {g : Nat → Word} {c : Nat × Word}
    (h : c ∈ (List.range nw).flatMap fun w => cell w (g w)) : c.1 < nw ∧ c = (c.1, g c.1) := by
  obtain ⟨w, hw, hc⟩ := List.mem_flatMap.1 h
  have := mem_cell hc
  subst this
  exact ⟨List.mem_range.1 hw, rfl⟩

theorem wf_pass (nw : Nat) (g : Nat → Word) :
    wf ((List.range nw).flatMap fun w => cell w (g w)) = true := by
  induction nw with
  | zero => rfl
  | succ n ih =>
    rw [List.range_succ, List.flatMap_append]
    refine wf_append ih (by simpa using wf_cell n (g n)) fun c hc d hd => ?_
    have hd' : d = (n, g n) := by
      simp only [List.flatMap_cons, List.flatMap_nil, List.append_nil] at hd
      exact mem_cell hd
    rw [hd']
    exact (mem_pass hc).1

theorem word_pass (nw : Nat) (g : Nat → Word) (w : Nat) :
    word ((List.range nw).flatMap fun w => cell w (g w)) w = if w < nw then g w else 0#64 := by
  induction nw with
  | zero => rfl
  | succ n ih =>
    rw [List.range_succ, List.flatMap_append, word_append]
    simp only [List.flatMap_cons, List.flatMap_nil, List.append_nil]
    have hlast := word_cell_append (m := []) (w := n) (w' := w) (v := g n) (by simp)
    rw [List.append_nil] at hlast
    by_cases hany : ((List.range n).flatMap fun w => cell w (g w)).any (fun c => c.1 == w) = true
    · rw [if_pos hany, ih]
      obtain ⟨c, hc, hcw⟩ := List.any_eq_true.1 hany
      have hlt : w < n := (beq_iff_eq.1 hcw) ▸ (mem_pass hc).1
      simp [hlt, Nat.lt_succ_of_lt hlt]
    · rw [if_neg hany, hlast]
      have hnone : word ((List.range n).flatMap fun w => cell w (g w)) w = 0#64 :=
        word_eq_zero fun c hc hcw => hany (List.any_eq_true.2 ⟨c, hc, beq_iff_eq.2 hcw⟩)
      rw [hnone] at ih
      by_cases hwn : w = n
      · simp [hwn]
      · by_cases hlt : w < n
        · rw [if_pos hlt] at ih
          simp [hwn, Nat.lt_succ_of_lt hlt, ← ih, word]
        · have : ¬ w < n + 1 := by omega
          simp [hwn, this, word]

/-- A pass over words 0 to nw - 1 maps each of them and leaves the others alone. -/
theorem word_mapWords (nw : Nat) (f : Word → Word) (m : Memory) (w : Nat) :
    word (mapWords nw f m) w = if w < nw then f (word m w) else word m w := by
  unfold mapWords
  rw [word_append]
  have hp := word_pass nw (fun w => f (word m w)) w
  split
  · rename_i hany
    obtain ⟨c, hc, hcw⟩ := List.any_eq_true.1 hany
    have hlt : w < nw := (beq_iff_eq.1 hcw) ▸ (mem_pass hc).1
    rw [hp, if_pos hlt, if_pos hlt]
  · rename_i hany
    rw [word_zeroWords]
    split
    · rename_i hlt
      have hnone := word_eq_zero (m := (List.range nw).flatMap fun w => cell w (f (word m w))) (w := w)
        fun c hc hcw => hany (List.any_eq_true.2 ⟨c, hc, beq_iff_eq.2 hcw⟩)
      rw [hnone, if_pos hlt] at hp
      exact hp
    · rfl

theorem wf_mapWords {m : Memory} (hm : wf m = true) (nw : Nat) (f : Word → Word) :
    wf (mapWords nw f m) = true :=
  wf_append (wf_pass nw _) (wf_zeroWords hm nw) fun _ hc _ hd =>
    Nat.lt_of_lt_of_le (mem_pass hc).1 (mem_zeroWords.1 hd).2

/-- Tail masking masks the last live word and leaves the others alone. -/
theorem word_maskTail {m : Memory} (hm : wf m = true) (W n w : Nat) :
    word (maskTail W n m) w =
      if w + 1 = ceilDiv n W then word m w &&& tailMask W n else word m w := by
  simp only [maskTail]
  split
  · rw [word_setWord hm]
    by_cases hw : w = ceilDiv n W - 1
    · have : w + 1 = ceilDiv n W := by omega
      rw [if_pos hw, if_pos this, hw]
    · have : ¬ w + 1 = ceilDiv n W := by omega
      simp [this, hw]
  · have : ¬ w + 1 = ceilDiv n W := by omega
    simp [this]

theorem wf_maskTail {m : Memory} (hm : wf m = true) (W n : Nat) : wf (maskTail W n m) = true := by
  simp only [maskTail]
  split
  · exact wf_setWord hm _ _
  · exact hm

theorem ones_and_tailMask {W n : Nat} (hW : W ≤ 64) (hpos : 0 < W) : ones W &&& tailMask W n = tailMask W n := by
  apply BitVec.eq_of_getLsbD_eq
  intro b _
  rw [BitVec.getLsbD_and, getLsbD_ones hW, getLsbD_tailMask hW hpos]
  have hmod := Nat.mod_lt n hpos
  by_cases h : b < W
  · simp [h]
  · have : ¬ b < if n % W = 0 then W else n % W := by split <;> omega
    simp [h, this]

/-- Filling: BV_FROM_ELEM's words (40_bitvector.md R112). -/
theorem word_fill {m : Memory} (hm : wf m = true) {W : Nat} (hW : W ≤ 64) (hpos : 0 < W) (n : Nat) (v : Bool) (w : Nat) :
    word (fill W n v m) w =
      if w < ceilDiv n W then
        (if v then (if w + 1 = ceilDiv n W then tailMask W n else ones W) else 0#64)
      else word m w := by
  unfold fill
  cases v with
  | false => simp [word_zeroWords]
  | true =>
    simp only [if_true]
    rw [word_maskTail (wf_mapWords hm _ _), word_mapWords]
    by_cases hw : w + 1 = ceilDiv n W
    · have : w < ceilDiv n W := by omega
      simp [hw, this, ones_and_tailMask hW hpos]
    · simp [hw]

theorem wf_fill {m : Memory} (hm : wf m = true) (W n : Nat) (v : Bool) : wf (fill W n v m) = true := by
  unfold fill
  split
  · exact wf_maskTail (wf_mapWords hm _ _) W n
  · exact wf_zeroWords hm _

/-! Bits -/

theorem getLsbD_withBit (x : Word) {b : Nat} (hb : b < 64) (v : Bool) (j : Nat) :
    (withBit x b v).getLsbD j = if j = b then v else x.getLsbD j := by
  by_cases hj : j < 64
  · have hshift : (1#64 <<< b).getLsbD j = decide (j = b) := by
      rw [BitVec.getLsbD_shiftLeft, BitVec.getLsbD_one]
      by_cases hjb : j = b
      · subst hjb; simp [hj]
      · by_cases hlt : j < b
        · simp [hlt, hjb]
        · have : j - b ≠ 0 := by omega
          simp [hlt, hjb, this]
    unfold withBit
    cases v with
    | true => rw [if_pos rfl, BitVec.getLsbD_or, hshift]; by_cases hjb : j = b <;> simp [hjb]
    | false =>
      rw [if_neg (by decide), BitVec.getLsbD_and, BitVec.getLsbD_not, hshift]
      by_cases hjb : j = b <;> simp [hjb, hj]
  · have h1 : ∀ y : Word, y.getLsbD j = false := fun y => BitVec.getLsbD_of_ge y j (by omega)
    have : ¬ j = b := by omega
    simp [h1, this]

/-- BitSet writes one word. -/
theorem word_setBit {m : Memory} (hm : wf m = true) (W p : Nat) (v : Bool) (w : Nat) :
    word (setBit W m p v) w = if w = p / W then withBit (word m w) (p % W) v else word m w := by
  unfold setBit
  rw [word_setWord hm]
  split
  · rename_i h; rw [h]
  · rfl

theorem wf_setBit {m : Memory} (hm : wf m = true) (W p : Nat) (v : Bool) : wf (setBit W m p v) = true :=
  wf_setWord hm _ _

/-- BitSet changes bit p and no other (00_scope.md R9). -/
theorem bit_setBit {m : Memory} (hm : wf m = true) {W : Nat} (hW : W ≤ 64) (hpos : 0 < W) (p : Nat) (v : Bool) (q : Nat) :
    bit W (setBit W m p v) q = if q = p then v else bit W m q := by
  unfold bit
  rw [word_setBit hm]
  have hlt : p % W < 64 := Nat.lt_of_lt_of_le (Nat.mod_lt p hpos) hW
  by_cases hq : q / W = p / W
  · rw [if_pos hq, getLsbD_withBit _ hlt]
    by_cases hmod : q % W = p % W
    · have : q = p := by rw [← Nat.div_add_mod q W, hq, hmod, Nat.div_add_mod]
      simp [this]
    · have : q ≠ p := fun h => hmod (h ▸ rfl)
      simp [hmod, this]
  · have : q ≠ p := fun h => hq (h ▸ rfl)
    simp [hq, this]

end Memory

end Sys2Proof.Machine
end

