-- ==== Sys2Proof/Laws/Bloom.lean ====
section
/-! SUPPORT. What the mapper and the probe combiner (41_bloom.md R165 to R167) can do. -/

namespace Sys2Proof.Machine

/-- The index in the digest's two halves. -/
theorem probeIndex_eq (m : Nat) (d : Word) (i : Nat) :
    probeIndex m d i = (d.toNat % 2 ^ 32 + d.toNat / 2 ^ 32 * i) % m := by
  unfold probeIndex
  simp only [BitVec.extractLsb'_toNat, Nat.shiftRight_eq_div_pow]
  have := d.isLt
  rw [Nat.mod_eq_of_lt (by omega : d.toNat / 2 ^ 32 < 2 ^ 32)]
  simp

/-- The index is a position of the filter. -/
theorem probeIndex_lt {m : Nat} (hm : 0 < m) (d : Word) (i : Nat) : probeIndex m d i < m := Nat.mod_lt _ hm

/-- All BF_INSERT's writes can do: keep the canonical form, leave the words that hold no probe, and set exactly the
first k probe bits. -/
theorem setProbes_spec {W m : Nat} {d : Word} (hW : W ≤ 64) (hpos : 0 < W) (k : Nat) {st : Memory}
    (hwf : Memory.wf st = true) :
    Memory.wf (setProbes W m d k st) = true ∧
    (∀ w, (∀ i, i < k → w ≠ probeIndex m d i / W) → Memory.word (setProbes W m d k st) w = Memory.word st w) ∧
    (∀ p, Memory.bit W (setProbes W m d k st) p = true ↔
      Memory.bit W st p = true ∨ ∃ i, i < k ∧ p = probeIndex m d i) := by
  induction k with
  | zero => exact ⟨hwf, fun _ _ => rfl, fun p => by simp [setProbes]⟩
  | succ k ih =>
    obtain ⟨h1, h2, h3⟩ := ih
    refine ⟨Memory.wf_setBit h1 _ _ _, fun w hw => ?_, fun p => ?_⟩
    · rw [setProbes, Memory.word_setBit h1, if_neg (hw k (Nat.lt_succ_self k)),
        h2 w fun i hi => hw i (Nat.lt_succ_of_lt hi)]
    · rw [setProbes, Memory.bit_setBit h1 hW hpos]
      split
      · rename_i hp
        exact ⟨fun _ => .inr ⟨k, Nat.lt_succ_self k, hp⟩, fun _ => rfl⟩
      · rename_i hp
        rw [h3]
        constructor
        · rintro (h | ⟨i, hi, rfl⟩)
          · exact .inl h
          · exact .inr ⟨i, Nat.lt_succ_of_lt hi, rfl⟩
        · rintro (h | ⟨i, hi, rfl⟩)
          · exact .inl h
          · rcases Nat.lt_succ_iff_lt_or_eq.1 hi with h | h
            · exact .inr ⟨i, h, rfl⟩
            · exact absurd (h ▸ rfl) hp

/-- BF_QUERY's answer is 1 exactly if every one of the first k probe bits is. -/
theorem allProbes_iff (W m : Nat) (d : Word) (st : Memory) (k : Nat) :
    allProbes W m d st k = true ↔ ∀ i, i < k → Memory.bit W st (probeIndex m d i) = true := by
  induction k with
  | zero => simp [allProbes]
  | succ k ih =>
    rw [allProbes, Bool.and_eq_true, ih]
    constructor
    · rintro ⟨h1, h2⟩ i hi
      rcases Nat.lt_succ_iff_lt_or_eq.1 hi with h | rfl
      · exact h1 i h
      · exact h2
    · exact fun h => ⟨fun i hi => h i (Nat.lt_succ_of_lt hi), h k (Nat.lt_succ_self k)⟩

end Sys2Proof.Machine
end

