-- ==== Sys2Proof/Laws/State.lean ====
section
/-! SUPPORT. What each update of the state leaves in each field: one lemma per field per update, true by rfl. -/

namespace Sys2Proof.Machine

namespace State

/-! `closeIter` -/

@[simp] theorem closeIter_params (s : State) : (s.closeIter).params = s.params := rfl
@[simp] theorem closeIter_store (s : State) : (s.closeIter).store = s.store := rfl
@[simp] theorem closeIter_nbits (s : State) : (s.closeIter).nbits = s.nbits := rfl
@[simp] theorem closeIter_capwords (s : State) : (s.closeIter).capwords = s.capwords := rfl
@[simp] theorem closeIter_k (s : State) : (s.closeIter).k = s.k := rfl
@[simp] theorem closeIter_mode (s : State) : (s.closeIter).mode = s.mode := rfl
@[simp] theorem closeIter_iterActive (s : State) : (s.closeIter).iterActive = false := rfl
@[simp] theorem closeIter_iterPos (s : State) : (s.closeIter).iterPos = 0#64 := rfl
@[simp] theorem closeIter_cmd (s : State) : (s.closeIter).cmd = s.cmd := rfl
@[simp] theorem closeIter_arg0 (s : State) : (s.closeIter).arg0 = s.arg0 := rfl
@[simp] theorem closeIter_arg1 (s : State) : (s.closeIter).arg1 = s.arg1 := rfl
@[simp] theorem closeIter_result (s : State) : (s.closeIter).result = s.result := rfl
@[simp] theorem closeIter_noneFlag (s : State) : (s.closeIter).noneFlag = s.noneFlag := rfl
@[simp] theorem closeIter_fault (s : State) : (s.closeIter).fault = s.fault := rfl
@[simp] theorem closeIter_faultInfo0 (s : State) : (s.closeIter).faultInfo0 = s.faultInfo0 := rfl
@[simp] theorem closeIter_faultInfo1 (s : State) : (s.closeIter).faultInfo1 = s.faultInfo1 := rfl
@[simp] theorem closeIter_inFlight (s : State) : (s.closeIter).inFlight = s.inFlight := rfl
@[simp] theorem closeIter_pos (s : State) : (s.closeIter).pos = s.pos := rfl
@[simp] theorem closeIter_pending (s : State) : (s.closeIter).pending = s.pending := rfl
@[simp] theorem closeIter_reply (s : State) : (s.closeIter).reply = s.reply := rfl
@[simp] theorem closeIter_draws (s : State) : (s.closeIter).draws = s.draws := rfl
@[simp] theorem closeIter_W (s : State) : (s.closeIter).W = s.W := rfl
@[simp] theorem closeIter_nwords (s : State) : (s.closeIter).nwords = s.nwords := rfl
@[simp] theorem closeIter_word (s : State) (w : Nat) : (s.closeIter).word w = s.word w := rfl
@[simp] theorem closeIter_bit (s : State) (p : Nat) : (s.closeIter).bit p = s.bit p := rfl

/-! `completed` -/

@[simp] theorem completed_params (s : State) (r : Word) (n : Bool) : (s.completed r n).params = s.params := rfl
@[simp] theorem completed_store (s : State) (r : Word) (n : Bool) : (s.completed r n).store = s.store := rfl
@[simp] theorem completed_nbits (s : State) (r : Word) (n : Bool) : (s.completed r n).nbits = s.nbits := rfl
@[simp] theorem completed_capwords (s : State) (r : Word) (n : Bool) : (s.completed r n).capwords = s.capwords := rfl
@[simp] theorem completed_k (s : State) (r : Word) (n : Bool) : (s.completed r n).k = s.k := rfl
@[simp] theorem completed_mode (s : State) (r : Word) (n : Bool) : (s.completed r n).mode = s.mode := rfl
@[simp] theorem completed_iterActive (s : State) (r : Word) (n : Bool) : (s.completed r n).iterActive = s.iterActive := rfl
@[simp] theorem completed_iterPos (s : State) (r : Word) (n : Bool) : (s.completed r n).iterPos = s.iterPos := rfl
@[simp] theorem completed_cmd (s : State) (r : Word) (n : Bool) : (s.completed r n).cmd = s.cmd := rfl
@[simp] theorem completed_arg0 (s : State) (r : Word) (n : Bool) : (s.completed r n).arg0 = s.arg0 := rfl
@[simp] theorem completed_arg1 (s : State) (r : Word) (n : Bool) : (s.completed r n).arg1 = s.arg1 := rfl
@[simp] theorem completed_result (s : State) (r : Word) (n : Bool) : (s.completed r n).result = r := rfl
@[simp] theorem completed_noneFlag (s : State) (r : Word) (n : Bool) : (s.completed r n).noneFlag = n := rfl
@[simp] theorem completed_fault (s : State) (r : Word) (n : Bool) : (s.completed r n).fault = s.fault := rfl
@[simp] theorem completed_faultInfo0 (s : State) (r : Word) (n : Bool) : (s.completed r n).faultInfo0 = s.faultInfo0 := rfl
@[simp] theorem completed_faultInfo1 (s : State) (r : Word) (n : Bool) : (s.completed r n).faultInfo1 = s.faultInfo1 := rfl
@[simp] theorem completed_inFlight (s : State) (r : Word) (n : Bool) : (s.completed r n).inFlight = none := rfl
@[simp] theorem completed_pos (s : State) (r : Word) (n : Bool) : (s.completed r n).pos = s.pos + 1 := rfl
@[simp] theorem completed_pending (s : State) (r : Word) (n : Bool) : (s.completed r n).pending = s.pending := rfl
@[simp] theorem completed_reply (s : State) (r : Word) (n : Bool) : (s.completed r n).reply = s.reply := rfl
@[simp] theorem completed_draws (s : State) (r : Word) (n : Bool) : (s.completed r n).draws = s.draws := rfl
@[simp] theorem completed_W (s : State) (r : Word) (n : Bool) : (s.completed r n).W = s.W := rfl
@[simp] theorem completed_nwords (s : State) (r : Word) (n : Bool) : (s.completed r n).nwords = s.nwords := rfl
@[simp] theorem completed_word (s : State) (r : Word) (n : Bool) (w : Nat) : (s.completed r n).word w = s.word w := rfl
@[simp] theorem completed_bit (s : State) (r : Word) (n : Bool) (p : Nat) : (s.completed r n).bit p = s.bit p := rfl

/-! `recordFault` -/

@[simp] theorem recordFault_params (s : State) (c : FaultCode) (x y : Word) : (s.recordFault c x y).params = s.params := rfl
@[simp] theorem recordFault_store (s : State) (c : FaultCode) (x y : Word) : (s.recordFault c x y).store = s.store := rfl
@[simp] theorem recordFault_nbits (s : State) (c : FaultCode) (x y : Word) : (s.recordFault c x y).nbits = s.nbits := rfl
@[simp] theorem recordFault_capwords (s : State) (c : FaultCode) (x y : Word) : (s.recordFault c x y).capwords = s.capwords := rfl
@[simp] theorem recordFault_k (s : State) (c : FaultCode) (x y : Word) : (s.recordFault c x y).k = s.k := rfl
@[simp] theorem recordFault_mode (s : State) (c : FaultCode) (x y : Word) : (s.recordFault c x y).mode = s.mode := rfl
@[simp] theorem recordFault_iterActive (s : State) (c : FaultCode) (x y : Word) : (s.recordFault c x y).iterActive = s.iterActive := rfl
@[simp] theorem recordFault_iterPos (s : State) (c : FaultCode) (x y : Word) : (s.recordFault c x y).iterPos = s.iterPos := rfl
@[simp] theorem recordFault_cmd (s : State) (c : FaultCode) (x y : Word) : (s.recordFault c x y).cmd = s.cmd := rfl
@[simp] theorem recordFault_arg0 (s : State) (c : FaultCode) (x y : Word) : (s.recordFault c x y).arg0 = s.arg0 := rfl
@[simp] theorem recordFault_arg1 (s : State) (c : FaultCode) (x y : Word) : (s.recordFault c x y).arg1 = s.arg1 := rfl
@[simp] theorem recordFault_result (s : State) (c : FaultCode) (x y : Word) : (s.recordFault c x y).result = s.result := rfl
@[simp] theorem recordFault_noneFlag (s : State) (c : FaultCode) (x y : Word) : (s.recordFault c x y).noneFlag = s.noneFlag := rfl
@[simp] theorem recordFault_fault (s : State) (c : FaultCode) (x y : Word) : (s.recordFault c x y).fault = if s.fault.isNone then some c else s.fault := rfl
@[simp] theorem recordFault_faultInfo0 (s : State) (c : FaultCode) (x y : Word) : (s.recordFault c x y).faultInfo0 = if s.fault.isNone then x else s.faultInfo0 := rfl
@[simp] theorem recordFault_faultInfo1 (s : State) (c : FaultCode) (x y : Word) : (s.recordFault c x y).faultInfo1 = if s.fault.isNone then y else s.faultInfo1 := rfl
@[simp] theorem recordFault_inFlight (s : State) (c : FaultCode) (x y : Word) : (s.recordFault c x y).inFlight = s.inFlight := rfl
@[simp] theorem recordFault_pos (s : State) (c : FaultCode) (x y : Word) : (s.recordFault c x y).pos = s.pos := rfl
@[simp] theorem recordFault_pending (s : State) (c : FaultCode) (x y : Word) : (s.recordFault c x y).pending = s.pending := rfl
@[simp] theorem recordFault_reply (s : State) (c : FaultCode) (x y : Word) : (s.recordFault c x y).reply = s.reply := rfl
@[simp] theorem recordFault_draws (s : State) (c : FaultCode) (x y : Word) : (s.recordFault c x y).draws = s.draws := rfl
@[simp] theorem recordFault_W (s : State) (c : FaultCode) (x y : Word) : (s.recordFault c x y).W = s.W := rfl
@[simp] theorem recordFault_nwords (s : State) (c : FaultCode) (x y : Word) : (s.recordFault c x y).nwords = s.nwords := rfl
@[simp] theorem recordFault_word (s : State) (c : FaultCode) (x y : Word) (w : Nat) : (s.recordFault c x y).word w = s.word w := rfl
@[simp] theorem recordFault_bit (s : State) (c : FaultCode) (x y : Word) (p : Nat) : (s.recordFault c x y).bit p = s.bit p := rfl

/-! `faulted` -/

@[simp] theorem faulted_params (s : State) (c : FaultCode) : (s.faulted c).params = s.params := rfl
@[simp] theorem faulted_store (s : State) (c : FaultCode) : (s.faulted c).store = s.store := rfl
@[simp] theorem faulted_nbits (s : State) (c : FaultCode) : (s.faulted c).nbits = s.nbits := rfl
@[simp] theorem faulted_capwords (s : State) (c : FaultCode) : (s.faulted c).capwords = s.capwords := rfl
@[simp] theorem faulted_k (s : State) (c : FaultCode) : (s.faulted c).k = s.k := rfl
@[simp] theorem faulted_mode (s : State) (c : FaultCode) : (s.faulted c).mode = s.mode := rfl
@[simp] theorem faulted_iterActive (s : State) (c : FaultCode) : (s.faulted c).iterActive = s.iterActive := rfl
@[simp] theorem faulted_iterPos (s : State) (c : FaultCode) : (s.faulted c).iterPos = s.iterPos := rfl
@[simp] theorem faulted_cmd (s : State) (c : FaultCode) : (s.faulted c).cmd = s.cmd := rfl
@[simp] theorem faulted_arg0 (s : State) (c : FaultCode) : (s.faulted c).arg0 = s.arg0 := rfl
@[simp] theorem faulted_arg1 (s : State) (c : FaultCode) : (s.faulted c).arg1 = s.arg1 := rfl
@[simp] theorem faulted_result (s : State) (c : FaultCode) : (s.faulted c).result = s.result := rfl
@[simp] theorem faulted_noneFlag (s : State) (c : FaultCode) : (s.faulted c).noneFlag = s.noneFlag := rfl
@[simp] theorem faulted_fault (s : State) (c : FaultCode) : (s.faulted c).fault = if s.fault.isNone then some c else s.fault := rfl
@[simp] theorem faulted_faultInfo0 (s : State) (c : FaultCode) : (s.faulted c).faultInfo0 = if s.fault.isNone then s.current.c else s.faultInfo0 := rfl
@[simp] theorem faulted_faultInfo1 (s : State) (c : FaultCode) : (s.faulted c).faultInfo1 = if s.fault.isNone then s.current.a0 else s.faultInfo1 := rfl
@[simp] theorem faulted_inFlight (s : State) (c : FaultCode) : (s.faulted c).inFlight = none := rfl
@[simp] theorem faulted_pos (s : State) (c : FaultCode) : (s.faulted c).pos = s.pos + 1 := rfl
@[simp] theorem faulted_pending (s : State) (c : FaultCode) : (s.faulted c).pending = s.pending := rfl
@[simp] theorem faulted_reply (s : State) (c : FaultCode) : (s.faulted c).reply = s.reply := rfl
@[simp] theorem faulted_draws (s : State) (c : FaultCode) : (s.faulted c).draws = s.draws := rfl
@[simp] theorem faulted_W (s : State) (c : FaultCode) : (s.faulted c).W = s.W := rfl
@[simp] theorem faulted_nwords (s : State) (c : FaultCode) : (s.faulted c).nwords = s.nwords := rfl
@[simp] theorem faulted_word (s : State) (c : FaultCode) (w : Nat) : (s.faulted c).word w = s.word w := rfl
@[simp] theorem faulted_bit (s : State) (c : FaultCode) (p : Nat) : (s.faulted c).bit p = s.bit p := rfl

/-! `replying` -/

@[simp] theorem replying_params (s : State) (v : Option Word) : (s.replying v).params = s.params := rfl
@[simp] theorem replying_store (s : State) (v : Option Word) : (s.replying v).store = s.store := rfl
@[simp] theorem replying_nbits (s : State) (v : Option Word) : (s.replying v).nbits = s.nbits := rfl
@[simp] theorem replying_capwords (s : State) (v : Option Word) : (s.replying v).capwords = s.capwords := rfl
@[simp] theorem replying_k (s : State) (v : Option Word) : (s.replying v).k = s.k := rfl
@[simp] theorem replying_mode (s : State) (v : Option Word) : (s.replying v).mode = s.mode := rfl
@[simp] theorem replying_iterActive (s : State) (v : Option Word) : (s.replying v).iterActive = s.iterActive := rfl
@[simp] theorem replying_iterPos (s : State) (v : Option Word) : (s.replying v).iterPos = s.iterPos := rfl
@[simp] theorem replying_cmd (s : State) (v : Option Word) : (s.replying v).cmd = s.cmd := rfl
@[simp] theorem replying_arg0 (s : State) (v : Option Word) : (s.replying v).arg0 = s.arg0 := rfl
@[simp] theorem replying_arg1 (s : State) (v : Option Word) : (s.replying v).arg1 = s.arg1 := rfl
@[simp] theorem replying_result (s : State) (v : Option Word) : (s.replying v).result = s.result := rfl
@[simp] theorem replying_noneFlag (s : State) (v : Option Word) : (s.replying v).noneFlag = s.noneFlag := rfl
@[simp] theorem replying_fault (s : State) (v : Option Word) : (s.replying v).fault = s.fault := rfl
@[simp] theorem replying_faultInfo0 (s : State) (v : Option Word) : (s.replying v).faultInfo0 = s.faultInfo0 := rfl
@[simp] theorem replying_faultInfo1 (s : State) (v : Option Word) : (s.replying v).faultInfo1 = s.faultInfo1 := rfl
@[simp] theorem replying_inFlight (s : State) (v : Option Word) : (s.replying v).inFlight = s.inFlight := rfl
@[simp] theorem replying_pos (s : State) (v : Option Word) : (s.replying v).pos = s.pos := rfl
@[simp] theorem replying_pending (s : State) (v : Option Word) : (s.replying v).pending = s.pending := rfl
@[simp] theorem replying_reply (s : State) (v : Option Word) : (s.replying v).reply = v := rfl
@[simp] theorem replying_draws (s : State) (v : Option Word) : (s.replying v).draws = s.draws := rfl
@[simp] theorem replying_W (s : State) (v : Option Word) : (s.replying v).W = s.W := rfl
@[simp] theorem replying_nwords (s : State) (v : Option Word) : (s.replying v).nwords = s.nwords := rfl
@[simp] theorem replying_word (s : State) (v : Option Word) (w : Nat) : (s.replying v).word w = s.word w := rfl
@[simp] theorem replying_bit (s : State) (v : Option Word) (p : Nat) : (s.replying v).bit p = s.bit p := rfl

/-! `accepted` -/

@[simp] theorem accepted_params (s : State) (c : Word) : (s.accepted c).params = s.params := rfl
@[simp] theorem accepted_store (s : State) (c : Word) : (s.accepted c).store = s.store := rfl
@[simp] theorem accepted_nbits (s : State) (c : Word) : (s.accepted c).nbits = s.nbits := rfl
@[simp] theorem accepted_capwords (s : State) (c : Word) : (s.accepted c).capwords = s.capwords := rfl
@[simp] theorem accepted_k (s : State) (c : Word) : (s.accepted c).k = s.k := rfl
@[simp] theorem accepted_mode (s : State) (c : Word) : (s.accepted c).mode = s.mode := rfl
@[simp] theorem accepted_iterActive (s : State) (c : Word) : (s.accepted c).iterActive = s.iterActive := rfl
@[simp] theorem accepted_iterPos (s : State) (c : Word) : (s.accepted c).iterPos = s.iterPos := rfl
@[simp] theorem accepted_cmd (s : State) (c : Word) : (s.accepted c).cmd = c := rfl
@[simp] theorem accepted_arg0 (s : State) (c : Word) : (s.accepted c).arg0 = s.arg0 := rfl
@[simp] theorem accepted_arg1 (s : State) (c : Word) : (s.accepted c).arg1 = s.arg1 := rfl
@[simp] theorem accepted_result (s : State) (c : Word) : (s.accepted c).result = s.result := rfl
@[simp] theorem accepted_noneFlag (s : State) (c : Word) : (s.accepted c).noneFlag = s.noneFlag := rfl
@[simp] theorem accepted_fault (s : State) (c : Word) : (s.accepted c).fault = s.fault := rfl
@[simp] theorem accepted_faultInfo0 (s : State) (c : Word) : (s.accepted c).faultInfo0 = s.faultInfo0 := rfl
@[simp] theorem accepted_faultInfo1 (s : State) (c : Word) : (s.accepted c).faultInfo1 = s.faultInfo1 := rfl
@[simp] theorem accepted_inFlight (s : State) (c : Word) : (s.accepted c).inFlight = some { c := c, a0 := s.arg0, a1 := s.arg1 } := rfl
@[simp] theorem accepted_pos (s : State) (c : Word) : (s.accepted c).pos = s.pos := rfl
@[simp] theorem accepted_pending (s : State) (c : Word) : (s.accepted c).pending = s.pending := rfl
@[simp] theorem accepted_reply (s : State) (c : Word) : (s.accepted c).reply = s.reply := rfl
@[simp] theorem accepted_draws (s : State) (c : Word) : (s.accepted c).draws = s.draws := rfl
@[simp] theorem accepted_W (s : State) (c : Word) : (s.accepted c).W = s.W := rfl
@[simp] theorem accepted_nwords (s : State) (c : Word) : (s.accepted c).nwords = s.nwords := rfl
@[simp] theorem accepted_word (s : State) (c : Word) (w : Nat) : (s.accepted c).word w = s.word w := rfl
@[simp] theorem accepted_bit (s : State) (c : Word) (p : Nat) : (s.accepted c).bit p = s.bit p := rfl

/-! `afterReset` -/

@[simp] theorem afterReset_params (s : State) : s.afterReset.params = s.params := rfl
@[simp] theorem afterReset_store (s : State) : s.afterReset.store = s.store := rfl
@[simp] theorem afterReset_nbits (s : State) : s.afterReset.nbits = 0#64 := rfl
@[simp] theorem afterReset_capwords (s : State) : s.afterReset.capwords = 0#64 := rfl
@[simp] theorem afterReset_k (s : State) : s.afterReset.k = 0#64 := rfl
@[simp] theorem afterReset_mode (s : State) : s.afterReset.mode = .vector := rfl
@[simp] theorem afterReset_iterActive (s : State) : s.afterReset.iterActive = false := rfl
@[simp] theorem afterReset_iterPos (s : State) : s.afterReset.iterPos = 0#64 := rfl
@[simp] theorem afterReset_cmd (s : State) : s.afterReset.cmd = 0#64 := rfl
@[simp] theorem afterReset_arg0 (s : State) : s.afterReset.arg0 = 0#64 := rfl
@[simp] theorem afterReset_arg1 (s : State) : s.afterReset.arg1 = 0#64 := rfl
@[simp] theorem afterReset_result (s : State) : s.afterReset.result = 0#64 := rfl
@[simp] theorem afterReset_noneFlag (s : State) : s.afterReset.noneFlag = false := rfl
@[simp] theorem afterReset_fault (s : State) : s.afterReset.fault = none := rfl
@[simp] theorem afterReset_faultInfo0 (s : State) : s.afterReset.faultInfo0 = 0#64 := rfl
@[simp] theorem afterReset_faultInfo1 (s : State) : s.afterReset.faultInfo1 = 0#64 := rfl
@[simp] theorem afterReset_inFlight (s : State) : s.afterReset.inFlight = none := rfl
@[simp] theorem afterReset_pos (s : State) : s.afterReset.pos = s.pos := rfl
@[simp] theorem afterReset_pending (s : State) : s.afterReset.pending = s.pending := rfl
@[simp] theorem afterReset_reply (s : State) : s.afterReset.reply = none := rfl
@[simp] theorem afterReset_draws (s : State) : s.afterReset.draws = s.draws := rfl

/-! Operands -/

theorem current_of_inFlight {s : State} {f : InFlight} (h : s.inFlight = some f) : s.current = f := by
  simp [current, h]

theorem a0_of_inFlight {s : State} {f : InFlight} (h : s.inFlight = some f) : s.a0 = f.a0 := by
  simp [a0, current_of_inFlight h]

theorem a1_of_inFlight {s : State} {f : InFlight} (h : s.inFlight = some f) : s.a1 = f.a1 := by
  simp [a1, current_of_inFlight h]

@[simp] theorem accepted_a0 (s : State) (c : Word) : (s.accepted c).a0 = s.arg0 := rfl
@[simp] theorem accepted_a1 (s : State) (c : Word) : (s.accepted c).a1 = s.arg1 := rfl

end State

end Sys2Proof.Machine
end

