-- ==== Sys2Proof/Laws/Ops.lean ====
section
/-! SUPPORT. What the shared operations of the meanings, and exec as a whole, can answer. -/

namespace Sys2Proof.Machine

/-- The mode check either lets the command's own rule answer or raises ERR_MODE. -/
theorem inLegalMode_cases (i : Instr) (s : State) (body : Result) :
    (legalInMode i s.mode = true ∧ inLegalMode i s body = body) ∨
    (legalInMode i s.mode = false ∧ inLegalMode i s body = .next (s.faulted .errMode)) := by
  unfold inLegalMode raiseFault
  cases h : legalInMode i s.mode <;> simp

theorem inLegalMode_of_legal {i : Instr} {s : State} (h : legalInMode i s.mode = true) (body : Result) :
    inLegalMode i s body = body := by
  simp [inLegalMode, h]

theorem inLegalMode_of_illegal {i : Instr} {s : State} (h : legalInMode i s.mode = false) (body : Result) :
    inLegalMode i s body = .next (s.faulted .errMode) := by
  simp [inLegalMode, h, raiseFault]

/-- Fault entry of a command, as the statements put it. -/
theorem State.faulted_eq_faultEntry (s : State) (code : FaultCode) : s.faulted code = s.faultEntry code := by
  unfold State.faulted State.recordFault State.faultEntry
  cases h : s.fault <;> simp

/-- The part of the state a command may change before it completes: STORE and the storage-control registers
(10_state.md R20 (b)). -/
def State.sameOutside (s u : State) : Prop :=
  u = { s with store := u.store, nbits := u.nbits, capwords := u.capwords, k := u.k, mode := u.mode,
               iterActive := u.iterActive, iterPos := u.iterPos }

/-- All a command can do: raise one fault with no other effect, or change STORE and the storage-control registers only
and complete. -/
theorem exec_cases (i : Instr) (s : State) :
    (∃ code, exec i s = .next (s.faulted code)) ∨
    (∃ u r n, exec i s = .next (State.completed u r n) ∧ s.sameOutside u) := by
  cases i <;>
    simp only [exec, execBvNew, execBvFromElem, execBvLen, execBvIsEmpty, execBvGet, execBvSet, execBvPush,
      execBvClear, execBvSetAll, execBvNegate, execBvReserve, execBvReadWord, execBvIterStart, execBvIterNext,
      execBfConfig, execBfInsert, execBfQuery, execBfClear, execBfIndex, inLegalMode, raiseFault, complete] <;>
    repeat' split
  all_goals first
    | exact .inl ⟨_, rfl⟩
    | exact .inr ⟨_, _, _, rfl, rfl⟩

/-- A command always answers a next state. -/
theorem exec_next (i : Instr) (s : State) : ∃ t, exec i s = .next t := by
  rcases exec_cases i s with ⟨code, h⟩ | ⟨u, r, n, h, -⟩ <;> exact ⟨_, h⟩

end Sys2Proof.Machine
end

