-- ==== Sys2Proof/Laws/PerInstr.lean ====
section
/-! SUPPORT. Laws about every command as syntax, one lemma per constructor. -/

namespace Sys2Proof.Laws.DecodesBack

/-- The CMD value of the command decodes to the command (30_encoding.md R94). -/
def Statement (i : Instr) : Prop := decode (cmdValue i) = .ok i

theorem bvNew : Statement .bvNew := rfl
theorem bvFromElem (v : Bool) : Statement (.bvFromElem v) := by cases v <;> rfl
theorem bvLen : Statement .bvLen := rfl
theorem bvIsEmpty : Statement .bvIsEmpty := rfl
theorem bvGet : Statement .bvGet := rfl
theorem bvSet (v : Bool) : Statement (.bvSet v) := by cases v <;> rfl
theorem bvPush (v : Bool) : Statement (.bvPush v) := by cases v <;> rfl
theorem bvClear : Statement .bvClear := rfl
theorem bvSetAll : Statement .bvSetAll := rfl
theorem bvNegate : Statement .bvNegate := rfl
theorem bvReserve : Statement .bvReserve := rfl
theorem bvReadWord : Statement .bvReadWord := rfl
theorem bvIterStart : Statement .bvIterStart := rfl
theorem bvIterNext : Statement .bvIterNext := rfl
theorem bfConfig : Statement .bfConfig := rfl
theorem bfInsert : Statement .bfInsert := rfl
theorem bfQuery : Statement .bfQuery := rfl
theorem bfClear : Statement .bfClear := rfl
theorem bfIndex : Statement .bfIndex := rfl

end Sys2Proof.Laws.DecodesBack
end

