-- ==== Sys2Proof/Laws/Run.lean ====
section
/-! SUPPORT. What the engine's turn, the host's writes while idle, and runs of commands can do. -/

namespace Sys2Proof.Machine

/-! The engine's turn -/

theorem State.busy_eq_false {s : State} : s.busy = false ↔ s.inFlight = none := by
  unfold State.busy
  cases s.inFlight <;> simp

theorem State.ready_iff {s : State} : s.ready = true ↔ s.inFlight = none ∧ s.fault = none := by
  unfold State.ready State.busy
  cases s.inFlight <;> cases s.fault <;> simp

/-- All the engine's turn can do: keep the state when no command is in flight, raise ERR_ILLEGAL, or run the decoded
command. -/
theorem engineTurn_cases (s : State) :
    (s.inFlight = none ∧ engineTurn s = .next s) ∨
    ∃ f, s.inFlight = some f ∧
      ((∃ why, decode f.c = .illegal why ∧ engineTurn s = .next (s.faulted .errIllegal)) ∨
       ∃ i, decode f.c = .ok i ∧ engineTurn s = exec i s) := by
  cases hf : s.inFlight with
  | none => exact .inl ⟨rfl, by simp [engineTurn, State.fetch, hf]⟩
  | some f =>
    refine .inr ⟨f, rfl, ?_⟩
    cases hd : decode f.c with
    | ok i => exact .inr ⟨i, rfl, by simp [engineTurn, State.fetch, hf, hd]⟩
    | illegal why => exact .inl ⟨why, rfl, by simp [engineTurn, State.fetch, hf, hd, raiseFault]⟩

/-- The engine's turn always answers a next state. -/
theorem engineTurn_next (s : State) : ∃ t, engineTurn s = .next t := by
  rcases engineTurn_cases s with ⟨-, h⟩ | ⟨f, -, ⟨why, -, h⟩ | ⟨i, -, h⟩⟩
  · exact ⟨_, h⟩
  · exact ⟨_, h⟩
  · rw [h]; exact exec_next i s

/-- The engine's turn ends the command in flight and leaves the events to come. -/
theorem engineTurn_idle {s t : State} (h : engineTurn s = .next t) : t.inFlight = none ∧ t.pending = s.pending := by
  rcases engineTurn_cases s with ⟨hn, h'⟩ | ⟨f, -, ⟨why, -, h'⟩ | ⟨i, -, h'⟩⟩
  · rw [h'] at h
    cases h
    exact ⟨hn, rfl⟩
  · rw [h'] at h
    cases h
    exact ⟨rfl, by simp⟩
  · rcases exec_cases i s with ⟨code, he⟩ | ⟨u, r, n, he, hu⟩
    · rw [h', he] at h
      cases h
      exact ⟨rfl, by simp⟩
    · rw [h', he] at h
      cases h
      exact ⟨rfl, by rw [hu]; rfl⟩

/-! Steps -/

theorem step_nil {s : State} (h : s.pending = []) : step s = engineTurn s := by simp [step, h]

theorem step_cons {s : State} {e : Event} {rest : List Event} (h : s.pending = e :: rest) :
    step s = handleEvent e { s with pending := rest } := by simp [step, h]

theorem steps_succ {n : Nat} {s t : State} (h : step s = .next t) : steps (n + 1) s = steps n t := by
  rw [steps, h]

/-- A host access leaves the events to come. -/
theorem hostRead_pending (s : State) (addr n : Word) : (s.hostRead addr n).pending = s.pending := by
  unfold State.hostRead
  repeat' split
  all_goals simp

theorem hostWrite_pending (s : State) (addr n v : Word) : (s.hostWrite addr n v).pending = s.pending := by
  unfold State.hostWrite State.writeReg State.writeCmd State.writeCtrl State.busWriteFault State.busyWriteFault
  repeat' split
  all_goals simp

/-- An event always answers a next state, and leaves the events after it. -/
theorem handleEvent_next (e : Event) (s : State) : ∃ t, handleEvent e s = .next t ∧ t.pending = s.pending := by
  cases e with
  | read addr n => exact ⟨_, rfl, hostRead_pending s addr n⟩
  | write addr n v => exact ⟨_, rfl, hostWrite_pending s addr n v⟩
  | rst => exact ⟨_, rfl, by simp⟩
  | engine =>
    obtain ⟨t, h⟩ := engineTurn_next s
    exact ⟨t, h, (engineTurn_idle h).2⟩

/-- A step always answers a next state, and takes the oldest event. -/
theorem step_next (s : State) : ∃ t, step s = .next t ∧ t.pending = s.pending.tail := by
  cases h : s.pending with
  | nil =>
    obtain ⟨t, ht⟩ := engineTurn_next s
    exact ⟨t, by rw [step_nil h, ht], by rw [(engineTurn_idle ht).2, h]; rfl⟩
  | cons e rest =>
    rw [step_cons h]
    exact handleEvent_next e { s with pending := rest }

/-- With no event left and the engine idle, nothing ever changes (60_exceptions.md R245). -/
theorem steps_idle {s : State} (hp : s.pending = []) (h : s.inFlight = none) (n : Nat) : steps n s = .next s := by
  have hs : step s = .next s := by rw [step_nil hp]; simp [engineTurn, State.fetch, h]
  induction n with
  | zero => rfl
  | succ n ih => rw [steps_succ hs, ih]

/-! Runs of commands -/

/-- The CMD value of every command decodes to the command. -/
theorem decode_cmdValue (i : Instr) : decode (cmdValue i) = .ok i := by
  cases i
  · exact Laws.DecodesBack.bvNew
  · exact Laws.DecodesBack.bvFromElem _
  · exact Laws.DecodesBack.bvLen
  · exact Laws.DecodesBack.bvIsEmpty
  · exact Laws.DecodesBack.bvGet
  · exact Laws.DecodesBack.bvSet _
  · exact Laws.DecodesBack.bvPush _
  · exact Laws.DecodesBack.bvClear
  · exact Laws.DecodesBack.bvSetAll
  · exact Laws.DecodesBack.bvNegate
  · exact Laws.DecodesBack.bvReserve
  · exact Laws.DecodesBack.bvReadWord
  · exact Laws.DecodesBack.bvIterStart
  · exact Laws.DecodesBack.bvIterNext
  · exact Laws.DecodesBack.bfConfig
  · exact Laws.DecodesBack.bfInsert
  · exact Laws.DecodesBack.bfQuery
  · exact Laws.DecodesBack.bfClear
  · exact Laws.DecodesBack.bfIndex

/-- The state in which the command's CMD write has just been accepted, its operands written before. -/
def State.issued (c : Command) (s : State) : State :=
  { s with
    cmd := cmdValue c.instr, reply := none
    arg0 := c.args.getD 0 s.arg0, arg1 := c.args.getD 1 s.arg1
    inFlight := some { c := cmdValue c.instr, a0 := c.args.getD 0 s.arg0, a1 := c.args.getD 1 s.arg1 } }

theorem hostWrite_arg0 {s : State} (h : s.inFlight = none) (v : Word) :
    s.hostWrite 0x08#64 8#64 v = { s with arg0 := v, reply := none } := by
  show State.replying (if s.busy then _ else _) none = _
  simp [State.busy, h, State.replying]

theorem hostWrite_arg1 {s : State} (h : s.inFlight = none) (v : Word) :
    s.hostWrite 0x10#64 8#64 v = { s with arg1 := v, reply := none } := by
  show State.replying (if s.busy then _ else _) none = _
  simp [State.busy, h, State.replying]

theorem hostWrite_cmd {s : State} (h : s.inFlight = none) (hf : s.fault = none) (v : Word) :
    s.hostWrite 0x00#64 8#64 v =
      { s with cmd := v, reply := none, inFlight := some { c := v, a0 := s.arg0, a1 := s.arg1 } } := by
  show State.replying (if s.busy then _ else if s.fault.isSome then _ else _) none = _
  simp [State.busy, h, hf, State.replying, State.accepted]

/-- The host's writes for a well-formed command, the engine idle and no fault recorded, issue it. -/
theorem hostWrites_issue {c : Command} {s : State} (hwf : c.wf = true) (h : s.inFlight = none) (hf : s.fault = none) :
    (writeArgs c s).hostWrite 0x00#64 8#64 (cmdValue c.instr) = s.issued c := by
  obtain ⟨i, args⟩ := c
  have hlen : args.length = i.arity := by simpa [Command.wf] using hwf
  have h2 : i.arity ≤ 2 := by cases i <;> simp [Instr.arity]
  match args, hlen with
  | [], _ => rw [writeArgs, hostWrite_cmd h hf]; rfl
  | [a], _ =>
    simp only [writeArgs]
    rw [hostWrite_arg0 h, hostWrite_cmd (by exact h) (by exact hf)]
    rfl
  | [a, b], _ =>
    simp only [writeArgs]
    rw [hostWrite_arg0 h, hostWrite_arg1 (by exact h), hostWrite_cmd (by exact h) (by exact hf)]
    rfl
  | _ :: _ :: _ :: _, hl => simp at hl; omega

/-- A command run from a ready state is its meaning on the state that issues it. -/
theorem runCommand_eq {c : Command} {s : State} (hwf : c.wf = true) (h : s.inFlight = none) (hf : s.fault = none) :
    runCommand c s = exec c.instr (s.issued c) := by
  rw [runCommand, hostWrites_issue hwf h hf]
  simp [engineTurn, State.fetch, State.issued, decode_cmdValue]

theorem runProgram_append (l r : List Command) (s : State) :
    runProgram (l ++ r) s =
      match runProgram l s with
      | .next t    => runProgram r t
      | .fault x   => .fault x
      | .refused x => .refused x := by
  induction l generalizing s with
  | nil => rfl
  | cons c l ih =>
    simp only [List.cons_append, runProgram]
    cases runCommand c s <;> simp [ih]

/-! Polls -/

/-- A poll that finds the engine busy takes a draw and changes nothing else; it reads BUSY = 1. -/
theorem step_poll_busy {s : State} {rest : List Event} (h : s.inFlight ≠ none) (hp : s.pending = pollRead :: rest) :
    step s = .next { s with
      pending := rest, reply := some (Config.freeRead s.draws ||| 1#64), draws := s.draws + 1 } := by
  have hb : s.busy = true := eq_true_of_ne_false (mt State.busy_eq_false.1 h)
  rw [step_cons hp]
  show Host.Outcome.next (if (s.busy && true) = true then _ else _) = _
  rw [hb]; rfl

/-- A poll that finds the engine idle reads STATUS. -/
theorem step_poll_idle {s : State} {rest : List Event} (h : s.inFlight = none) (hp : s.pending = pollRead :: rest) :
    step s = .next { s with pending := rest, reply := some s.status } := by
  rw [step_cons hp]
  show Host.Outcome.next (if (s.busy && true) = true then _ else _) = _
  rw [State.busy_eq_false.2 h]; rfl

/-- STATUS[0] is BUSY (10_state.md R30). -/
theorem State.status_bit_zero (s : State) : s.status.getLsbD 0 = s.busy := by
  simp only [State.status, BitVec.getLsbD_ofNat, Nat.testBit_zero]
  cases s.busy <;> simp <;> omega

/-! The end of a run -/

/-- While no fault is recorded and a command is still to be issued or waited for, a run goes on with the next event. -/
theorem runEndFrom_cons {s t : State} {e : Event} {rest : List Event} {observed : Bool} (hf : s.fault = none)
    (hgo : observed = false ∨ (e :: rest).any Event.issues = true) (h : step s = .next t) :
    runEndFrom (e :: rest) observed s = runEndFrom rest (observedNext observed e t) t := by
  rw [runEndFrom, hf, h]
  rcases hgo with rfl | hi
  · rfl
  · simp [hi]

/-- A run ends unsuccessfully at the first fault. -/
theorem runEndFrom_fault {s : State} (es : List Event) (observed : Bool) (hf : s.fault ≠ none) :
    runEndFrom es observed s = .unsuccessful s := by
  have h : s.fault.isSome = true := Option.isSome_iff_ne_none.2 hf
  cases es <;> simp [runEndFrom, h]

/-- A run ends successfully where nothing is left to issue and BUSY = 0 has been observed. -/
theorem runEndFrom_done {s : State} (es : List Event) (hf : s.fault = none) (hi : es.any Event.issues = false) :
    runEndFrom es true s = .successful s := by
  cases es <;> simp [runEndFrom, hf, hi]

/-- No state of the first `n` from `s` has FAULT = 1. -/
def NoFaultBefore (n : Nat) (s : State) : Prop := ∀ m, m < n → ∀ u, steps m s = .next u → u.fault = none

theorem noFaultBefore_succ {n : Nat} {s t : State} (h : step s = .next t) (hf : s.fault = none)
    (hn : NoFaultBefore n t) : NoFaultBefore (n + 1) s := by
  intro m hm u hu
  cases m with
  | zero => cases hu; exact hf
  | succ m => exact hn m (by omega) u (by rw [← steps_succ h, hu])

/-- What the end of a run says of its steps (R271): a successful end is a state they reach with no fault up to it, an
unsuccessful one is the first with FAULT = 1, and a run is unfinished only if no step ever reaches a fault. -/
def RunEnd.IsEndFrom (s : State) : RunEnd → Prop
  | .successful t   => ∃ n, steps n s = .next t ∧ t.fault = none ∧ NoFaultBefore n s
  | .unsuccessful t => ∃ n, steps n s = .next t ∧ t.fault ≠ none ∧ NoFaultBefore n s
  | .unfinished t   => t.inFlight = none ∧ ∃ n, steps n s = .next t ∧ ∀ m u, steps m s = .next u → u.fault = none

theorem RunEnd.isEndFrom_step {s t : State} (h : step s = .next t) (hf : s.fault = none) {r : RunEnd}
    (hr : r.IsEndFrom t) : r.IsEndFrom s := by
  cases r with
  | successful u =>
    obtain ⟨n, hn, hu, hb⟩ := hr
    exact ⟨n + 1, by rw [steps_succ h, hn], hu, noFaultBefore_succ h hf hb⟩
  | unsuccessful u =>
    obtain ⟨n, hn, hu, hb⟩ := hr
    exact ⟨n + 1, by rw [steps_succ h, hn], hu, noFaultBefore_succ h hf hb⟩
  | unfinished u =>
    obtain ⟨hi, n, hn, hall⟩ := hr
    refine ⟨hi, n + 1, by rw [steps_succ h, hn], fun m v hv => ?_⟩
    cases m with
    | zero => cases hv; exact hf
    | succ m => exact hall m v (by rw [← steps_succ h, hv])

theorem runEndFrom_isEndFrom (es : List Event) : ∀ (observed : Bool) (s : State), s.pending = es →
    (runEndFrom es observed s).IsEndFrom s := by
  induction es with
  | nil =>
    intro observed s hp
    cases hf : s.fault with
    | some code => rw [runEndFrom_fault [] observed (by simp [hf])]; exact ⟨0, rfl, by simp [hf], nofun⟩
    | none =>
      cases observed with
      | true => rw [runEndFrom_done [] hf rfl]; exact ⟨0, rfl, hf, nofun⟩
      | false =>
        obtain ⟨t, ht⟩ := engineTurn_next s
        obtain ⟨hi, htp⟩ := engineTurn_idle ht
        have hs : step s = .next t := by rw [step_nil hp, ht]
        apply RunEnd.isEndFrom_step hs hf
        cases htf : t.fault with
        | some code => simp only [runEndFrom, hf, hs, htf]; exact ⟨0, rfl, by simp [htf], nofun⟩
        | none =>
          simp only [runEndFrom, hf, hs, htf]
          refine ⟨hi, 0, rfl, fun m u hu => ?_⟩
          rw [steps_idle (htp.trans hp) hi m] at hu
          cases hu
          exact htf
  | cons e rest ih =>
    intro observed s hp
    obtain ⟨t, hs, htp⟩ := step_next s
    rw [hp] at htp
    by_cases hf : s.fault = none
    · by_cases hgo : observed = false ∨ (e :: rest).any Event.issues = true
      · rw [runEndFrom_cons hf hgo hs]
        exact RunEnd.isEndFrom_step hs hf (ih _ t htp)
      · obtain ⟨ho, hi⟩ := not_or.1 hgo
        rw [eq_true_of_ne_false ho, runEndFrom_done _ hf (eq_false_of_ne_true hi)]
        exact ⟨0, rfl, hf, nofun⟩
    · rw [runEndFrom_fault _ _ hf]
      exact ⟨0, rfl, hf, nofun⟩

/-- The end of a run is an end of the steps the machine takes: a run that reaches FAULT = 1 is never unfinished. -/
theorem runEnd_isEndFrom (s : State) : (runEnd s).IsEndFrom s := runEndFrom_isEndFrom s.pending _ s rfl

end Sys2Proof.Machine
end

