-- ==== Sys2Proof/Laws/Words.lean ====
section
/-! SUPPORT. The word clauses of the invariant, bit by bit. -/

namespace Sys2Proof.Machine

/-- A word has W bits exactly if no bit at W or above is 1. -/
theorem toNat_lt_iff_bits {W : Nat} {x : Word} : x.toNat < 2 ^ W ↔ ∀ b, x.getLsbD b = true → b < W := by
  constructor
  · intro h b hb
    apply Classical.byContradiction
    intro hn
    have : x.toNat < 2 ^ b := Nat.lt_of_lt_of_le h (Nat.pow_le_pow_right (by decide) (by omega))
    rw [BitVec.getLsbD, Nat.testBit_lt_two_pow this] at hb
    cases hb
  · intro h
    apply Nat.lt_pow_two_of_testBit
    intro i hi
    cases hx : x.toNat.testBit i with
    | false => rfl
    | true => have := h i hx; omega

/-- The tail-bit invariant (10_state.md R39): the 1 bits of the last live word are live. -/
theorem State.tail_iff {s : State} :
    (1 ≤ s.nwords → s.word (s.nwords - 1) &&& ~~~tailMask s.W s.nbits.toNat = 0#64) ↔
    ∀ w, w + 1 = s.nwords → ∀ b, (s.word w).getLsbD b = true → b < s.W ∧ w * s.W + b < s.nbits.toNat := by
  constructor
  · intro h w hw b hb
    have hb64 : b < 64 := by
      by_cases h : b < 64
      · exact h
      · rw [BitVec.getLsbD_of_ge _ _ (by omega)] at hb; cases hb
    have h0 := h (by omega)
    rw [show s.nwords - 1 = w by omega] at h0
    have h1 := congrArg (fun x => x.getLsbD b) h0
    simp only [BitVec.getLsbD_and, BitVec.getLsbD_not, BitVec.getLsbD_zero, hb,
      getLsbD_tailMask_last s.W_le s.W_pos hw, hb64] at h1
    simpa using h1
  · intro h h1
    have hw : (s.nwords - 1) + 1 = s.nwords := by omega
    apply BitVec.eq_of_getLsbD_eq
    intro b _
    rw [BitVec.getLsbD_and, BitVec.getLsbD_not, getLsbD_tailMask_last s.W_le s.W_pos hw]
    cases hx : (s.word (s.nwords - 1)).getLsbD b with
    | false => simp
    | true => have := h _ hw b hx; simp [this]

/-- The bits at and above NBITS mod W of the last live word read 0. -/
theorem State.Inv.tail_bit {s : State} (h : s.Inv) {w b : Nat} (hw : w + 1 = s.nwords)
    (hr : s.nbits.toNat % s.W ≠ 0) (hb : s.nbits.toNat % s.W ≤ b) : (s.word w).getLsbD b = false := by
  cases hbit : (s.word w).getLsbD b with
  | false => rfl
  | true =>
    exfalso
    obtain ⟨h1, h2⟩ := State.tail_iff.1 h.tailClean w hw b hbit
    have hn := (ceilDiv_le_iff (a := s.nbits.toNat) (n := w + 1) s.W_pos).1 (Nat.le_of_eq hw.symm)
    have hl := (lt_ceilDiv (a := s.nbits.toNat) (w := w) s.W_pos).1 (by unfold State.nwords at hw; omega)
    rw [Nat.add_mul] at hn
    have hdm := Nat.div_add_mod s.nbits.toNat s.W
    have hne : s.nbits.toNat ≠ (w + 1) * s.W := by
      intro he; rw [he] at hr; simp at hr
    rw [Nat.add_mul] at hne
    have hq : s.nbits.toNat / s.W = w :=
      Nat.div_eq_of_lt_le (by omega) (by rw [Nat.add_mul]; omega)
    rw [hq, Nat.mul_comm] at hdm
    omega

/-- The live words are among the physical ones. -/
theorem nwords_le_nwMax {s : State} (h : s.nbits.toNat ≤ s.params.nbitsMax.toNat) : s.nwords ≤ s.params.nwMax :=
  ceilDiv_mono s.W_pos h

end Sys2Proof.Machine
end

