-- ==== Sys2Proof/Tests/Slice0.lean ====
section
/-! SUPPORT. Tests. Expected values are 95_test_vectors.md's rows (named beside each test) or hand calculation from the
rule named; the words are written out from the encodings of 30_encoding.md R91 and R94. -/

namespace Sys2Proof.Tests

open Sys2Proof.Machine

/-! Well-formedness: too few and too many operands are refused (30_encoding.md R93). -/

theorem test_wf_no_operand : (Command.mk .bvNew []).wf = true ∧ (Command.mk .bvNew [0#64]).wf = false := by decide
theorem test_wf_one_operand :
    (Command.mk .bvGet [36#64]).wf = true ∧ (Command.mk .bvGet []).wf = false ∧
    (Command.mk .bvGet [1#64, 2#64]).wf = false := by decide
theorem test_wf_two_operands :
    (Command.mk .bfConfig [624#64, 5#64]).wf = true ∧ (Command.mk .bfConfig [624#64]).wf = false ∧
    (Command.mk .bfConfig [1#64, 2#64, 3#64]).wf = false := by decide

/-! Decoding: one word of every row of R94, both V forms where there are two, bits 31..9, 8, 7..0. -/

theorem test_decode_bvNew : decodeTableWord 32 0b00000000000000000000000_0_00000001 = some .bvNew := by decide
theorem test_decode_bvFromElem :
    decodeTableWord 32 0b00000000000000000000000_0_00000010 = some (.bvFromElem false) ∧
    decodeTableWord 32 0b00000000000000000000000_1_00000010 = some (.bvFromElem true) := by decide
theorem test_decode_bvLen : decodeTableWord 32 0b00000000000000000000000_0_00000011 = some .bvLen := by decide
theorem test_decode_bvIsEmpty : decodeTableWord 32 0b00000000000000000000000_0_00000100 = some .bvIsEmpty := by decide
theorem test_decode_bvGet : decodeTableWord 32 0b00000000000000000000000_0_00000101 = some .bvGet := by decide
theorem test_decode_bvSet :
    decodeTableWord 32 0b00000000000000000000000_0_00000110 = some (.bvSet false) ∧
    decodeTableWord 32 0b00000000000000000000000_1_00000110 = some (.bvSet true) := by decide
theorem test_decode_bvPush :
    decodeTableWord 32 0b00000000000000000000000_0_00000111 = some (.bvPush false) ∧
    decodeTableWord 32 0b00000000000000000000000_1_00000111 = some (.bvPush true) := by decide
theorem test_decode_bvClear : decodeTableWord 32 0b00000000000000000000000_0_00001000 = some .bvClear := by decide
theorem test_decode_bvSetAll : decodeTableWord 32 0b00000000000000000000000_0_00001001 = some .bvSetAll := by decide
theorem test_decode_bvNegate : decodeTableWord 32 0b00000000000000000000000_0_00001010 = some .bvNegate := by decide
theorem test_decode_bvReserve : decodeTableWord 32 0b00000000000000000000000_0_00001011 = some .bvReserve := by decide
theorem test_decode_bvReadWord : decodeTableWord 32 0b00000000000000000000000_0_00001100 = some .bvReadWord := by decide
theorem test_decode_bvIterStart : decodeTableWord 32 0b00000000000000000000000_0_00001101 = some .bvIterStart := by decide
theorem test_decode_bvIterNext : decodeTableWord 32 0b00000000000000000000000_0_00001110 = some .bvIterNext := by decide
theorem test_decode_bfConfig : decodeTableWord 32 0b00000000000000000000000_0_00100000 = some .bfConfig := by decide
theorem test_decode_bfInsert : decodeTableWord 32 0b00000000000000000000000_0_00100001 = some .bfInsert := by decide
theorem test_decode_bfQuery : decodeTableWord 32 0b00000000000000000000000_0_00100010 = some .bfQuery := by decide
theorem test_decode_bfClear : decodeTableWord 32 0b00000000000000000000000_0_00100011 = some .bfClear := by decide
theorem test_decode_bfIndex : decodeTableWord 32 0b00000000000000000000000_0_00100100 = some .bfIndex := by decide

/-- Rows DC-1 to DC-9: the values that are no command, each with its condition of R95. -/
theorem test_decode_refuses :
    decode 0x0#64 = .illegal .reservedOpcode ∧ decode 0xF#64 = .illegal .reservedOpcode ∧
    decode 0x1F#64 = .illegal .reservedOpcode ∧ decode 0x25#64 = .illegal .reservedOpcode ∧
    decode 0xFF#64 = .illegal .reservedOpcode ∧ decode 0x103#64 = .illegal .strayV ∧
    decode 0x203#64 = .illegal .reservedBits ∧ decode 0x100000003#64 = .illegal .highBits ∧
    decode 0x121#64 = .illegal .strayV := by decide

/-- A CMD value is 8 bytes, lowest offset first (20_memory.md R63, R64). -/
theorem test_decode_bytes :
    decodeBytes [0x06#8, 0x01#8, 0#8, 0#8, 0#8, 0#8, 0#8, 0#8] = .ok (.bvSet true) ∧
    decodeBytes [0x06#8, 0x01#8, 0#8, 0#8] = .illegal .badLength := by decide

/-! The states the tests start from. -/

/-- The state a step answers. -/
def after : Result → Option State
  | .next t    => some t
  | .fault _   => none
  | .refused _ => none

/-- One command: its bus writes and the engine's turn. -/
def run (s : State) (i : Instr) (args : List Word) : Option State := after (runCommand { instr := i, args := args } s)

/-- What the host reads after the poll: RESULT and STATUS. -/
def answer (r : Option State) : Option (Word × Word) := r.map fun t => (t.result, t.status)

/-- W = 32, after `bv.from_elem.1 37` (row BV-2). -/
def vec : State :=
  { State.reset with store := [(0, 0xFFFFFFFF#64), (1, 0x1F#64)], nbits := 37#64, capwords := 2#64 }

/-- W = 64, after `bv.from_elem.1 37` (row BV-6). -/
def vec64 : State :=
  { State.resetOf { width := .w64, nbitsMax := 4096#64, kMax := 64#64 } with
    store := [(0, 0x1FFFFFFFFF#64)], nbits := 37#64, capwords := 1#64 }

/-- W = 32, n zero bits. -/
def zeros (n : Word) (cap : Word) : State := { State.reset with nbits := n, capwords := cap }

/-- After `bf.config 624, 5` and `bf.insert 0x0000000300000005` (row BF-10). -/
def filt : State :=
  { State.reset with store := [(0, 0x24920#64)], nbits := 624#64, capwords := 20#64, k := 5#64, mode := .filter }

/-- A state with an open iteration. -/
def iterating (s : State) (pos : Word) : State := { s with iterActive := true, iterPos := pos }

/-- The faulted state of row BV-22. -/
def faulted : State :=
  { zeros 40#64 2#64 with
    cmd := 0x106#64, arg0 := 0x28#64, fault := some .errRange, faultInfo0 := 0x106#64, faultInfo1 := 0x28#64 }

/-- `vec` with `bv.get 36` in flight. -/
def busyVec : State := vec.issued { instr := .bvGet, args := [36#64] }

/-! The commands. -/

/-- BF-29. -/
theorem test_bvNew_in_filter : (run filt .bvNew []).map (fun t => (t.mode, t.nbits, t.k, t.capwords, t.status)) =
    some (.vector, 0#64, 0#64, 0#64, 0#64) := by decide

/-- BV-2. -/
theorem test_bvFromElem_tail :
    (run State.reset (.bvFromElem true) [37#64]).map (fun t => (t.store, t.capwords)) =
    some ([(0, 0xFFFFFFFF#64), (1, 0x1F#64)], 2#64) := by decide
/-- BV-9. -/
theorem test_bvFromElem_capacity :
    (run State.reset (.bvFromElem true) [4097#64]).map (fun t => (t.status, t.faultInfo0, t.faultInfo1, t.nbits)) =
    some (0x304#64, 0x102#64, 0x1001#64, 0#64) := by decide

/-- BF-28. -/
theorem test_bvLen_of_filter : answer (run filt .bvLen []) = some (624#64, 0x8#64) := by decide

/-- BV-13. -/
theorem test_bvIsEmpty_empty : answer (run State.reset .bvIsEmpty []) = some (1#64, 0#64) := by decide
/-- BV-15. -/
theorem test_bvIsEmpty_filter : answer (run filt .bvIsEmpty []) = some (0#64, 0x8#64) := by decide

/-- BV-16. -/
theorem test_bvGet_last : answer (run vec .bvGet [36#64]) = some (1#64, 0#64) := by decide
/-- BV-18. -/
theorem test_bvGet_absent : answer (run vec .bvGet [0xFFFFFFFFFFFFFFFF#64]) = some (0#64, 0x2#64) := by decide

/-- BV-20. -/
theorem test_bvSet_bit : (run (zeros 40#64 2#64) (.bvSet true) [33#64]).map (·.store) = some [(1, 0x2#64)] := by decide
/-- BV-22. -/
theorem test_bvSet_range :
    (run (zeros 40#64 2#64) (.bvSet true) [40#64]).map (fun t => (t.status, t.faultInfo0, t.faultInfo1, t.store)) =
    some (0x204#64, 0x106#64, 0x28#64, []) := by decide

/-- BV-29: a dead word's old value does not show through. -/
theorem test_bvPush_new_word :
    (run { zeros 32#64 5#64 with store := [(1, 0xFFFFFFFF#64)] } (.bvPush true) []).map
      (fun t => (t.store, t.nbits, t.capwords)) = some ([(1, 0x1#64)], 33#64, 5#64) := by decide
/-- BV-28. -/
theorem test_bvPush_full :
    (run { zeros 4096#64 128#64 with arg0 := 0x1000#64 } (.bvPush true) []).map
      (fun t => (t.status, t.faultInfo0, t.faultInfo1, t.nbits)) =
    some (0x304#64, 0x107#64, 0x1000#64, 4096#64) := by decide

/-- BV-30. -/
theorem test_bvClear_keeps_length : (run vec .bvClear []).map (fun t => (t.store, t.nbits)) = some ([], 37#64) := by decide

/-- BV-32. -/
theorem test_bvSetAll_masks :
    (run (zeros 37#64 2#64) .bvSetAll []).map (·.store) = some [(0, 0xFFFFFFFF#64), (1, 0x1F#64)] := by decide

/-- BV-34. -/
theorem test_bvNegate_masks :
    (run { vec with store := [(0, 0xFFFF#64), (1, 0x1#64)] } .bvNegate []).map (·.store) =
    some [(0, 0xFFFF0000#64), (1, 0x1E#64)] := by decide
/-- BV-37. -/
theorem test_bvNegate_wide : (run vec64 .bvNegate []).map (·.store) = some [] := by decide

/-- BV-40. -/
theorem test_bvReserve_to_the_limit :
    (run (zeros 38#64 2#64) .bvReserve [4058#64]).map (fun t => (t.capwords, t.status)) = some (128#64, 0#64) := by decide
/-- BV-42: the sum is exact. -/
theorem test_bvReserve_no_wrap :
    (run (zeros 38#64 2#64) .bvReserve [0xFFFFFFFFFFFFFFFF#64]).map (fun t => (t.status, t.faultInfo1)) =
    some (0x304#64, 0xFFFFFFFFFFFFFFFF#64) := by decide

/-- BV-44. -/
theorem test_bvReadWord_last : answer (run vec .bvReadWord [1#64]) = some (0x1F#64, 0#64) := by decide
/-- BV-46: reserved but not live. -/
theorem test_bvReadWord_reserved : answer (run (zeros 33#64 5#64) .bvReadWord [3#64]) = some (0#64, 0x2#64) := by decide

/-- BV-49. -/
theorem test_bvIterStart_restarts :
    (run (iterating vec 2#64) .bvIterStart []).map (fun t => (t.iterPos, t.status)) = some (0#64, 0x10#64) := by decide

/-- BV-51, the first answer. -/
theorem test_bvIterNext_bit :
    (run (iterating vec 0#64) .bvIterNext []).map (fun t => (t.result, t.status, t.iterPos)) =
    some (1#64, 0x10#64, 1#64) := by decide
/-- BV-51, the last answer. -/
theorem test_bvIterNext_end :
    (run (iterating vec 37#64) .bvIterNext []).map (fun t => (t.result, t.status, t.iterPos)) =
    some (0#64, 0x12#64, 37#64) := by decide

/-- BF-9: the old filter is gone. -/
theorem test_bfConfig_again :
    (run filt .bfConfig [100#64, 3#64]).map (fun t => (t.store, t.nbits, t.k, t.capwords, t.status)) =
    some ([], 100#64, 3#64, 4#64, 0x8#64) := by decide
/-- BF-8. -/
theorem test_bfConfig_k_too_large :
    (run vec .bfConfig [624#64, 65#64]).map (fun t => (t.status, t.faultInfo0, t.faultInfo1, t.store)) =
    some (0x404#64, 0x20#64, 0x270#64, vec.store) := by decide

/-- BF-10. -/
theorem test_bfInsert_bits :
    (run { filt with store := [] } .bfInsert [0x0000000300000005#64]).map (·.store) = some [(0, 0x24920#64)] := by decide
/-- 95_test_vectors.md 1.4, the second digest. -/
theorem test_bfInsert_words :
    (run filt .bfInsert [0xFFFFFFFFFFFFFFFF#64]).map (·.store) =
    some [(0, 0x08024920#64), (4, 0x2000#64), (7, 0x80000000#64), (12, 0x1000#64), (15, 0x40000000#64)] := by decide

/-- BF-17. -/
theorem test_bfQuery_false_positive : answer (run filt .bfQuery [5#64]) = some (1#64, 0x8#64) := by decide
/-- BF-16. -/
theorem test_bfQuery_absent : answer (run filt .bfQuery [0x100000000#64]) = some (0#64, 0x8#64) := by decide

/-- BF-20. -/
theorem test_bfClear_keeps_configuration :
    (run filt .bfClear []).map (fun t => (t.store, t.nbits, t.k, t.mode)) =
    some ([], 624#64, 5#64, .filter) := by decide

/-- BF-22. -/
theorem test_bfIndex_value : answer (run filt .bfIndex [0xFFFFFFFFFFFFFFFF#64, 2#64]) = some (141#64, 0x8#64) := by decide
/-- BF-24. -/
theorem test_bfIndex_range :
    (run filt .bfIndex [5#64, 5#64]).map (fun t => (t.status, t.faultInfo0, t.faultInfo1)) =
    some (0x20C#64, 0x24#64, 0x5#64) := by decide

/-- IX-6, IX-9, IX-10: the sum is exact. -/
theorem test_probeIndex :
    (List.range 5).map (probeIndex 624 0x123456789ABCDEF0#64) = [96, 72, 48, 24, 0] ∧
    (List.range 5).map (probeIndex 311762 0xDEADBEEFCAFEBABE#64) = [3494, 88007, 172520, 257033, 29784] ∧
    (List.range 3).map (probeIndex (2 ^ 32) 0xFFFFFFFFFFFFFFFF#64) = [4294967295, 4294967294, 4294967293] := by decide

/-- DC-10: the mode is checked before the range. -/
theorem test_mode_before_range :
    (run filt (.bvSet true) [999#64]).map (fun t => (t.status, t.faultInfo0, t.faultInfo1)) =
    some (0x50C#64, 0x106#64, 0x3E7#64) := by decide

/-- DC-9: the decoder is asked before the mode check. -/
theorem test_illegal_before_mode :
    (after (step ({ filt with arg0 := 9#64 }.withFetchWord 32 0x121))).map
      (fun t => (t.status, t.faultInfo0, t.faultInfo1)) = some (0x10C#64, 0x121#64, 0x9#64) := by decide

/-! Host access: rows of section 7. -/

def host (s : State) (e : Event) : Option State := after (step { s with pending := [e] })

/-- HA-1, HA-5, HA-6. -/
theorem test_read_registers :
    (host State.reset (.read 0x80#64 8#64)).map (·.reply) = some (some 0x0000010042464D45#64) ∧
    (host State.reset (.read 0x28#64 8#64)).map (·.reply) = some (some 0#64) ∧
    (host vec (.read 0x38#64 8#64)).map (·.reply) = some (some 2#64) := by decide
/-- HA-7, HA-8, HA-10. -/
theorem test_read_faults :
    (host State.reset (.read 0x04#64 8#64)).map (fun t => (t.reply, t.status, t.faultInfo0, t.faultInfo1)) =
      some (some 0#64, 0x804#64, 0x4#64, 0x8#64) ∧
    (host State.reset (.read 0x00#64 4#64)).map (fun t => (t.reply, t.status, t.faultInfo0, t.faultInfo1)) =
      some (some 0#64, 0x804#64, 0x0#64, 0x4#64) ∧
    (host State.reset (.read 0x88#64 8#64)).map (fun t => (t.reply, t.status, t.faultInfo0, t.faultInfo1)) =
      some (some 0#64, 0x804#64, 0x88#64, 0x8#64) := by decide
/-- HA-9, HA-11, HA-12, HA-14. -/
theorem test_write_faults :
    (host State.reset (.write 0x08#64 4#64 1#64)).map (fun t => (t.arg0, t.status, t.faultInfo0, t.faultInfo1)) =
      some (0#64, 0x804#64, 0x8#64, 0x104#64) ∧
    (host State.reset (.write 0xF8#64 8#64 0#64)).map (fun t => (t.status, t.faultInfo0, t.faultInfo1)) =
      some (0x804#64, 0xF8#64, 0x108#64) ∧
    (host State.reset (.write 0x18#64 8#64 5#64)).map (fun t => (t.result, t.status, t.faultInfo0, t.faultInfo1)) =
      some (0#64, 0x804#64, 0x18#64, 0x108#64) ∧
    (host State.reset (.write 0x28#64 8#64 2#64)).map (fun t => (t.status, t.faultInfo0, t.faultInfo1)) =
      some (0x804#64, 0x28#64, 0x108#64) := by decide
/-- HA-16: the command in flight keeps its snapshot. -/
theorem test_write_while_busy :
    (host busyVec (.write 0x08#64 8#64 1#64)).map (fun t => (t.fault, t.faultInfo0, t.faultInfo1, t.inFlight)) =
      some (some .errBusy, 0x8#64, 0x108#64, busyVec.inFlight) := by decide
/-- HA-20, HA-21, HA-22. -/
theorem test_access_while_faulted :
    (host faulted (.write 0x08#64 8#64 3#64)).map (fun t => (t.arg0, t.status, t.faultInfo1)) =
      some (3#64, 0x204#64, 0x28#64) ∧
    (host faulted (.write 0x00#64 8#64 5#64)).map (fun t => (t.cmd, t.inFlight)) = some (0x106#64, none) ∧
    (host faulted (.read 0x04#64 8#64)).map (fun t => (t.reply, t.status, t.faultInfo0)) =
      some (some 0#64, 0x204#64, 0x106#64) := by decide
/-- HA-23. -/
theorem test_soft_reset :
    (host faulted (.write 0x28#64 8#64 1#64)).map (fun t => (t.status, t.faultInfo0, t.nbits, t.cmd, t.arg0)) =
      some (0#64, 0#64, 0#64, 0#64, 0#64) := by decide

/-! The assembler (30_encoding.md R100). -/

/-- A host whose hash is the number of characters, with SIZE's values at (100, 5/100) and (1, 5/10) (rows SZ-1, SZ-3),
and at every other pair m above NBITS_MAX. -/
def asmHost : AsmHost :=
  { params := Config.params
    hash := fun key => BitVec.ofNat 64 key.length
    size := fun capacity rate =>
      if capacity = 100 ∧ rate = { num := 5, den := 100 } then (624, 5)
      else if capacity = 1 ∧ rate = { num := 5, den := 10 } then (2, 2)
      else (4097, 1) }

theorem test_assemble :
    assemble asmHost "bv.from_elem.1 37".toList = .ok (.command { instr := .bvFromElem true, args := [37#64] }) ∧
    assemble asmHost "bv.get 36".toList = .ok (.command { instr := .bvGet, args := [36#64] }) ∧
    assemble asmHost "bf.config 624, 5 ; m, k".toList = .ok (.command { instr := .bfConfig, args := [624#64, 5#64] }) ∧
    assemble asmHost "bf.query 0x0000000300000005".toList =
      .ok (.command { instr := .bfQuery, args := [0x300000005#64] }) := by
  refine ⟨?_, ?_, ?_, ?_⟩ <;> rfl
theorem test_assemble_refuses :
    assemble asmHost "bv.set 3".toList = .refused .unknownMnemonic ∧
    assemble asmHost "bv.len.0".toList = .refused .unknownMnemonic ∧
    assemble asmHost "bf.config 624".toList = .refused .wrongOperandCount ∧
    assemble asmHost "bv.get 18446744073709551616".toList = .refused .badOperand := by
  refine ⟨?_, ?_, ?_, ?_⟩ <;> rfl

/-- R102: what each pseudo-instruction expands to. -/
theorem test_assemble_pseudo :
    assemble asmHost "bf.create 100, 0.05 ; SIZE".toList =
      .ok (.command { instr := .bfConfig, args := [624#64, 5#64] }) ∧
    assemble asmHost "bf.add key one".toList = .ok (.command { instr := .bfInsert, args := [7#64] }) ∧
    assemble asmHost "bf.contains key".toList = .ok (.command { instr := .bfQuery, args := [3#64] }) ∧
    assemble asmHost "reset".toList = .ok .reset ∧ assemble asmHost "  wait ; poll".toList = .ok .wait := by
  refine ⟨?_, ?_, ?_, ?_, ?_⟩ <;> rfl
/-- R102: capacity no integer, capacity 0, error rates 0, 1 and none, and a filter too large. -/
theorem test_assemble_create_refuses :
    assemble asmHost "bf.create 1.5, 0.05".toList = .refused .badCapacity ∧
    assemble asmHost "bf.create 0, 0.05".toList = .refused .badCapacity ∧
    assemble asmHost "bf.create 100, 0.0".toList = .refused .badErrorRate ∧
    assemble asmHost "bf.create 100, 1".toList = .refused .badErrorRate ∧
    assemble asmHost "bf.create 100, -0.5".toList = .refused .badErrorRate ∧
    assemble asmHost "bf.create 1000, 1/3".toList = .refused .filterTooLarge := by
  refine ⟨?_, ?_, ?_, ?_, ?_, ?_⟩ <;> rfl
/-- R101, R102: the bus accesses of a line. -/
theorem test_item_events :
    Item.events 1 (.command { instr := .bvGet, args := [36#64] }) =
      [.write 0x08#64 8#64 36#64, .write 0x00#64 8#64 0x5#64, .read 0x20#64 8#64, .engine, .read 0x20#64 8#64] ∧
    Item.events 0 .reset = [.write 0x28#64 8#64 1#64] ∧
    Item.events 0 .wait = [.engine, .read 0x20#64 8#64] := by decide

/-! The end of a run (70_reset_and_hazards.md R271). -/

/-- The end's kind (true: successful), STATUS, RESULT and ARG0 of its final state. -/
def ended (r : RunEnd) : Option (Bool × Word × Word × Word) :=
  match r with
  | .successful t   => some (true, t.status, t.result, t.arg0)
  | .unsuccessful t => some (false, t.status, t.result, t.arg0)
  | .unfinished _   => none

/-- Program P3, steps 7 to 11, with an open iteration: step 8 ends the run unsuccessfully, whatever the reset does. -/
theorem test_run_p3_ends_at_the_fault :
    ended (runEnd { iterating vec 3#64 with
      pending :=
        Item.events 0 (.command { instr := .bvPush false, args := [] }) ++
        Item.events 0 (.command { instr := .bvIterNext, args := [] }) ++
        Item.events 0 (.command { instr := .bvLen, args := [] }) ++ Item.events 0 .reset ++
        Item.events 0 (.command { instr := .bvLen, args := [] }) }) =
    some (false, 0x604#64, 0#64, 0#64) := by decide
/-- Program P5: the ARG0 write of step 3 is no part of the run, which ended at step 2. -/
theorem test_run_p5_discards_the_rest :
    ended (runEnd { State.reset with
      pending := programEvents [({ instr := .bvFromElem false, args := [40#64] }, 0),
        ({ instr := .bvSet true, args := [40#64] }, 0), ({ instr := .bvSet true, args := [3#64] }, 0)] }) =
    some (false, 0x204#64, 0#64, 40#64) := by decide
/-- Program P1, steps 1 to 3, ends at the last poll. -/
theorem test_run_p1_ends_well :
    ended (runEnd { State.reset with
      pending := programEvents [({ instr := .bvFromElem true, args := [37#64] }, 0),
        ({ instr := .bvGet, args := [36#64] }, 0), ({ instr := .bvGet, args := [37#64] }, 0)] }) =
    some (true, 0x2#64, 0#64, 37#64) := by decide
/-- BV_ITER_NEXT with no open iteration is issued and no event follows: ERR_ITER (60_exceptions.md R227) ends the run. -/
theorem test_run_faults_after_its_last_event :
    ended (runEnd { State.reset with pending := [.write 0x00#64 8#64 0xE#64] }) =
    some (false, 0x604#64, 0#64, 0#64) := by decide
/-- The command is over and no fault recorded, but the host has not polled. -/
theorem test_run_without_a_poll_is_unfinished :
    ended (runEnd { State.reset with pending := [.write 0x00#64 8#64 0x3#64, .engine] }) = none := by decide

/-! Sizing (rows SZ-3, SZ-11 to SZ-13). -/

/-- SZ-3: SIZE(1, 0.5) = (2, 2). -/
theorem test_size : IsSize 1 (1 / 2) 2 2 := by
  have h1 := Real.log_two_gt_d9
  have h2 := Real.log_two_lt_d9
  have hl : |Real.log (1 / 2)| = Real.log 2 := by
    rw [one_div, Real.log_inv, abs_neg, abs_of_pos (by linarith)]
  refine ⟨⟨le_refl 1, by norm_num, by norm_num⟩, ?_, ?_⟩
  · symm
    rw [Int.ceil_eq_iff, hl, sq, Nat.cast_one, one_mul, div_mul_cancel_left₀ (by linarith)]
    constructor
    · rw [lt_inv_comm₀ (by norm_num) (by linarith)]
      norm_num
      linarith
    · rw [inv_le_comm₀ (by linarith) (by norm_num)]
      norm_num
      linarith
  · symm
    rw [Int.ceil_eq_iff]
    constructor <;> norm_num <;> linarith

theorem test_size_refuses : ¬ SizePre 0 0.05 ∧ ¬ SizePre 100 0 ∧ ¬ SizePre 100 1 := by
  refine ⟨fun h => ?_, fun h => ?_, fun h => ?_⟩
  · exact absurd h.1 (by decide)
  · exact absurd h.2.1 (lt_irrefl 0)
  · exact absurd h.2.2 (lt_irrefl 1)

/-! Witnesses: for each obligation with hypotheses, states and operands that meet them, clause by clause, at the
boundaries. -/

theorem word_nil (w : Nat) : Memory.word [] w = 0#64 := rfl

/-- `vec` meets the invariant. -/
theorem witness_vec_inv : vec.Inv := by
  have hw : ∀ w, vec.word w = if w = 0 then 0xFFFFFFFF#64 else if w = 1 then 0x1F#64 else 0#64 := by
    intro w
    match w with
    | 0 => rfl
    | 1 => rfl
    | n + 2 => rfl
  refine ⟨by decide, by decide, fun w => ?_, fun w h => ?_, by decide, by decide, by decide, fun _ => rfl, nofun, nofun,
    fun _ => rfl, nofun, fun _ => ⟨rfl, rfl⟩, nofun, fun _ => by decide⟩
  · rw [hw]
    split
    · decide
    · split <;> decide
  · change 128 ≤ w at h
    rw [hw, if_neg (by omega), if_neg (by omega)]

/-- `filt` meets the invariant. -/
theorem witness_filt_inv : filt.Inv := by
  have hw : ∀ w, filt.word w = if w = 0 then 0x24920#64 else 0#64 := by
    intro w
    match w with
    | 0 => rfl
    | n + 1 => rfl
  refine ⟨by decide, by decide, fun w => ?_, fun w h => ?_, by decide, by decide, by decide, nofun, fun _ => by decide,
    nofun, fun _ => rfl, nofun, fun _ => ⟨rfl, rfl⟩, nofun, fun _ => by decide⟩
  · rw [hw]
    split <;> decide
  · change 128 ≤ w at h
    rw [hw, if_neg (by omega)]

/-- A command in flight with its operands in the registers keeps the invariant. -/
theorem issued_inv {s : State} (h : s.Inv) (c : Command) : (s.issued c).Inv :=
  ⟨h.paramsLegal, h.storeWf, h.wordFits, h.storeBound, h.nbitsBound, h.capwordsLower, h.capwordsUpper, h.vectorK,
   h.filterK, h.iterBound, h.iterClosed, h.noneResult, h.noFaultInfo, fun f hf => (by cases hf; exact ⟨rfl, rfl, rfl⟩),
   h.tailClean⟩

/-- `s` with a command in flight. -/
def on (s : State) (i : Instr) (args : List Word) : State := s.issued { instr := i, args := args }

theorem witness_BothResetSourcesResetFromEveryState :
    (2#64 ≠ 0#64 ∧ 2#64 ≠ 1#64 ∧ State.reset.fault = none ∧ faulted.fault ≠ none) ∧
    (0xFFFFFFFFFFFFFFFF#64 ≠ 0#64 ∧ 0xFFFFFFFFFFFFFFFF#64 ≠ 1#64) ∧ busyVec.busy = true := by decide
/-- The extreme legal parameters. -/
theorem witness_ResetMeetsTheInvariant :
    ({ width := .w32, nbitsMax := 1#64, kMax := 1#64 } : Params).legal = true ∧
    ({ width := .w64, nbitsMax := 0xFFFFFFFFFFFFFFFF#64, kMax := 0x100000000#64 } : Params).legal = true ∧
    ({ width := .w64, nbitsMax := 1#64, kMax := 0x100000001#64 } : Params).legal = false := by decide
theorem witness_EveryStepKeepsTheInvariant :
    (on filt .bfInsert [0xFFFFFFFFFFFFFFFF#64]).Inv ∧ ∃ t, step (on filt .bfInsert [0xFFFFFFFFFFFFFFFF#64]) = .next t :=
  ⟨issued_inv witness_filt_inv _, _, rfl⟩
/-- The first and the last register, the first and the last byte. -/
theorem witness_WindowIsLittleEndian :
    Reg.ofOffset 0x00 = some .cmd ∧ Reg.ofOffset 0x80 = some .id ∧
    State.reset.windowByte (0x80 + 0) = some 0x45#8 ∧ State.reset.windowByte (0x80 + 7) = some 0x00#8 ∧
    State.reset.windowByte 0x88 = none := by decide
/-- Illegal values of each condition of R95, at its lowest and highest, and legal values beside them. -/
theorem witness_IllegalValueOnlyRaisesErrIllegal :
    (∀ c : Word, (State.reset.accepted c).inFlight = some { c := c, a0 := 0#64, a1 := 0#64 }) ∧
    State.reset.pending = [] ∧
    (IllegalValue 0x100000003#64 ∧ IllegalValue 0x8000000000000003#64) ∧
    (IllegalValue 0x203#64 ∧ IllegalValue 0x80000003#64) ∧
    (IllegalValue 0x00#64 ∧ IllegalValue 0x0F#64 ∧ IllegalValue 0x1F#64 ∧ IllegalValue 0x25#64 ∧ IllegalValue 0xFF#64) ∧
    IllegalValue 0x103#64 ∧
    (¬ IllegalValue 0x0E#64 ∧ ¬ IllegalValue 0x20#64 ∧ ¬ IllegalValue 0x24#64 ∧ ¬ IllegalValue 0x102#64) := by
  unfold IllegalValue
  refine ⟨fun _ => rfl, rfl, ⟨?_, ?_⟩, ⟨?_, ?_⟩, ⟨?_, ?_, ?_, ?_, ?_⟩, ?_, ?_, ?_, ?_, ?_⟩ <;> decide
theorem witness_ErrIllegalForIllegalValuesOnly :
    (State.reset.accepted 0x25#64).inFlight = some { c := 0x25#64, a0 := 0#64, a1 := 0#64 } ∧
    decode 0x25#64 = .illegal .reservedOpcode ∧
    (∃ t, exec .bvLen { faulted with fault := some .errIllegal } = .next t ∧ t.fault = some .errIllegal) ∧
    ((({ faulted with fault := some .errIllegal } : State).hostRead 0x04#64 8#64).fault = some .errIllegal) ∧
    ((({ faulted with fault := some .errIllegal } : State).hostWrite 0x04#64 8#64 0#64).fault = some .errIllegal) :=
  ⟨rfl, rfl, ⟨_, rfl, rfl⟩, rfl, rfl⟩
theorem witness_StepRunsTheDecodedCommand :
    busyVec.inFlight = some { c := 0x5#64, a0 := 36#64, a1 := 0#64 } ∧ decode 0x5#64 = .ok .bvGet ∧
    busyVec.pending = [] ∧ ({ busyVec with pending := [.engine] } : State).pending = .engine :: [] ∧
    decodeTableWord 32 0x00000106 = some (.bvSet true) := by decide
theorem witness_IdleEngineKeepsEveryPieceOfState : vec.inFlight = none ∧ vec.pending = [] := by decide
/-- A named command in each mode, and one that is not named in each. -/
theorem witness_ErrModeForExactlyTheCommandsNamed :
    (filt.mode = .filter ∧ exec .bvReserve filt = .next (filt.faultEntry .errMode)) ∧
    (vec.mode = .vector ∧ exec .bfIndex vec = .next (vec.faultEntry .errMode)) ∧
    (∃ t, exec .bvLen { faulted with fault := some .errMode } = .next t ∧ t.fault = some .errMode) ∧
    (∃ t, exec .bfQuery { filt with fault := some .errMode } = .next t ∧ t.fault = some .errMode) :=
  ⟨⟨rfl, rfl⟩, ⟨rfl, rfl⟩, ⟨_, rfl, rfl⟩, ⟨_, rfl, rfl⟩⟩
theorem witness_BvFromElemFillsAndMasks :
    Memory.wf vec.store = true ∧
    vec.params.nbitsMax.toNat < (on vec (.bvFromElem true) [4097#64]).a0.toNat ∧
    (on vec (.bvFromElem true) [4096#64]).a0.toNat ≤ vec.params.nbitsMax.toNat := by decide
theorem witness_LengthQueriesReturnTheLength : filt.Inv ∧ filt.mode = .filter := ⟨witness_filt_inv, rfl⟩
theorem witness_BvGetReadsTheBitOrAnswersAbsent :
    (on vec .bvGet [36#64]).a0.toNat < vec.nbits.toNat ∧ vec.nbits.toNat ≤ (on vec .bvGet [37#64]).a0.toNat := by decide
theorem witness_BvSetWritesOneBit :
    Memory.wf vec.store = true ∧ (on filt (.bvSet true) [0#64]).mode = .filter ∧ vec.mode = .vector ∧
    vec.nbits.toNat ≤ (on vec (.bvSet true) [37#64]).a0.toNat ∧
    (on vec (.bvSet true) [36#64]).a0.toNat < vec.nbits.toNat := by decide
/-- Full, one short of it on a word's last bit, and at a new word. -/
theorem witness_BvPushAppendsOneBit :
    Memory.wf vec.store = true ∧ filt.mode = .filter ∧ (zeros 4096#64 128#64).mode = .vector ∧
    (zeros 4096#64 128#64).nbits.toNat = State.reset.params.nbitsMax.toNat ∧
    ((zeros 4095#64 128#64).nbits.toNat < State.reset.params.nbitsMax.toNat ∧ 4095 % 32 ≠ 0) ∧
    ((zeros 32#64 1#64).nbits.toNat < State.reset.params.nbitsMax.toNat ∧ 32 % 32 = 0) := by decide
theorem witness_BvClearZeroesEveryLiveWord : Memory.wf vec.store = true ∧ filt.mode = .filter ∧ vec.mode = .vector := by
  decide
/-- A length with a tail and one without. -/
theorem witness_BvSetAllSetsEveryLiveBit :
    Memory.wf vec.store = true ∧ filt.mode = .filter ∧ vec.mode = .vector ∧ vec.nwords = 2 ∧
    (zeros 64#64 2#64).mode = .vector ∧ (zeros 64#64 2#64).nwords = 2 := by decide
theorem witness_BvNegateFlipsEveryLiveBit :
    Memory.wf vec.store = true ∧ filt.mode = .filter ∧ vec.mode = .vector ∧ vec64.mode = .vector := by decide
theorem witness_BvReserveRaisesTheReservedCapacity :
    filt.mode = .filter ∧ vec.mode = .vector ∧
    vec.params.nbitsMax.toNat < vec.nbits.toNat + (on vec .bvReserve [4060#64]).a0.toNat ∧
    vec.nbits.toNat + (on vec .bvReserve [4059#64]).a0.toNat ≤ vec.params.nbitsMax.toNat := by decide
theorem witness_BvReadWordReadsALiveWordOrAnswersAbsent :
    (on vec .bvReadWord [1#64]).a0.toNat < vec.nwords ∧ vec.nwords ≤ (on vec .bvReadWord [2#64]).a0.toNat ∧
    (on vec .bvReadWord [1#64]).Inv ∧ (on vec .bvReadWord [1#64]).a0.toNat + 1 = vec.nwords ∧
    vec.nbits.toNat % vec.W = 5 :=
  ⟨by decide, by decide, issued_inv witness_vec_inv _, by decide, by decide⟩
theorem witness_BvIterNextYieldsTheNextBit :
    vec.iterActive = false ∧
    ((iterating vec 36#64).iterActive = true ∧ (iterating vec 36#64).iterPos.toNat < vec.nbits.toNat) ∧
    ((iterating vec 37#64).iterActive = true ∧ vec.nbits.toNat ≤ (iterating vec 37#64).iterPos.toNat) := by decide
/-- Each bad operand alone at its boundary, and the two extreme good pairs. -/
theorem witness_BfConfigConstructsTheFilter :
    Memory.wf vec.store = true ∧
    (on vec .bfConfig [0#64, 5#64]).a0.toNat = 0 ∧
    vec.params.nbitsMax.toNat < (on vec .bfConfig [4097#64, 5#64]).a0.toNat ∧
    (on vec .bfConfig [624#64, 0#64]).a1.toNat = 0 ∧
    vec.params.kMax.toNat < (on vec .bfConfig [624#64, 65#64]).a1.toNat ∧
    ¬ ((on vec .bfConfig [1#64, 1#64]).a0.toNat = 0 ∨ (on vec .bfConfig [1#64, 1#64]).a1.toNat = 0) ∧
    ¬ (vec.params.nbitsMax.toNat < (on vec .bfConfig [4096#64, 64#64]).a0.toNat ∨
       vec.params.kMax.toNat < (on vec .bfConfig [4096#64, 64#64]).a1.toNat) := by decide
theorem witness_BfInsertSetsTheProbeBits : Memory.wf filt.store = true ∧ vec.mode = .vector ∧ filt.mode = .filter := by
  decide
theorem witness_BfQueryAndsTheProbeBits : vec.mode = .vector ∧ filt.mode = .filter := by decide
theorem witness_BfClearZeroesTheBitField : Memory.wf filt.store = true ∧ vec.mode = .vector ∧ filt.mode = .filter := by
  decide
theorem witness_BfIndexReturnsOneProbeIndex :
    vec.mode = .vector ∧ filt.mode = .filter ∧ filt.k.toNat ≤ (on filt .bfIndex [5#64, 5#64]).a1.toNat ∧
    (on filt .bfIndex [5#64, 4#64]).a1.toNat < filt.k.toNat := by decide
theorem witness_PositionIsABitOfItsWord : 31 < vec.W ∧ 63 < vec64.W := by decide
/-- The last live word: its last live bit, its first tail bit, and a bit past W. -/
theorem witness_WordViewAndBitViewAgree :
    vec.Inv ∧ vec.ready = true ∧ 1 < vec.nwords ∧ (4 < vec.W ∧ 1 * vec.W + 4 < vec.nbits.toNat) ∧
    (5 < vec.W ∧ 1 + 1 = vec.nwords ∧ vec.nbits.toNat ≤ 1 * vec.W + 5) ∧ vec.W ≤ 32 :=
  ⟨witness_vec_inv, by decide, by decide, by decide, by decide, by decide⟩
/-- The extreme values, and b mod m = 0 with b ≠ 0 (row IX-7). -/
theorem witness_ProbeIndexIsExactInSixtyFourBits :
    1 ≤ 1 ∧ 2 ^ 64 - 1 < 2 ^ 64 ∧ 2 ^ 32 - 1 < 2 ^ 32 ∧
    (0x0000027000000271#64).toNat / 2 ^ 32 % 624 = 0 ∧ (0x0000027000000271#64).toNat / 2 ^ 32 ≠ 0 := by decide
theorem witness_ProbesMayBeTakenInAnyOrder :
    Memory.wf filt.store = true ∧ filt.mode = .filter ∧ [4, 2, 0, 1, 3].Perm (List.range filt.k.toNat) := by decide
theorem witness_StoreIsCanonicalAndReadsBackWrites :
    Memory.wf vec.store = true ∧ ∀ w, Memory.word vec.store w = Memory.word (Memory.setWord vec.store 1 0x1F#64) w :=
  ⟨by decide, fun _ => rfl⟩
/-- With and without a command in flight. -/
theorem witness_FaultIsStickyUntilReset :
    ({ faulted with pending := [.write 0x28#64 8#64 0#64] } : State).fault ≠ none ∧
    isResetEvent (.write 0x28#64 8#64 0#64) = false ∧ faulted.inFlight = none ∧
    (∃ t, step { faulted with pending := [.write 0x28#64 8#64 0#64] } = .next t) ∧
    ({ busyVec with fault := some .errBus } : State).fault ≠ none ∧
    (∃ t, step { busyVec with fault := some .errBus } = .next t) :=
  ⟨nofun, rfl, rfl, ⟨_, rfl⟩, nofun, ⟨_, rfl⟩⟩
theorem witness_MutatingCommandsCloseTheIteration :
    (∃ t, exec .bvClear (iterating vec 1#64) = .next t) ∧ (∃ t, exec (.bvPush true) (iterating filt 1#64) = .next t) ∧
    ∃ t, exec .bvGet (iterating vec 1#64) = .next t := ⟨⟨_, rfl⟩, ⟨_, rfl⟩, ⟨_, rfl⟩⟩
theorem witness_OnlyTheNamedCommandsChangeTheFilter :
    filt.Inv ∧ filt.mode = .filter ∧ vec.mode = .vector ∧
    (∃ t, exec .bfClear filt = .next t ∧ t.store ≠ filt.store) ∧
    (∃ t, exec .bvNew filt = .next t ∧ t.k ≠ filt.k ∧ t.mode = .vector ∧ t.nbits.toNat < filt.nbits.toNat) ∧
    (∃ t, exec .bfConfig (on vec .bfConfig [1#64, 1#64]) = .next t ∧ t.mode = .filter) ∧
    ∃ t, exec (.bvPush false) vec = .next t ∧ t.nbits ≠ vec.nbits :=
  ⟨witness_filt_inv, rfl, rfl, ⟨_, rfl, by decide⟩, ⟨_, rfl, by decide, rfl, by decide⟩, ⟨_, rfl, rfl⟩,
   ⟨_, rfl, by decide⟩⟩
theorem witness_EveryCommandLeavesTheTailClean :
    vec.Inv ∧ (∃ t, exec .bvNegate vec = .next t ∧ t.nbits.toNat % t.W ≠ 0 ∧ t.nbits.toNat % t.W ≤ 5) :=
  ⟨witness_vec_inv, _, rfl, by decide, by decide⟩
theorem witness_SetThenGetRoundTrips :
    vec.Inv ∧ vec.ready = true ∧ vec.mode = .vector ∧ (36#64).toNat < vec.nbits.toNat :=
  ⟨witness_vec_inv, by decide, rfl, by decide⟩
theorem witness_PushesGrowTheContainer :
    (zeros 0#64 0#64).Inv ∧ (zeros 0#64 0#64).ready = true ∧ (zeros 0#64 0#64).mode = .vector ∧
    (zeros 0#64 0#64).nbits = 0#64 ∧ [true, false].length ≤ State.reset.params.nbitsMax.toNat := by
  refine ⟨⟨by decide, by decide, fun w => Nat.two_pow_pos _, fun _ _ => rfl, by decide, by decide, by decide,
    fun _ => rfl, nofun, nofun, fun _ => rfl, nofun, fun _ => ⟨rfl, rfl⟩, nofun, fun h => absurd h (by decide)⟩,
    by decide, rfl, rfl, by decide⟩
theorem witness_FromElemLeavesTheTailClean :
    Memory.wf vec.store = true ∧ (on vec (.bvFromElem true) [37#64]).a0.toNat ≤ vec.params.nbitsMax.toNat ∧
    (on vec (.bvFromElem true) [37#64]).a0.toNat % vec.W ≠ 0 := by decide
/-- In either mode, at the last bit and at the end. -/
theorem witness_IterationYieldsEveryBitInOrder :
    vec.Inv ∧ vec.ready = true ∧ 36 < vec.nbits.toNat ∧ vec.nbits.toNat ≤ 37 ∧ filt.Inv ∧ filt.ready = true :=
  ⟨witness_vec_inv, by decide, by decide, by decide, witness_filt_inv, by decide⟩
theorem witness_InsertedDigestIsAlwaysFound :
    filt.Inv ∧ filt.ready = true ∧ filt.mode = .filter ∧
    ∀ c, c ∈ [({ instr := .bfQuery, args := [7#64] } : Command)] ++ [{ instr := .bfInsert, args := [9#64] }] →
      ∃ x : Word, c = { instr := .bfInsert, args := [x] } ∨ c = { instr := .bfQuery, args := [x] } := by
  refine ⟨witness_filt_inv, by decide, rfl, fun c h => ?_⟩
  simp only [List.cons_append, List.nil_append, List.mem_cons, List.not_mem_nil, or_false] at h
  rcases h with rfl | rfl
  · exact ⟨7#64, .inr rfl⟩
  · exact ⟨9#64, .inl rfl⟩
theorem witness_QueryAfterClearAnswersAbsent : filt.Inv ∧ filt.ready = true ∧ filt.mode = .filter :=
  ⟨witness_filt_inv, by decide, rfl⟩
theorem witness_EqualFiltersEquallyFedAgree :
    vec.Inv ∧ filt.Inv ∧ vec.ready = true ∧ filt.ready = true ∧ vec.params.width = filt.params.width ∧
    vec.params.nbitsMax = filt.params.nbitsMax ∧ 1 ≤ (4096#64).toNat ∧ (4096#64).toNat ≤ vec.params.nbitsMax.toNat ∧
    1 ≤ (64#64).toNat ∧ (64#64).toNat ≤ vec.params.kMax.toNat ∧ (64#64).toNat ≤ filt.params.kMax.toNat ∧
    vec.params.kMax = filt.params.kMax :=
  ⟨witness_vec_inv, witness_filt_inv, by decide, by decide, rfl, rfl, by decide, by decide, by decide, by decide,
   by decide, rfl⟩
/-- The other state holds the dead words 2 and 127. -/
theorem witness_DeadWordsAreUnobservable :
    let s := on vec .bvReadWord [1#64]
    let t := { s with store := [(0, 0xFFFFFFFF#64), (1, 0x1F#64), (2, 0x5#64), (127, 0x80000000#64)] }
    s.Inv ∧ Memory.wf t.store = true ∧ s.sameButDead t ∧ t ≠ s ∧ ∃ s', step s = .next s' := by
  refine ⟨issued_inv witness_vec_inv _, by decide, ⟨rfl, fun w h => ?_⟩, by decide, _, rfl⟩
  change w < 2 at h
  match w with
  | 0 => rfl
  | 1 => rfl
  | n + 2 => omega
theorem witness_HostReadReturnsTheRegister : filt.inFlight = none ∧ faulted.inFlight = none := by decide
theorem witness_HostReadDuringACommand : busyVec.inFlight ≠ none := by decide
/-- A wrong width, a misaligned offset, the first and the last reserved offset; recorded and not. -/
theorem witness_IllegalAccessOnlyRaisesErrBus :
    (0x00#64).toNat < 0x100 ∧ 4#64 ≠ 8#64 ∧ (0x04#64).toNat % 8 ≠ 0 ∧ 0x88 ≤ (0x88#64).toNat ∧
    (0xFF#64).toNat < 0x100 ∧ 0x18#64 ∈ [0x18#64] ∧ vec.fault = none ∧ faulted.fault ≠ none := by decide
theorem witness_WriteDuringACommandOnlyRaisesErrBusy :
    busyVec.inFlight ≠ none ∧ busyVec.fault = none ∧ ({ busyVec with fault := some .errBus } : State).fault ≠ none := by
  decide
theorem witness_IdleWritesStoreOperandsAndIssueCommands :
    vec.inFlight = none ∧ vec.fault = none ∧ faulted.inFlight = none ∧ faulted.fault ≠ none := by decide
/-- An access in the window while a command is in flight, and one at the first offset outside it. -/
theorem witness_HostAccessNeverTouchesTheStorage :
    let s := { busyVec with pending := [.write 0x08#64 8#64 1#64, .engine] }
    let e := Event.write 0x08#64 8#64 1#64
    e ≠ .engine ∧ isResetEvent e = false ∧ s.pending = e :: [.engine] ∧ (∃ t, step s = .next t) ∧ s.inFlight ≠ none ∧
    0x100 ≤ (0x100#64).toNat ∧ isResetEvent (.read 0x100#64 8#64) = false ∧
    ∃ t, step { vec with pending := [.read 0x100#64 8#64] } = .next t :=
  ⟨by decide, by decide, rfl, ⟨_, rfl⟩, by decide, by decide, by decide, ⟨_, rfl⟩⟩
theorem witness_EitherFaultMayBeTheOneRecorded :
    (on vec (.bvSet true) [37#64]).fault = none ∧ (on vec (.bvSet true) [37#64]).inFlight ≠ none ∧
    ∃ t, engineTurn (on vec (.bvSet true) [37#64]) = .next t ∧ t.fault = some .errRange :=
  ⟨rfl, by decide, _, rfl, rfl⟩
theorem witness_ExpansionRunsTheCommandAtAnyLatency :
    let c : Command := { instr := .bfConfig, args := [624#64, 5#64] }
    let s := { vec with pending := commandEvents c 3 ++ [Event.rst] }
    c.wf = true ∧ s.inFlight = none ∧ s.fault = none ∧ s.pending = commandEvents c 3 ++ [Event.rst] :=
  ⟨by decide, rfl, rfl, rfl⟩
/-- A ready state before two commands of which the second faults, one before a poll, and one with no event. -/
theorem witness_BusyAlwaysFalls :
    let prog : List (Command × Nat) :=
      [({ instr := .bvGet, args := [36#64] }, 2), ({ instr := .bvSet true, args := [37#64] }, 0)]
    let s := { vec with pending := programEvents prog }
    s.ready = true ∧ (∀ x, x ∈ prog → x.1.wf = true) ∧ s.pending = programEvents prog ∧
    (∃ t, runProgram (prog.map Prod.fst) vec = .next t ∧ t.fault ≠ none) ∧
    (∃ t, runProgram ((prog.take 1).map Prod.fst) vec = .next t ∧ t.fault = none) ∧
    ({ busyVec with pending := Item.wait.events 3 ++ [Event.rst] } : State).pending = Item.wait.events 3 ++ [.rst] :=
  ⟨by decide, by decide, rfl, ⟨_, rfl, by decide⟩, ⟨_, rfl, rfl⟩, rfl⟩
theorem witness_SizeGivesAtLeastOneBitAndOneProbe : SizePre 1 (1 / 2) ∧ IsSize 1 (1 / 2) 2 2 :=
  ⟨test_size.1, test_size⟩
/-- A host that evaluates SIZE exactly, whose `bf.create 1, 1/2` is `bf.config 2, 2` (row SZ-3). -/
theorem witness_exact_host : ∃ host : AsmHost, host.params = Config.params ∧ host.SizesExactly ∧
    assembleCreate host 1 { num := 1, den := 2 } =
      .ok (.command { instr := .bfConfig, args := [2#64, 2#64] }) := by
  obtain ⟨size, hsize⟩ : ∃ size : Nat → Rate → Nat × Nat, ∀ capacity (rate : Rate) (x : ℝ), rate.Denotes x →
      SizePre capacity x → IsSize capacity x (size capacity rate).1 (size capacity rate).2 := by
    refine ⟨fun capacity rate =>
      let m := ⌈(capacity : ℝ) * |Real.log ((rate.num : ℝ) / rate.den)| / Real.log 2 ^ 2⌉.toNat
      (m, ⌈(m : ℝ) * Real.log 2 / (capacity : ℝ)⌉.toNat), fun capacity rate x hx hpre => ⟨hpre, ?_, ?_⟩⟩
    all_goals
      subst hx
      exact Int.toNat_of_nonneg (Int.ceil_nonneg (by positivity))
  refine ⟨{ params := Config.params, hash := fun _ => 0#64, size := size }, rfl, hsize, ?_⟩
  have h := hsize 1 { num := 1, den := 2 } (1 / 2) (by norm_num [Rate.Denotes]) test_size.1
  have h1 : (size 1 { num := 1, den := 2 }).1 = 2 := by exact_mod_cast h.2.1.trans test_size.2.1.symm
  have h2 : (size 1 { num := 1, den := 2 }).2 = 2 := by
    have h3 := h.2.2
    rw [h1] at h3
    exact_mod_cast h3.trans test_size.2.2.symm
  have hb : 2 ≤ Config.params.nbitsMax.toNat ∧ 2 ≤ Config.params.kMax.toNat := by decide
  simp [assembleCreate, Rate.valid, h1, h2, hb]
theorem witness_CreatedFilterIsNeverRefused :
    (∃ (host : AsmHost) (rate : Rate) (x : ℝ), host.SizesExactly ∧ rate.Denotes x ∧ SizePre 1 x) ∧
    vec.ready = true ∧ IsSize 1 (1 / 2) 2 2 ∧
    CreateEmits vec.params 1 (1 / 2) { instr := .bfConfig, args := [2#64, 2#64] } :=
  ⟨witness_exact_host.imp fun _ h => ⟨{ num := 1, den := 2 }, 1 / 2, h.2.1, by norm_num [Rate.Denotes], test_size.1⟩,
   by decide, test_size, 2, 2, test_size, by decide, by decide, rfl⟩

end Sys2Proof.Tests
end

section
/-! SUPPORT. The invariant of the state through every operation a step is made of: the bit storage, a command's
completion or fault, a host access, a reset. -/

namespace Sys2Proof.Machine

/-! The store -/

theorem ceilDiv_succ {n b : Nat} (hb : 0 < b) : ceilDiv (n + 1) b = n / b + 1 := by
  rw [ceilDiv, ← Nat.add_div_right n hb]
  congr 1
  omega

theorem ceilDiv_of_mod_ne_zero {n b : Nat} (hb : 0 < b) (h : n % b ≠ 0) : ceilDiv n b = n / b + 1 := by
  have hle : ceilDiv n b ≤ n / b + 1 := ceilDiv_succ hb ▸ ceilDiv_mono hb (Nat.le_succ n)
  have hlt : n / b < ceilDiv n b := by
    rw [lt_ceilDiv hb, Nat.mul_comm]
    have := Nat.div_add_mod n b
    omega
  omega

/-- Bit `b` of word `w` may be 1 in a store of length `n`: it is a bit of a physical word (10_state.md R37), and in the
last live word a live position (R39). -/
def MayBeOne (p : Params) (n w b : Nat) : Prop :=
  b < p.W ∧ w < p.nwMax ∧ (w + 1 = ceilDiv n p.W → w * p.W + b < n)

theorem mayBeOne_of_live {p : Params} {n i : Nat} (hn : n ≤ p.nbitsMax.toNat) (hi : i < n) :
    MayBeOne p n (i / p.W) (i % p.W) := by
  refine ⟨Nat.mod_lt _ (Params.W_pos p), ?_, fun _ => ?_⟩
  · exact Nat.lt_of_lt_of_le (div_lt_ceilDiv (Params.W_pos p) hi) (ceilDiv_mono (Params.W_pos p) hn)
  · rwa [Nat.mul_comm, Nat.div_add_mod]

namespace Memory

/-- A 1 bit after `BitSet(i, v)` is bit i or was 1 before. -/
theorem one_of_setBit {m : Memory} (hm : wf m = true) {W : Nat} (hW : W ≤ 64) (hpos : 0 < W) {i w b : Nat} {v : Bool}
    (h : (word (setBit W m i v) w).getLsbD b = true) :
    (w = i / W ∧ b = i % W) ∨ (word m w).getLsbD b = true := by
  rw [word_setBit hm] at h
  split at h
  · rename_i hw
    rw [getLsbD_withBit _ (Nat.lt_of_lt_of_le (Nat.mod_lt i hpos) hW)] at h
    split at h
    · rename_i hb
      exact .inl ⟨hw, hb⟩
    · exact .inr h
  · exact .inr h

/-- The clauses of the invariant about STORE, for the length `n`. -/
structure Fits (p : Params) (n : Nat) (m : Memory) : Prop where
  wf   : wf m = true
  bits : ∀ w b, (word m w).getLsbD b = true → MayBeOne p n w b

namespace Fits

variable {p : Params} {n : Nat} {m : Memory}

/-- With length 0 no word is live, so any words may stand. -/
theorem empty (h : Fits p n m) : Fits p 0 m := by
  refine ⟨h.wf, fun w b hb => ?_⟩
  obtain ⟨hW, hw, -⟩ := h.bits w b hb
  refine ⟨hW, hw, fun hl => ?_⟩
  rw [ceilDiv_zero (Params.W_pos p)] at hl
  omega

theorem setBit (h : Fits p n m) (hn : n ≤ p.nbitsMax.toNat) {i : Nat} (hi : i < n) (v : Bool) :
    Fits p n (setBit p.W m i v) := by
  refine ⟨wf_setBit h.wf _ _ _, fun w b hb => ?_⟩
  rcases one_of_setBit h.wf (Params.W_le p) (Params.W_pos p) hb with ⟨rfl, rfl⟩ | hb
  · exact mayBeOne_of_live hn hi
  · exact h.bits w b hb

theorem setProbes (h : Fits p n m) (hn : n ≤ p.nbitsMax.toNat) (hpos : 0 < n) (d : Word) (k : Nat) :
    Fits p n (setProbes p.W n d k m) := by
  induction k with
  | zero => exact h
  | succ k ih => exact ih.setBit hn (probeIndex_lt hpos d k) true

/-- The live words of a new length, zeroed. -/
theorem zeroWords (h : Fits p n m) (n' : Nat) : Fits p n' (zeroWords (ceilDiv n' p.W) m) := by
  refine ⟨wf_zeroWords h.wf _, fun w b hb => ?_⟩
  rw [word_zeroWords] at hb
  split at hb
  · simp at hb
  · obtain ⟨hW, hw, -⟩ := h.bits w b hb
    exact ⟨hW, hw, fun hl => by omega⟩

/-- The live words of a new length, mapped to W-bit words and the tail masked. -/
theorem mapWords (h : Fits p n m) {n' : Nat} (hn : n' ≤ p.nbitsMax.toNat) {f : Word → Word}
    (hf : ∀ x b, (f x).getLsbD b = true → b < p.W) :
    Fits p n' (maskTail p.W n' (mapWords (ceilDiv n' p.W) f m)) := by
  have hwf := wf_mapWords h.wf (ceilDiv n' p.W) f
  refine ⟨wf_maskTail hwf _ _, fun w b hb => ?_⟩
  have hmono : ceilDiv n' p.W ≤ p.nwMax := ceilDiv_mono (Params.W_pos p) hn
  rw [word_maskTail hwf, word_mapWords] at hb
  split at hb
  · rename_i hl
    rw [BitVec.getLsbD_and, getLsbD_tailMask_last (Params.W_le p) (Params.W_pos p) hl] at hb
    simp only [Bool.and_eq_true, decide_eq_true_eq] at hb
    exact ⟨hb.2.1, by omega, fun _ => hb.2.2⟩
  · rename_i hl
    split at hb
    · exact ⟨hf _ _ hb, by omega, fun h => absurd h hl⟩
    · obtain ⟨hW, hw, -⟩ := h.bits w b hb
      exact ⟨hW, hw, fun h => absurd h hl⟩

theorem fill (h : Fits p n m) {n' : Nat} (hn : n' ≤ p.nbitsMax.toNat) (v : Bool) : Fits p n' (fill p.W n' v m) := by
  cases v with
  | false => exact h.zeroWords n'
  | true => exact h.mapWords hn fun _ _ hb => by simpa [getLsbD_ones (Params.W_le p)] using hb

/-- A length one greater, its last word zeroed where it is new (40_bitvector.md R117). -/
theorem grow (h : Fits p n m) :
    Fits p (n + 1) (if n % p.W = 0 then setWord m (n / p.W) 0#64 else m) := by
  split
  · refine ⟨wf_setWord h.wf _ _, fun w b hb => ?_⟩
    rw [word_setWord h.wf] at hb
    split at hb
    · simp at hb
    · obtain ⟨hW, hw, -⟩ := h.bits w b hb
      exact ⟨hW, hw, fun hl => by rw [ceilDiv_succ (Params.W_pos p)] at hl; omega⟩
  · rename_i hr
    refine ⟨h.wf, fun w b hb => ?_⟩
    obtain ⟨hW, hw, ht⟩ := h.bits w b hb
    refine ⟨hW, hw, fun hl => Nat.lt_succ_of_lt (ht ?_)⟩
    rw [hl, ceilDiv_succ (Params.W_pos p), ceilDiv_of_mod_ne_zero (Params.W_pos p) hr]

end Fits

end Memory

namespace State.Inv

variable {s : State}

theorem fits (h : s.Inv) : Memory.Fits s.params s.nbits.toNat s.store := by
  refine ⟨h.storeWf, fun w b hb => ⟨toNat_lt_iff_bits.1 (h.wordFits w) b hb, ?_, fun hl => ?_⟩⟩
  · by_contra hw
    have hz : Memory.word s.store w = 0#64 := h.storeBound w (Nat.le_of_not_lt hw)
    simp [hz] at hb
  · exact (tail_iff.1 h.tailClean w hl b hb).2

/-- A filter has a position (00_scope.md R6). -/
theorem nbits_pos (h : s.Inv) (hf : s.mode = .filter) : 0 < s.nbits.toNat :=
  have ⟨_, _, hn⟩ := h.filterK hf
  hn

/-! A command's effect and its end -/

/-- What every command that shapes the container keeps: new words that fit the new length, K as the new mode has it, and
no iteration open. -/
theorem reshape (h : s.Inv) {m : Memory} {n c k : Word} {md : Mode} (hm : Memory.Fits s.params n.toNat m)
    (hn : n.toNat ≤ s.params.nbitsMax.toNat) (hlo : ceilDiv n.toNat s.W ≤ c.toNat) (hhi : c.toNat ≤ s.params.nwMax)
    (hv : md = .vector → k = 0#64)
    (hf : md = .filter → 1 ≤ k.toNat ∧ k.toNat ≤ s.params.kMax.toNat ∧ 1 ≤ n.toNat) :
    ({ s with store := m, nbits := n, capwords := c, k := k, mode := md }.closeIter).Inv :=
  { h with
    storeWf := hm.wf
    wordFits := fun w => toNat_lt_iff_bits.2 fun b hb => (hm.bits w b hb).1
    storeBound := fun w hw => BitVec.eq_of_getLsbD_eq fun b _ => by
      cases hb : (Memory.word m w).getLsbD b with
      | false => rw [BitVec.getLsbD_zero]; exact hb
      | true => exact absurd (hm.bits w b hb).2.1 (Nat.not_lt.2 hw)
    nbitsBound := hn
    capwordsLower := hlo
    capwordsUpper := hhi
    vectorK := hv
    filterK := hf
    iterBound := nofun
    iterClosed := fun _ => rfl
    tailClean := tail_iff.2 fun w hw b hb =>
      have ⟨hW, _, ht⟩ := hm.bits w b hb
      ⟨hW, ht hw⟩ }

/-- A container of length 0, and no filter. -/
theorem empty (h : s.Inv) :
    ({ s with nbits := 0#64, capwords := 0#64, mode := .vector, k := 0#64 }.closeIter).Inv :=
  h.reshape h.fits.empty (Nat.zero_le _) (ceilDiv_zero s.W_pos).le (Nat.zero_le _) (fun _ => rfl) nofun

/-- What every command that only writes words keeps. -/
theorem restore (h : s.Inv) {m : Memory} (hm : Memory.Fits s.params s.nbits.toNat m) :
    ({ s with store := m }.closeIter).Inv :=
  h.reshape hm h.nbitsBound h.capwordsLower h.capwordsUpper h.vectorK h.filterK

/-- An open iteration stands at a position up to the length (10_state.md R34). -/
theorem iterate (h : s.Inv) {active : Bool} {p : Word} (ha : active = true) (hp : p.toNat ≤ s.nbits.toNat) :
    { s with iterActive := active, iterPos := p }.Inv :=
  { h with iterBound := fun _ => hp, iterClosed := fun hc => absurd (ha.symm.trans hc) nofun }

theorem completed (h : s.Inv) {r : Word} {absent : Bool} (hr : absent = true → r = 0#64) :
    (s.completed r absent).Inv :=
  { h with noneResult := hr, inFlightRegs := nofun }

theorem recordFault (h : s.Inv) (code : FaultCode) (x y : Word) : (s.recordFault code x y).Inv :=
  { h with
    noFaultInfo := fun hn => by
      cases hf : s.fault with
      | none => simp [hf] at hn
      | some _ => simp [hf] at hn }

theorem faulted (h : s.Inv) (code : FaultCode) : (s.faulted code).Inv :=
  { h.recordFault code s.current.c s.current.a0 with inFlightRegs := nofun }

/-! Host accesses and reset -/

theorem replying (h : s.Inv) (v : Option Word) : (s.replying v).Inv := { h with }

theorem accepted (h : s.Inv) (c : Word) : (s.accepted c).Inv :=
  { h with inFlightRegs := fun f hf => by cases hf; exact ⟨rfl, rfl, rfl⟩ }

/-- With no command in flight the operand registers are free (42_host.md R206). -/
theorem withArgs (h : s.Inv) (hi : s.inFlight = none) (x y : Word) : { s with arg0 := x, arg1 := y }.Inv :=
  { h with inFlightRegs := fun f hf => by simp [hi] at hf }

theorem afterReset (h : s.Inv) : s.afterReset.Inv :=
  { h.empty with noneResult := nofun, noFaultInfo := fun _ => ⟨rfl, rfl⟩, inFlightRegs := nofun }

end State.Inv

/-! Commands -/

/-- The answer of a command from `s` keeps the invariant: a next state that meets it, with the same parameters. -/
def KeepsInv (s : State) (x : Result) : Prop := ∃ t, x = .next t ∧ t.Inv ∧ t.params = s.params

section

variable {s u : State} {x y : Result}

theorem keepsInv_raiseFault (h : s.Inv) (code : FaultCode) : KeepsInv s (raiseFault code s) :=
  ⟨_, rfl, h.faulted code, rfl⟩

theorem keepsInv_complete (r : Word) (h : u.Inv) (hp : u.params = s.params) : KeepsInv s (complete r false u) :=
  ⟨_, rfl, h.completed nofun, hp⟩

/-- "Absent" answers 0 (10_state.md R31). -/
theorem keepsInv_absent (h : s.Inv) : KeepsInv s (complete 0#64 true s) :=
  ⟨_, rfl, h.completed fun _ => rfl, rfl⟩

theorem keepsInv_inLegalMode {i : Instr} (h : s.Inv) (hx : legalInMode i s.mode = true → KeepsInv s x) :
    KeepsInv s (inLegalMode i s x) := by
  rcases inLegalMode_cases i s x with ⟨hl, he⟩ | ⟨-, he⟩
  · rw [he]; exact hx hl
  · rw [he]; exact keepsInv_raiseFault h .errMode

theorem keepsInv_ite {c : Prop} [Decidable c] (hx : c → KeepsInv s x) (hy : ¬c → KeepsInv s y) :
    KeepsInv s (if c then x else y) := by
  split
  · exact hx ‹_›
  · exact hy ‹_›

/-- A query leaves the state. -/
theorem keepsInv_query {i : Instr} (r : Word) (h : s.Inv) : KeepsInv s (inLegalMode i s (complete r false s)) :=
  keepsInv_inLegalMode h fun _ => keepsInv_complete r h rfl

/-- A read at a position that may be past the end. -/
theorem keepsInv_read {i : Instr} (r : Word) (absent : Bool) (h : s.Inv) :
    KeepsInv s (inLegalMode i s (complete (if absent then 0#64 else r) absent s)) :=
  keepsInv_inLegalMode h fun _ => by
    cases absent with
    | false => exact keepsInv_complete r h rfl
    | true => exact keepsInv_absent h

/-- A command that only writes words and closes the iteration. -/
theorem keepsInv_write {i : Instr} {m : Memory} (h : s.Inv)
    (hm : legalInMode i s.mode = true → Memory.Fits s.params s.nbits.toNat m) :
    KeepsInv s (inLegalMode i s (complete 0#64 false { s with store := m }.closeIter)) :=
  keepsInv_inLegalMode h fun hl => keepsInv_complete 0#64 (h.restore (hm hl)) rfl

end

/-- A number of words up to NW_MAX is a register value. -/
theorem toNat_ofNat_of_le_nwMax {p : Params} {n : Nat} (h : n ≤ p.nwMax) : (BitVec.ofNat 64 n).toNat = n := by
  have hmax : p.nwMax ≤ p.nbitsMax.toNat := ceilDiv_le_self (Params.W_pos p)
  exact Nat.mod_eq_of_lt (by omega)

theorem keepsInv_bvNew {s : State} (h : s.Inv) : KeepsInv s (execBvNew s) :=
  keepsInv_inLegalMode h fun _ => keepsInv_complete _ h.empty rfl

theorem keepsInv_bvFromElem {s : State} (h : s.Inv) (v : Bool) : KeepsInv s (execBvFromElem v s) :=
  keepsInv_inLegalMode h fun _ => keepsInv_ite (fun _ => keepsInv_raiseFault h _) fun hn => by
    have hle : s.a0.toNat ≤ s.params.nbitsMax.toNat := Nat.le_of_not_lt hn
    have hc : ceilDiv s.a0.toNat s.W ≤ s.params.nwMax := ceilDiv_mono s.W_pos hle
    have hcap := toNat_ofNat_of_le_nwMax hc
    exact keepsInv_complete _
      (h.reshape (h.fits.fill hle v) hle hcap.ge (hcap.trans_le hc) (fun _ => rfl) nofun) rfl

theorem keepsInv_bvPush {s : State} (h : s.Inv) (v : Bool) : KeepsInv s (execBvPush v s) :=
  keepsInv_inLegalMode h fun hl => keepsInv_ite (fun _ => keepsInv_raiseFault h _) fun hn => by
    have hm : s.mode = .vector := by simpa [legalInMode] using hl
    have hle : s.nbits.toNat + 1 ≤ s.params.nbitsMax.toNat := by have := h.nbitsBound; omega
    have hlen : (BitVec.ofNat 64 (s.nbits.toNat + 1)).toNat = s.nbits.toNat + 1 := Nat.mod_eq_of_lt (by omega)
    have hc : max s.capwords.toNat (ceilDiv (s.nbits.toNat + 1) s.W) ≤ s.params.nwMax :=
      max_le h.capwordsUpper (ceilDiv_mono s.W_pos hle)
    have hcap := toNat_ofNat_of_le_nwMax hc
    exact keepsInv_complete _
      (h.reshape (by rw [hlen]; exact h.fits.grow.setBit hle (Nat.lt_succ_self _) v) (hlen.trans_le hle)
        (by rw [hlen, hcap]; exact le_max_right _ _) (hcap.trans_le hc) h.vectorK
        fun hf => by rw [hm] at hf; cases hf) rfl

theorem keepsInv_bvReserve {s : State} (h : s.Inv) : KeepsInv s (execBvReserve s) :=
  keepsInv_inLegalMode h fun _ => keepsInv_ite (fun _ => keepsInv_raiseFault h _) fun hn => by
    have hc : max s.capwords.toNat (ceilDiv (s.nbits.toNat + s.a0.toNat) s.W) ≤ s.params.nwMax :=
      max_le h.capwordsUpper (ceilDiv_mono s.W_pos (Nat.le_of_not_lt hn))
    have hcap := toNat_ofNat_of_le_nwMax hc
    exact keepsInv_complete _
      (h.reshape h.fits h.nbitsBound (h.capwordsLower.trans ((le_max_left _ _).trans hcap.ge)) (hcap.trans_le hc)
        h.vectorK h.filterK) rfl

theorem keepsInv_bvIterNext {s : State} (h : s.Inv) : KeepsInv s (execBvIterNext s) :=
  keepsInv_inLegalMode h fun _ => keepsInv_ite
    (fun ha => keepsInv_ite (fun _ => keepsInv_absent h) fun hp => by
      have hlt : s.iterPos.toNat < s.nbits.toNat := by simpa [absentFlag] using hp
      have hpos : (BitVec.ofNat 64 (s.iterPos.toNat + 1)).toNat = s.iterPos.toNat + 1 := Nat.mod_eq_of_lt (by omega)
      exact keepsInv_complete _ (h.iterate ha (hpos.trans_le hlt)) rfl)
    fun _ => keepsInv_raiseFault h _

theorem keepsInv_bfConfig {s : State} (h : s.Inv) : KeepsInv s (execBfConfig s) :=
  keepsInv_inLegalMode h fun _ => keepsInv_ite (fun _ => keepsInv_raiseFault h _) fun hn => by
    obtain ⟨hm, hmax, hk, hkmax⟩ : s.a0.toNat ≠ 0 ∧ s.a0.toNat ≤ s.params.nbitsMax.toNat ∧ s.a1.toNat ≠ 0 ∧
        s.a1.toNat ≤ s.params.kMax.toNat := by simpa only [not_or, Nat.not_lt] using hn
    have hc : ceilDiv s.a0.toNat s.W ≤ s.params.nwMax := ceilDiv_mono s.W_pos hmax
    have hcap := toNat_ofNat_of_le_nwMax hc
    exact keepsInv_complete _
      (h.reshape (h.fits.zeroWords _) hmax hcap.ge (hcap.trans_le hc) nofun fun _ =>
        ⟨Nat.pos_of_ne_zero hk, hkmax, Nat.pos_of_ne_zero hm⟩) rfl

/-- Every command keeps the invariant. -/
theorem keepsInv_exec {s : State} (h : s.Inv) : ∀ i : Instr, KeepsInv s (exec i s)
  | .bvNew => keepsInv_bvNew h
  | .bvFromElem v => keepsInv_bvFromElem h v
  | .bvLen => show KeepsInv s (execBvLen s) from keepsInv_query _ h
  | .bvIsEmpty => show KeepsInv s (execBvIsEmpty s) from keepsInv_query _ h
  | .bvGet => show KeepsInv s (execBvGet s) from keepsInv_read _ _ h
  | .bvSet v => keepsInv_inLegalMode h fun _ => keepsInv_ite (fun _ => keepsInv_raiseFault h _) fun hi =>
      keepsInv_complete _ (h.restore (h.fits.setBit h.nbitsBound (Nat.lt_of_not_le hi) v)) rfl
  | .bvPush v => keepsInv_bvPush h v
  | .bvClear => keepsInv_write h fun _ => h.fits.zeroWords _
  | .bvSetAll => keepsInv_write h fun _ => h.fits.fill h.nbitsBound true
  | .bvNegate => keepsInv_write h fun _ => h.fits.mapWords h.nbitsBound fun _ _ hb => by
      rw [BitVec.getLsbD_and, Bool.and_eq_true, getLsbD_ones s.W_le, decide_eq_true_eq] at hb
      exact hb.2
  | .bvReserve => keepsInv_bvReserve h
  | .bvReadWord => show KeepsInv s (execBvReadWord s) from keepsInv_read _ _ h
  | .bvIterStart => show KeepsInv s (execBvIterStart s) from keepsInv_inLegalMode h fun _ =>
      keepsInv_complete _ (h.iterate (p := 0#64) rfl (Nat.zero_le _)) rfl
  | .bvIterNext => keepsInv_bvIterNext h
  | .bfConfig => keepsInv_bfConfig h
  | .bfInsert => keepsInv_write h fun hl =>
      h.fits.setProbes h.nbitsBound (h.nbits_pos (by simpa [legalInMode] using hl)) _ _
  | .bfQuery => show KeepsInv s (execBfQuery s) from keepsInv_query _ h
  | .bfClear => keepsInv_write h fun _ => h.fits.zeroWords _
  | .bfIndex => keepsInv_inLegalMode h fun _ => keepsInv_ite (fun _ => keepsInv_raiseFault h _) fun _ =>
      keepsInv_complete _ h rfl

/-! Events -/

theorem keepsInv_engineTurn {s : State} (h : s.Inv) : KeepsInv s (engineTurn s) := by
  rcases engineTurn_cases s with ⟨-, he⟩ | ⟨f, -, ⟨why, -, he⟩ | ⟨i, -, he⟩⟩
  · rw [he]; exact ⟨s, rfl, h, rfl⟩
  · rw [he]; exact keepsInv_raiseFault h .errIllegal
  · rw [he]; exact keepsInv_exec h i

/-- All a host read can do: give the host a value, and besides record ERR_BUS or take a draw (20_memory.md R64, R65,
42_host.md R205). -/
theorem hostRead_cases (s : State) (addr n : Word) :
    (∃ v, s.hostRead addr n = s.replying v) ∨
    (∃ v, s.hostRead addr n = (s.recordFault .errBus addr n).replying v) ∨
    (∃ v, s.hostRead addr n = { s.replying v with draws := s.draws + 1 }) := by
  unfold State.hostRead
  split
  · exact .inl ⟨_, rfl⟩
  · split
    · exact .inr (.inl ⟨_, rfl⟩)
    · split
      · exact .inr (.inr ⟨_, rfl⟩)
      · exact .inl ⟨_, rfl⟩

/-- All a write to a register can do: nothing, record a fault, reset, or with no command in flight write an operand
register or have a command accepted (42_host.md R201 to R206). -/
theorem writeReg_cases (s : State) (r : Reg) (addr n v : Word) :
    s.writeReg r addr n v = s ∨
    (∃ code info1, s.writeReg r addr n v = s.recordFault code addr info1) ∨
    s.writeReg r addr n v = s.afterReset ∨
    (s.inFlight = none ∧
      ((∃ x y, s.writeReg r addr n v = { s with arg0 := x, arg1 := y }) ∨ s.writeReg r addr n v = s.accepted v)) := by
  cases r with
  | cmd =>
    cases hb : s.busy with
    | true => exact .inr (.inl ⟨_, _, if_pos hb⟩)
    | false =>
      cases hf : s.fault.isSome with
      | true => exact .inl (by simp [State.writeReg, State.writeCmd, hb, hf])
      | false =>
        exact .inr (.inr (.inr ⟨State.busy_eq_false.1 hb, .inr (by simp [State.writeReg, State.writeCmd, hb, hf])⟩))
  | arg0 =>
    cases hb : s.busy with
    | true => exact .inr (.inl ⟨_, _, if_pos hb⟩)
    | false => exact .inr (.inr (.inr ⟨State.busy_eq_false.1 hb, .inl ⟨_, _, if_neg (ne_true_of_eq_false hb)⟩⟩))
  | arg1 =>
    cases hb : s.busy with
    | true => exact .inr (.inl ⟨_, _, if_pos hb⟩)
    | false => exact .inr (.inr (.inr ⟨State.busy_eq_false.1 hb, .inl ⟨_, _, if_neg (ne_true_of_eq_false hb)⟩⟩))
  | ctrl =>
    by_cases h1 : v = 1#64
    · exact .inr (.inr (.inl (if_pos h1)))
    · by_cases h0 : v = 0#64
      · exact .inl ((if_neg h1).trans (if_pos h0))
      · exact .inr (.inl ⟨_, _, (if_neg h1).trans (if_neg h0)⟩)
  | _ => exact .inr (.inl ⟨_, _, rfl⟩)

theorem keepsInv_hostRead {s : State} (h : s.Inv) (addr n : Word) : KeepsInv s (.next (s.hostRead addr n)) := by
  rcases hostRead_cases s addr n with ⟨v, he⟩ | ⟨v, he⟩ | ⟨v, he⟩
  · rw [he]; exact ⟨_, rfl, h.replying v, rfl⟩
  · rw [he]; exact ⟨_, rfl, (h.recordFault .errBus addr n).replying v, rfl⟩
  · rw [he]; exact ⟨_, rfl, { h with }, rfl⟩

theorem writeReg_inv {s : State} (h : s.Inv) (r : Reg) (addr n v : Word) :
    (s.writeReg r addr n v).Inv ∧ (s.writeReg r addr n v).params = s.params := by
  rcases writeReg_cases s r addr n v with he | ⟨code, info1, he⟩ | he | ⟨hi, ⟨x, y, he⟩ | he⟩
  · rw [he]; exact ⟨h, rfl⟩
  · rw [he]; exact ⟨h.recordFault code addr info1, rfl⟩
  · rw [he]; exact ⟨h.afterReset, rfl⟩
  · rw [he]; exact ⟨h.withArgs hi x y, rfl⟩
  · rw [he]; exact ⟨h.accepted v, rfl⟩

/-- All a host write can do: nothing, ERR_BUS, or the write of a register (42_host.md R204). -/
theorem hostWrite_cases (s : State) (addr n v : Word) :
    s.hostWrite addr n v = s.replying none ∨
    s.hostWrite addr n v = (s.busWriteFault addr n).replying none ∨
    ∃ r, s.hostWrite addr n v = (s.writeReg r addr n v).replying none := by
  unfold State.hostWrite
  split
  · exact .inl rfl
  · split
    · exact .inr (.inl rfl)
    · exact .inr (.inr ⟨_, rfl⟩)

theorem keepsInv_hostWrite {s : State} (h : s.Inv) (addr n v : Word) : KeepsInv s (.next (s.hostWrite addr n v)) := by
  rcases hostWrite_cases s addr n v with he | he | ⟨r, he⟩
  · rw [he]; exact ⟨_, rfl, h.replying none, rfl⟩
  · rw [he]; exact ⟨_, rfl, (h.recordFault .errBus addr _).replying none, rfl⟩
  · obtain ⟨hr, hp⟩ := writeReg_inv h r addr n v
    rw [he]; exact ⟨_, rfl, hr.replying none, hp⟩

theorem keepsInv_handleEvent {s : State} (h : s.Inv) : ∀ e : Event, KeepsInv s (handleEvent e s)
  | .read addr n => keepsInv_hostRead h addr n
  | .write addr n v => keepsInv_hostWrite h addr n v
  | .rst => ⟨_, rfl, h.afterReset, rfl⟩
  | .engine => keepsInv_engineTurn h

theorem keepsInv_step {s : State} (h : s.Inv) : KeepsInv s (step s) := by
  cases hp : s.pending with
  | nil => rw [step_nil hp]; exact keepsInv_engineTurn h
  | cons e rest => rw [step_cons hp]; exact keepsInv_handleEvent (s := { s with pending := rest }) { h with } e

/-- Settles O4: whatever the event, the next state meets the invariant, because every operation a step is made of keeps
it. -/
theorem everyStepKeepsTheInvariant : Obligations.EveryStepKeepsTheInvariant := by
  intro s t h hs
  obtain ⟨u, hu, hinv, hp⟩ := keepsInv_step h
  rw [hs] at hu
  cases hu
  exact ⟨hinv, hp⟩

end Sys2Proof.Machine
end

section
/-! SUPPORT. Two runs whose stores differ in dead words only (10_state.md R40): every operation answers both alike. -/

namespace Sys2Proof.Machine

namespace Memory

/-- Two canonical stores with the same first `nw` words. -/
structure Twins (nw : Nat) (m m' : Memory) : Prop where
  wf   : wf m = true
  wf'  : Memory.wf m' = true
  live : ∀ w, w < nw → word m' w = word m w

namespace Twins

variable {nw W n : Nat} {m m' : Memory}

theorem mono (h : Twins nw m m') {k : Nat} (hk : k ≤ nw) : Twins k m m' :=
  ⟨h.wf, h.wf', fun w hw => h.live w (Nat.lt_of_lt_of_le hw hk)⟩

theorem setBit (h : Twins nw m m') (W i : Nat) (v : Bool) : Twins nw (setBit W m i v) (setBit W m' i v) :=
  ⟨wf_setBit h.wf W i v, wf_setBit h.wf' W i v, fun w hw => by
    rw [word_setBit h.wf, word_setBit h.wf', h.live w hw]⟩

theorem setProbes (h : Twins nw m m') (W n : Nat) (d : Word) (k : Nat) :
    Twins nw (setProbes W n d k m) (setProbes W n d k m') := by
  induction k with
  | zero => exact h
  | succ k ih => exact ih.setBit W _ true

/-- Zeroing makes words alike, whatever they were. -/
theorem zeroWords (h : Twins nw m m') (k : Nat) : Twins k (zeroWords k m) (zeroWords k m') :=
  ⟨wf_zeroWords h.wf k, wf_zeroWords h.wf' k, fun w hw => by
    rw [word_zeroWords, word_zeroWords, if_pos hw, if_pos hw]⟩

/-- Filling makes words alike, whatever they were. -/
theorem fill (h : Twins nw m m') (hW : W ≤ 64) (hpos : 0 < W) (n : Nat) (v : Bool) :
    Twins (ceilDiv n W) (fill W n v m) (fill W n v m') :=
  ⟨wf_fill h.wf W n v, wf_fill h.wf' W n v, fun w hw => by
    rw [word_fill h.wf hW hpos, word_fill h.wf' hW hpos, if_pos hw, if_pos hw]⟩

theorem maskTail (h : Twins nw m m') (W n : Nat) : Twins nw (maskTail W n m) (maskTail W n m') :=
  ⟨wf_maskTail h.wf W n, wf_maskTail h.wf' W n, fun w hw => by
    rw [word_maskTail h.wf, word_maskTail h.wf', h.live w hw]⟩

theorem mapWords (h : Twins nw m m') (k : Nat) (f : Word → Word) : Twins nw (mapWords k f m) (mapWords k f m') :=
  ⟨wf_mapWords h.wf k f, wf_mapWords h.wf' k f, fun w hw => by
    rw [word_mapWords, word_mapWords, h.live w hw]⟩

/-- A length one greater makes no dead word live unless it zeroes it (40_bitvector.md R117). -/
theorem grow (h : Twins (ceilDiv n W) m m') (hpos : 0 < W) :
    Twins (ceilDiv (n + 1) W) (if n % W = 0 then Memory.setWord m (n / W) 0#64 else m)
      (if n % W = 0 then Memory.setWord m' (n / W) 0#64 else m') := by
  split
  · refine ⟨wf_setWord h.wf _ _, wf_setWord h.wf' _ _, fun w hw => ?_⟩
    rw [word_setWord h.wf, word_setWord h.wf']
    split
    · rfl
    · rename_i hr hne
      have hlt : w + 1 ≤ n / W := by rw [ceilDiv_succ hpos] at hw; omega
      exact h.live w ((lt_ceilDiv hpos).2 (Nat.lt_of_lt_of_le (Nat.mul_lt_mul_of_pos_right (Nat.lt_succ_self w) hpos)
        ((Nat.le_div_iff_mul_le hpos).1 hlt)))
  · rename_i hr
    rwa [ceilDiv_succ hpos, ← ceilDiv_of_mod_ne_zero hpos hr]

/-- A live position reads alike. -/
theorem bit_eq (h : Twins (ceilDiv n W) m m') (hpos : 0 < W) {p : Nat} (hp : p < n) : bit W m' p = bit W m p := by
  rw [bit, bit, h.live _ (div_lt_ceilDiv hpos hp)]

theorem allProbes_eq (h : Twins (ceilDiv n W) m m') (hpos : 0 < W) (hn : 0 < n) (d : Word) (k : Nat) :
    allProbes W n d m' k = allProbes W n d m k := by
  induction k with
  | zero => rfl
  | succ k ih => rw [allProbes, allProbes, ih, h.bit_eq hpos (probeIndex_lt hn d k)]

end Twins

end Memory

/-! The state with another store -/

def State.withStore (s : State) (m : Memory) : State := { s with store := m }

/-- Two answers that differ in dead words only. -/
def Alike (x y : Result) : Prop :=
  ∃ (u : State) (m : Memory), x = .next u ∧ y = .next (u.withStore m) ∧ Memory.Twins u.nwords u.store m

section

variable {s u : State} {m : Memory} {x y x' y' : Result}

theorem alike_raiseFault (h : Memory.Twins s.nwords s.store m) (code : FaultCode) :
    Alike (raiseFault code s) (raiseFault code (s.withStore m)) :=
  ⟨_, m, rfl, rfl, h⟩

theorem alike_complete {u u' : State} (h : Memory.Twins u.nwords u.store u'.store) (hu : u' = u.withStore u'.store)
    {r r' : Word} (hr : r' = r) (absent : Bool) : Alike (complete r absent u) (complete r' absent u') :=
  ⟨_, u'.store, rfl, by rw [hr, hu]; rfl, h⟩

theorem alike_inLegalMode (h : Memory.Twins s.nwords s.store m) {i : Instr}
    (hx : legalInMode i s.mode = true → Alike x y) : Alike (inLegalMode i s x) (inLegalMode i (s.withStore m) y) := by
  cases hl : legalInMode i s.mode with
  | true => rw [inLegalMode_of_legal hl, inLegalMode_of_legal (by exact hl)]; exact hx hl
  | false =>
    rw [inLegalMode_of_illegal hl, inLegalMode_of_illegal (by exact hl)]
    exact alike_raiseFault h .errMode

theorem alike_ite {c : Prop} [Decidable c] (hx : c → Alike x x') (hy : ¬c → Alike y y') :
    Alike (if c then x else y) (if c then x' else y') := by
  split
  · exact hx ‹_›
  · exact hy ‹_›

/-- A command that leaves the state and answers the same. -/
theorem alike_query (h : Memory.Twins s.nwords s.store m) {i : Instr} {r r' : Word} (hr : r' = r) (absent : Bool) :
    Alike (inLegalMode i s (complete r absent s))
      (inLegalMode i (s.withStore m) (complete r' absent (s.withStore m))) :=
  alike_inLegalMode h fun _ => alike_complete (u' := s.withStore m) h rfl hr absent

/-- A read at a position that may be past the end. -/
theorem alike_read (h : Memory.Twins s.nwords s.store m) {i : Instr} {r r' : Word} {absent : Bool}
    (hr : absent = false → r' = r) :
    Alike (inLegalMode i s (complete (if absent then 0#64 else r) absent s))
      (inLegalMode i (s.withStore m) (complete (if absent then 0#64 else r') absent (s.withStore m))) := by
  refine alike_query h ?_ absent
  cases absent with
  | true => rfl
  | false => exact hr rfl

/-- A command that only writes words and closes the iteration. -/
theorem alike_write (h : Memory.Twins s.nwords s.store m) {i : Instr} {m₁ m₁' : Memory}
    (hm : Memory.Twins s.nwords m₁ m₁') :
    Alike (inLegalMode i s (complete 0#64 false { s with store := m₁ }.closeIter))
      (inLegalMode i (s.withStore m) (complete 0#64 false { s.withStore m with store := m₁' }.closeIter)) :=
  alike_inLegalMode h fun _ =>
    alike_complete (u' := { s.withStore m with store := m₁' }.closeIter) hm rfl rfl false

/-! Commands -/

theorem alike_bvNew (h : Memory.Twins s.nwords s.store m) : Alike (execBvNew s) (execBvNew (s.withStore m)) := by
  refine alike_inLegalMode h fun _ => alike_complete (h.mono ?_) rfl rfl false
  exact (ceilDiv_zero s.W_pos).trans_le (Nat.zero_le _)

theorem alike_bvFromElem (h : Memory.Twins s.nwords s.store m) (v : Bool) :
    Alike (execBvFromElem v s) (execBvFromElem v (s.withStore m)) := by
  refine alike_inLegalMode h fun _ => alike_ite (fun _ => alike_raiseFault h _) fun _ =>
    alike_complete ?_ rfl rfl false
  exact h.fill s.W_le s.W_pos s.a0.toNat v

theorem alike_bvGet (h : Memory.Twins s.nwords s.store m) : Alike (execBvGet s) (execBvGet (s.withStore m)) := by
  refine alike_read h fun ha => congrArg bitWord (h.bit_eq s.W_pos ?_)
  exact Nat.lt_of_not_le (of_decide_eq_false ha)

theorem alike_bvSet (h : Memory.Twins s.nwords s.store m) (v : Bool) :
    Alike (execBvSet v s) (execBvSet v (s.withStore m)) := by
  refine alike_inLegalMode h fun _ => alike_ite (fun _ => alike_raiseFault h _) fun _ => ?_
  exact alike_complete (h.setBit s.W s.a0.toNat v) rfl rfl false

theorem alike_bvPush (hi : s.Inv) (h : Memory.Twins s.nwords s.store m) (v : Bool) :
    Alike (execBvPush v s) (execBvPush v (s.withStore m)) := by
  refine alike_inLegalMode h fun _ => alike_ite (fun _ => alike_raiseFault h _) fun hn => ?_
  have hlen : (BitVec.ofNat 64 (s.nbits.toNat + 1)).toNat = s.nbits.toNat + 1 := by
    have := hi.nbitsBound
    have : s.nbits.toNat ≠ s.params.nbitsMax.toNat := hn
    exact Nat.mod_eq_of_lt (by omega)
  refine alike_complete (.mono ((h.grow s.W_pos).setBit s.W s.nbits.toNat v) ?_) rfl rfl false
  exact (congrArg (ceilDiv · s.W) hlen).le

theorem alike_bvReserve (h : Memory.Twins s.nwords s.store m) :
    Alike (execBvReserve s) (execBvReserve (s.withStore m)) := by
  refine alike_inLegalMode h fun _ => alike_ite (fun _ => alike_raiseFault h _) fun _ => ?_
  exact alike_complete h rfl rfl false

theorem alike_bvReadWord (h : Memory.Twins s.nwords s.store m) :
    Alike (execBvReadWord s) (execBvReadWord (s.withStore m)) := by
  refine alike_read h fun ha => h.live _ ?_
  exact Nat.lt_of_not_le (of_decide_eq_false ha)

theorem alike_bvIterStart (h : Memory.Twins s.nwords s.store m) :
    Alike (execBvIterStart s) (execBvIterStart (s.withStore m)) := by
  refine alike_inLegalMode h fun _ => ?_
  exact alike_complete h rfl rfl false

theorem alike_bvIterNext (h : Memory.Twins s.nwords s.store m) :
    Alike (execBvIterNext s) (execBvIterNext (s.withStore m)) := by
  refine alike_inLegalMode h fun _ => alike_ite (fun _ => alike_ite (fun _ => ?_) fun hp => ?_) fun _ =>
    alike_raiseFault h _
  · exact alike_complete h rfl rfl true
  · have hlt : s.iterPos.toNat < s.nbits.toNat := by simpa [absentFlag] using hp
    exact alike_complete h rfl (congrArg bitWord (h.bit_eq s.W_pos hlt)) false

theorem alike_bfConfig (h : Memory.Twins s.nwords s.store m) :
    Alike (execBfConfig s) (execBfConfig (s.withStore m)) := by
  refine alike_inLegalMode h fun _ => alike_ite (fun _ => alike_raiseFault h _) fun _ =>
    alike_complete ?_ rfl rfl false
  exact h.zeroWords (ceilDiv s.a0.toNat s.W)

theorem alike_bfQuery (hi : s.Inv) (h : Memory.Twins s.nwords s.store m) :
    Alike (execBfQuery s) (execBfQuery (s.withStore m)) := by
  refine alike_inLegalMode h fun hl => alike_complete h rfl ?_ false
  have hpos : 0 < s.nbits.toNat := hi.nbits_pos (by simpa [legalInMode] using hl)
  exact congrArg bitWord (h.allProbes_eq s.W_pos hpos s.a0 s.k.toNat)

theorem alike_bfIndex (h : Memory.Twins s.nwords s.store m) : Alike (execBfIndex s) (execBfIndex (s.withStore m)) := by
  refine alike_inLegalMode h fun _ => alike_ite (fun _ => alike_raiseFault h _) fun _ => ?_
  exact alike_complete h rfl rfl false

/-- Every command answers from registers and live words, and writes live words from live words. -/
theorem alike_exec (hi : s.Inv) (h : Memory.Twins s.nwords s.store m) :
    ∀ i : Instr, Alike (exec i s) (exec i (s.withStore m))
  | .bvNew => alike_bvNew h
  | .bvFromElem v => alike_bvFromElem h v
  | .bvLen => show Alike (execBvLen s) (execBvLen _) from alike_query h rfl false
  | .bvIsEmpty => show Alike (execBvIsEmpty s) (execBvIsEmpty _) from alike_query h rfl false
  | .bvGet => alike_bvGet h
  | .bvSet v => alike_bvSet h v
  | .bvPush v => alike_bvPush hi h v
  | .bvClear => alike_write h (h.zeroWords s.nwords)
  | .bvSetAll => alike_write h ((h.mapWords s.nwords _).maskTail s.W s.nbits.toNat)
  | .bvNegate => alike_write h ((h.mapWords s.nwords _).maskTail s.W s.nbits.toNat)
  | .bvReserve => alike_bvReserve h
  | .bvReadWord => alike_bvReadWord h
  | .bvIterStart => alike_bvIterStart h
  | .bvIterNext => alike_bvIterNext h
  | .bfConfig => alike_bfConfig h
  | .bfInsert => alike_write h (h.setProbes s.W s.nbits.toNat s.a0 s.k.toNat)
  | .bfQuery => alike_bfQuery hi h
  | .bfClear => alike_write h (h.zeroWords s.nwords)
  | .bfIndex => alike_bfIndex h

/-! Events -/

theorem alike_engineTurn (hi : s.Inv) (h : Memory.Twins s.nwords s.store m) :
    Alike (engineTurn s) (engineTurn (s.withStore m)) := by
  have hfetch : (s.withStore m).fetch = s.fetch := rfl
  unfold engineTurn
  rw [hfetch]
  cases s.fetch with
  | none => exact ⟨s, m, rfl, rfl, h⟩
  | some d =>
    cases d with
    | illegal why => exact alike_raiseFault h .errIllegal
    | ok i => exact alike_exec hi h i

end

/-! A host access and a reset take no word of STORE, and write none. -/

section

variable (s : State) (m : Memory)

theorem withStore_ite {c : Prop} [Decidable c] (t : State) :
    (if c then s else t).withStore m = if c then s.withStore m else t.withStore m :=
  apply_ite (·.withStore m) c s t

theorem readReg_withStore (r : Reg) : (s.withStore m).readReg r = s.readReg r := by cases r <;> rfl

theorem hostRead_withStore (addr n : Word) : (s.withStore m).hostRead addr n = (s.hostRead addr n).withStore m := by
  simp only [State.hostRead, readReg_withStore, withStore_ite]
  cases accessTarget addr n with
  | none => rfl
  | some r => simp only [withStore_ite]; rfl

theorem writeReg_withStore (r : Reg) (addr n v : Word) :
    (s.withStore m).writeReg r addr n v = (s.writeReg r addr n v).withStore m := by
  cases r with
  | cmd => simp only [State.writeReg, State.writeCmd, withStore_ite]; rfl
  | arg0 => simp only [State.writeReg, withStore_ite]; rfl
  | arg1 => simp only [State.writeReg, withStore_ite]; rfl
  | ctrl => simp only [State.writeReg, State.writeCtrl, withStore_ite]; rfl
  | _ => rfl

theorem hostWrite_withStore (addr n v : Word) :
    (s.withStore m).hostWrite addr n v = (s.hostWrite addr n v).withStore m := by
  simp only [State.hostWrite, writeReg_withStore, withStore_ite]
  cases accessTarget addr n <;> rfl

/-- Reset leaves STORE and makes every word dead (10_state.md R42, log 3). -/
theorem afterReset_nwords : s.afterReset.nwords = 0 := ceilDiv_zero s.W_pos

theorem hostRead_frame (addr n : Word) :
    (s.hostRead addr n).store = s.store ∧ (s.hostRead addr n).nwords ≤ s.nwords := by
  rcases hostRead_cases s addr n with ⟨v, he⟩ | ⟨v, he⟩ | ⟨v, he⟩ <;> rw [he] <;> exact ⟨rfl, Nat.le_refl _⟩

theorem writeReg_frame (r : Reg) (addr n v : Word) :
    (s.writeReg r addr n v).store = s.store ∧ (s.writeReg r addr n v).nwords ≤ s.nwords := by
  rcases writeReg_cases s r addr n v with he | ⟨code, info1, he⟩ | he | ⟨-, ⟨x, y, he⟩ | he⟩ <;> rw [he]
  · exact ⟨rfl, Nat.le_refl _⟩
  · exact ⟨rfl, Nat.le_refl _⟩
  · exact ⟨rfl, (afterReset_nwords s).trans_le (Nat.zero_le _)⟩
  · exact ⟨rfl, Nat.le_refl _⟩
  · exact ⟨rfl, Nat.le_refl _⟩

theorem hostWrite_frame (addr n v : Word) :
    (s.hostWrite addr n v).store = s.store ∧ (s.hostWrite addr n v).nwords ≤ s.nwords := by
  rcases hostWrite_cases s addr n v with he | he | ⟨r, he⟩ <;> rw [he]
  · exact ⟨rfl, Nat.le_refl _⟩
  · exact ⟨rfl, Nat.le_refl _⟩
  · exact writeReg_frame s r addr n v

end

/-- An update that takes no word of STORE, writes none and makes none live. -/
theorem alike_of_frame {s u : State} {m : Memory} (h : Memory.Twins s.nwords s.store m)
    (hu : u.store = s.store ∧ u.nwords ≤ s.nwords) : Alike (.next u) (.next (u.withStore m)) :=
  ⟨u, m, rfl, rfl, hu.1 ▸ h.mono hu.2⟩

theorem alike_handleEvent {s : State} {m : Memory} (hi : s.Inv) (h : Memory.Twins s.nwords s.store m) :
    ∀ e : Event, Alike (handleEvent e s) (handleEvent e (s.withStore m))
  | .read addr n => by
      rw [handleEvent, handleEvent, hostRead_withStore]
      exact alike_of_frame h (hostRead_frame s addr n)
  | .write addr n v => by
      rw [handleEvent, handleEvent, hostWrite_withStore]
      exact alike_of_frame h (hostWrite_frame s addr n v)
  | .rst => alike_of_frame h ⟨rfl, (afterReset_nwords s).trans_le (Nat.zero_le _)⟩
  | .engine => alike_engineTurn hi h

theorem alike_step {s : State} {m : Memory} (hi : s.Inv) (h : Memory.Twins s.nwords s.store m) :
    Alike (step s) (step (s.withStore m)) := by
  cases hp : s.pending with
  | nil =>
    rw [step_nil hp, step_nil (s := s.withStore m) hp]
    exact alike_engineTurn hi h
  | cons e rest =>
    rw [step_cons hp, step_cons (s := s.withStore m) hp]
    exact alike_handleEvent (s := { s with pending := rest }) { hi with } h e

/-- Settles O48: whatever the event, two states that differ in dead words only are answered alike. -/
theorem deadWordsAreUnobservable : Obligations.DeadWordsAreUnobservable := by
  intro s t s' hi hwf ⟨ht, hlive⟩ hs
  obtain ⟨u, m, hu, hv, htwins⟩ := alike_step hi ⟨hi.storeWf, hwf, hlive⟩
  rw [hs] at hu
  cases hu
  have hst : s.withStore t.store = t := ht.symm
  exact ⟨s'.withStore m, hst ▸ hv, ⟨rfl, htwins.live⟩, htwins.wf'⟩

end Sys2Proof.Machine
end

section
/-! SUPPORT. Equal words are equal stores, the layout of STATUS, and the values of reset. -/

namespace Sys2Proof.Machine

/-! The canonical form -/

namespace Memory

theorem word_cons_self (a : Nat) (x : Word) (m : Memory) : word ((a, x) :: m) a = x := if_pos rfl

/-- In a canonical store the words up to the first listed one are 0, but for that one. -/
theorem word_cons_of_lt {a w : Nat} {x : Word} {m : Memory} (hm : wf ((a, x) :: m) = true) (hw : w < a) :
    word ((a, x) :: m) w = 0#64 := by
  obtain ⟨-, hrise, -⟩ := wf_cons.1 hm
  refine word_eq_zero fun c hc => ?_
  rcases List.mem_cons.1 hc with rfl | hc
  · exact Nat.ne_of_gt hw
  · exact Nat.ne_of_gt (Nat.lt_trans hw (hrise c hc))

/-- A canonical store lists its first word no earlier than any with the same words does. -/
theorem head_le {a b : Nat} {x y : Word} {m m' : Memory} (hm : wf ((a, x) :: m) = true)
    (hm' : wf ((b, y) :: m') = true) (h : ∀ w, word ((a, x) :: m) w = word ((b, y) :: m') w) : b ≤ a := by
  by_contra hlt
  obtain ⟨hx, -, -⟩ := wf_cons.1 hm
  exact hx (by rw [← word_cons_self a x m, h a, word_cons_of_lt hm' (Nat.lt_of_not_le hlt)])

/-- The words of a canonical store but the first listed one are those of its rest. -/
theorem word_rest {a : Nat} {x : Word} {m : Memory} (hm : wf ((a, x) :: m) = true) (w : Nat) :
    word m w = if w = a then 0#64 else word ((a, x) :: m) w := by
  split
  · rename_i hw
    obtain ⟨-, hrise, -⟩ := wf_cons.1 hm
    exact word_eq_zero fun c hc => Nat.ne_of_gt (hw ▸ hrise c hc)
  · rename_i hw
    exact (if_neg (Ne.symm hw)).symm

/-- Two canonical stores with the same words are the same data. -/
theorem ext_words {m m' : Memory} (hm : wf m = true) (hm' : wf m' = true) (h : ∀ w, word m w = word m' w) : m = m' := by
  induction m generalizing m' with
  | nil =>
    cases m' with
    | nil => rfl
    | cons d m' =>
      obtain ⟨hy, -, -⟩ := wf_cons.1 hm'
      exact absurd ((word_cons_self d.1 d.2 m').symm.trans (h d.1).symm) hy
  | cons c m ih =>
    obtain ⟨a, x⟩ := c
    obtain ⟨hx, -, hmr⟩ := wf_cons.1 hm
    cases m' with
    | nil => exact absurd ((word_cons_self a x m).symm.trans (h a)) hx
    | cons d m' =>
      obtain ⟨b, y⟩ := d
      obtain ⟨-, -, hmr'⟩ := wf_cons.1 hm'
      obtain rfl : a = b := Nat.le_antisymm (head_le hm' hm fun w => (h w).symm) (head_le hm hm' h)
      obtain rfl : x = y := by rw [← word_cons_self a x m, h a, word_cons_self]
      rw [ih hmr hmr' fun w => by rw [word_rest hm, word_rest hm', h w]]

end Memory

/-- Settles O35: read after write, and extensionality of the canonical form. -/
theorem storeIsCanonicalAndReadsBackWrites : Obligations.StoreIsCanonicalAndReadsBackWrites :=
  ⟨fun _ w v w' hm => ⟨Memory.wf_setWord hm w v, Memory.word_setWord hm w v w'⟩, fun _ _ => Memory.ext_words⟩

/-! STATUS -/

theorem FaultCode.value_lt (code : FaultCode) : code.value < 256 := by cases code <;> decide

theorem State.faultCodeValue_lt (s : State) : s.faultCodeValue < 256 := by
  unfold State.faultCodeValue
  cases s.fault with
  | none => decide
  | some code => exact code.value_lt

/-- STATUS as its bits, lowest first, below FAULT_CODE (10_state.md R30). -/
theorem State.status_toNat (s : State) :
    s.status.toNat =
      Nat.bit s.busy (Nat.bit s.noneFlag (Nat.bit s.fault.isSome (Nat.bit (s.mode == .filter)
        (Nat.bit s.iterActive (8 * s.faultCodeValue))))) := by
  have hcode := s.faultCodeValue_lt
  have hbit := Bool.toNat_le
  have h0 := hbit s.busy
  have h1 := hbit s.noneFlag
  have h2 := hbit s.fault.isSome
  have h3 := hbit (s.mode == .filter)
  have h4 := hbit s.iterActive
  simp only [State.status, BitVec.toNat_ofNat, Nat.bit_val]
  omega

/-- STATUS above ITER_ACTIVE is FAULT_CODE at bit 8. -/
theorem State.status_div (s : State) : s.status.toNat / 2 ^ 5 = 8 * s.faultCodeValue := by
  rw [s.status_toNat]
  simp only [show (2 : Nat) ^ 5 = 2 * 2 * 2 * 2 * 2 from rfl, ← Nat.div_div_eq_div_mul, Nat.bit_div_two]

theorem State.status_extract (s : State) (i n : Nat) :
    (s.status.extractLsb' (5 + i) n).toNat = 8 * s.faultCodeValue / 2 ^ i % 2 ^ n := by
  rw [BitVec.extractLsb'_toNat, Nat.shiftRight_eq_div_pow, Nat.pow_add, ← Nat.div_div_eq_div_mul, s.status_div]

theorem State.status_faultCode (s : State) : s.status.extractLsb' 8 8 = BitVec.ofNat 8 s.faultCodeValue := by
  apply BitVec.eq_of_toNat_eq
  rw [s.status_extract 3 8, BitVec.toNat_ofNat]
  omega

theorem State.status_low_bits (s : State) :
    s.status.getLsbD 0 = s.busy ∧ s.status.getLsbD 1 = s.noneFlag ∧ s.status.getLsbD 2 = s.fault.isSome ∧
    s.status.getLsbD 3 = (s.mode == .filter) ∧ s.status.getLsbD 4 = s.iterActive := by
  simp only [BitVec.getLsbD, s.status_toNat, Nat.testBit_bit_succ, Nat.testBit_bit_zero, and_self]

/-- Settles O49: the flags are the lowest bits of STATUS, the rest is FAULT_CODE at bit 8. -/
theorem statusHoldsTheFieldsOfItsLayout : Obligations.StatusHoldsTheFieldsOfItsLayout := by
  intro s
  have hcode := s.faultCodeValue_lt
  obtain ⟨hbusy, hnone, hfault, hmode, hiter⟩ := s.status_low_bits
  refine ⟨hbusy, hnone, hfault, hmode, hiter, ?_, ?_, ?_, hbusy.symm, hfault.symm⟩
  · apply BitVec.eq_of_toNat_eq
    rw [s.status_extract 0 3, BitVec.toNat_ofNat]
    omega
  · apply BitVec.eq_of_toNat_eq
    rw [s.status_extract 11 48, BitVec.toNat_ofNat]
    omega
  · rw [s.status_faultCode, State.faultCodeValue]
    cases s.fault with
    | none => rfl
    | some code => cases code <;> rfl

/-! Reset -/

theorem resetOf_atResetValues (p : Params) : (State.resetOf p).AtResetValues where
  cmd := rfl
  arg0 := rfl
  arg1 := rfl
  result := rfl
  status := rfl
  busy := rfl
  noneFlag := rfl
  fault := rfl
  mode := rfl
  iterActive := rfl
  faultCode := rfl
  nbits := rfl
  nwords := ceilDiv_zero (Params.W_pos p)
  capwords := rfl
  k := rfl
  iterPos := rfl
  faultInfo0 := rfl
  faultInfo1 := rfl
  inFlight := rfl

/-- Settles O1: every register of the reset state, whatever the parameters. -/
theorem resetGivesEveryRegisterItsResetValue : Obligations.ResetGivesEveryRegisterItsResetValue := fun p =>
  ⟨resetOf_atResetValues p, rfl, rfl, rfl, rfl, resetOf_atResetValues Config.params⟩

end Sys2Proof.Machine
end

section
/-! SUPPORT. The register window: where each register lies, the bytes of a value, and what an access that reaches no
register, or a register it may not write, does (20_memory.md R62 to R66). -/

namespace Sys2Proof

/-- The bytes of a value, read back, are the value up to their number (20_memory.md R63). -/
theorem leValue_leBytes (n v : Nat) : leValue (leBytes n v) = v % 256 ^ n := by
  induction n generalizing v with
  | zero => rw [Nat.pow_zero, Nat.mod_one]; rfl
  | succ n ih => rw [leBytes, leValue, ih, BitVec.toNat_ofNat, Nat.pow_succ' (m := 256), Nat.mod_mul]

@[simp] theorem length_leBytes (n v : Nat) : (leBytes n v).length = n := by
  induction n generalizing v with
  | zero => rfl
  | succ n ih => rw [leBytes, List.length_cons, ih]

/-- The eight bytes of a CMD value decode as the value. -/
theorem decodeBytes_leBytes (c : Word) : decodeBytes (leBytes 8 c.toNat) = decode c := by
  have hlt : c.toNat < 256 ^ 8 := c.isLt
  rw [decodeBytes, if_pos (length_leBytes 8 _), leValue_leBytes, Nat.mod_eq_of_lt hlt, BitVec.ofNat_toNat,
    BitVec.setWidth_eq]

end Sys2Proof

namespace Sys2Proof.Machine

/-! The registers of the window -/

/-- The offset of a register (20_memory.md R62); `Reg.ofOffset` is its inverse (`Reg.ofOffset_eq_some_iff`). -/
def Reg.offset : Reg → Nat
  | .cmd           => 0x00
  | .arg0          => 0x08
  | .arg1          => 0x10
  | .result        => 0x18
  | .status        => 0x20
  | .ctrl          => 0x28
  | .nbits         => 0x30
  | .nwords        => 0x38
  | .capwords      => 0x40
  | .k             => 0x48
  | .iterPos       => 0x50
  | .faultInfo0    => 0x58
  | .faultInfo1    => 0x60
  | .paramW        => 0x68
  | .paramNbitsMax => 0x70
  | .paramKMax     => 0x78
  | .id            => 0x80

theorem Reg.ofOffset_eq_some_iff {a : Nat} {r : Reg} : Reg.ofOffset a = some r ↔ a = r.offset := by
  constructor
  · intro h
    unfold Reg.ofOffset at h
    split at h <;> cases h <;> rfl
  · rintro rfl
    cases r <;> rfl

theorem Reg.offset_mod (r : Reg) : r.offset % 8 = 0 := by cases r <;> rfl

theorem Reg.offset_le (r : Reg) : r.offset ≤ 0x80 := by cases r <;> decide

/-- Settles O7: the offsets are multiples of 8, and the bytes of a value read back are the value. -/
theorem windowIsLittleEndian : Obligations.WindowIsLittleEndian := by
  refine ⟨fun s o j r ho hj => ?_, decodeBytes_leBytes⟩
  have halign : o % 8 = 0 := Reg.ofOffset_eq_some_iff.1 ho ▸ r.offset_mod
  have hbase : (o + j) / 8 * 8 = o := by omega
  have hbyte : (o + j) % 8 = j := by omega
  rw [State.windowByte, hbase, hbyte, ho, Option.map_some]

/-! Where an access goes -/

theorem accessTarget_eq_some_iff {addr n : Word} {r : Reg} :
    accessTarget addr n = some r ↔ n = 8#64 ∧ addr.toNat = r.offset := by
  unfold accessTarget
  split
  · rename_i h
    refine ⟨nofun, fun ⟨hn, ha⟩ => ?_⟩
    rcases h with h | h
    · exact absurd hn h
    · exact absurd (ha ▸ r.offset_mod) h
  · rename_i h
    rw [Reg.ofOffset_eq_some_iff, and_iff_right (not_not.1 (not_or.1 h).1)]

/-- An access of a wrong width, misaligned, or at a reserved offset reaches no register (20_memory.md R64, R65). -/
theorem accessTarget_eq_none {addr n : Word} (h : n ≠ 8#64 ∨ addr.toNat % 8 ≠ 0 ∨ 0x88 ≤ addr.toNat) :
    accessTarget addr n = none := by
  refine Option.eq_none_iff_forall_ne_some.2 fun r hr => ?_
  obtain ⟨hn, ha⟩ := accessTarget_eq_some_iff.1 hr
  have hmod := r.offset_mod
  have hle := r.offset_le
  rcases h with h | h | h
  · exact h hn
  · omega
  · omega

section

variable {s : State} {addr n : Word}

theorem outsideWindow_of_lt (h : addr.toNat < 0x100) : outsideWindow addr = false :=
  decide_eq_false (Nat.not_le.2 h)

theorem hostRead_outside (h : 0x100 ≤ addr.toNat) : s.hostRead addr n = s.replying none := if_pos (decide_eq_true h)

theorem hostWrite_outside (h : 0x100 ≤ addr.toNat) (v : Word) : s.hostWrite addr n v = s.replying none :=
  if_pos (decide_eq_true h)

theorem hostRead_of_no_target (hw : addr.toNat < 0x100) (h : accessTarget addr n = none) :
    s.hostRead addr n = (s.recordFault .errBus addr n).replying (some 0#64) := by
  rw [State.hostRead, outsideWindow_of_lt hw, h]; rfl

theorem hostWrite_of_no_target (hw : addr.toNat < 0x100) (h : accessTarget addr n = none) (v : Word) :
    s.hostWrite addr n v = (s.busWriteFault addr n).replying none := by
  rw [State.hostWrite, outsideWindow_of_lt hw, h]; rfl

theorem hostWrite_of_target {r : Reg} (hw : addr.toNat < 0x100) (h : accessTarget addr n = some r) (v : Word) :
    s.hostWrite addr n v = (s.writeReg r addr n v).replying none := by
  rw [State.hostWrite, outsideWindow_of_lt hw, h]; rfl

end

/-- The registers a host may write (20_memory.md R66); the write of any other is ERR_BUS (`writeReg_of_readOnly`). -/
def Reg.writable : Reg → Bool
  | .cmd  => true
  | .arg0 => true
  | .arg1 => true
  | .ctrl => true
  | _     => false

theorem writeReg_of_readOnly (s : State) {r : Reg} (h : r.writable = false) (addr n v : Word) :
    s.writeReg r addr n v = s.busWriteFault addr n := by
  cases r with
  | cmd | arg0 | arg1 | ctrl => cases h
  | _ => rfl

/-- The fault record is written whole or not at all (60_exceptions.md R232). -/
theorem State.recordFault_eq (s : State) (code : FaultCode) (info0 info1 : Word) :
    s.recordFault code info0 info1 =
      if s.fault = none then { s with fault := some code, faultInfo0 := info0, faultInfo1 := info1 } else s := by
  by_cases h : s.fault = none
  · rw [if_pos h]; simp [State.recordFault, h]
  · rw [if_neg h]; simp [State.recordFault, h]

/-- A step whose host access is answered by ERR_BUS, as the statement puts it. -/
theorem recordFault_replying_eq (s : State) (rest : List Event) (info0 info1 : Word) (r : Option Word) :
    (({ s with pending := rest } : State).recordFault .errBus info0 info1).replying r =
      if s.fault = none then
        { s with pending := rest, reply := r, fault := some .errBus, faultInfo0 := info0, faultInfo1 := info1 }
      else { s with pending := rest, reply := r } := by
  rw [State.recordFault_eq]
  exact apply_ite (State.replying · r) _ _ _

/-- The offsets of the registers a host may only read. -/
theorem accessTarget_readOnly : ∀ addr ∈ [0x18#64, 0x20#64, 0x30#64, 0x38#64, 0x40#64, 0x48#64, 0x50#64, 0x58#64,
    0x60#64, 0x68#64, 0x70#64, 0x78#64, 0x80#64], (accessTarget addr 8#64).map Reg.writable = some false := by
  intro addr h
  fin_cases h <;> rfl

/-- Settles O52: such an access reaches no register, or one that is read only, and records ERR_BUS. -/
theorem illegalAccessOnlyRaisesErrBus : Obligations.IllegalAccessOnlyRaisesErrBus := by
  intro s addr n v rest hw
  refine ⟨fun h => ?_, fun hn h => ?_⟩
  · have htarget := accessTarget_eq_none h
    rw [step_cons rfl, step_cons rfl, handleEvent, handleEvent, hostRead_of_no_target hw htarget,
      hostWrite_of_no_target hw htarget, State.busWriteFault, recordFault_replying_eq, recordFault_replying_eq]
    exact ⟨rfl, rfl⟩
  · subst hn
    obtain ⟨r, hr, hro⟩ := Option.map_eq_some_iff.1 (accessTarget_readOnly addr h)
    rw [step_cons rfl, handleEvent, hostWrite_of_target hw hr, writeReg_of_readOnly _ hro, State.busWriteFault,
      recordFault_replying_eq]
    rfl

end Sys2Proof.Machine
end

section
/-! SUPPORT. What a host access that is no reset can change (20_memory.md R60): the operand registers, CMD, the fault
record, and the model's own bookkeeping of accesses. -/

namespace Sys2Proof.Machine

/-- `t` is `s` but for what a host access may change: CMD, ARG0, ARG1, the fault record, the reply and the draws, and
with no command in flight the acceptance of one. -/
structure State.HostFrame (s t : State) : Prop where
  rest     : t = { s with
               cmd := t.cmd, arg0 := t.arg0, arg1 := t.arg1, fault := t.fault, faultInfo0 := t.faultInfo0
               faultInfo1 := t.faultInfo1, inFlight := t.inFlight, reply := t.reply, draws := t.draws }
  inFlight : s.inFlight ≠ none → t.inFlight = s.inFlight

namespace State.HostFrame

variable {s t : State}

theorem refl (s : State) : s.HostFrame s := ⟨rfl, fun _ => rfl⟩

theorem recordFault (s : State) (code : FaultCode) (x y : Word) : s.HostFrame (s.recordFault code x y) :=
  ⟨rfl, fun _ => rfl⟩

theorem replying (h : s.HostFrame t) (v : Option Word) : s.HostFrame (t.replying v) :=
  ⟨by rw [h.rest]; rfl, h.inFlight⟩

theorem withArgs (s : State) (x y : Word) : s.HostFrame { s with arg0 := x, arg1 := y } := ⟨rfl, fun _ => rfl⟩

theorem accepted (h : ¬s.busy = true) (c : Word) : s.HostFrame (s.accepted c) :=
  ⟨rfl, fun hf => absurd (State.busy_eq_false.1 (eq_false_of_ne_true h)) hf⟩

theorem ite {u : State} {c : Prop} [Decidable c] (ht : c → s.HostFrame t) (hu : ¬c → s.HostFrame u) :
    s.HostFrame (if c then t else u) := by
  split
  · exact ht ‹c›
  · exact hu ‹¬c›

theorem hostRead (s : State) (addr n : Word) : s.HostFrame (s.hostRead addr n) := by
  rcases hostRead_cases s addr n with ⟨v, he⟩ | ⟨v, he⟩ | ⟨v, he⟩
  · rw [he]; exact (refl s).replying v
  · rw [he]; exact (recordFault s .errBus addr n).replying v
  · rw [he]; exact ⟨rfl, fun _ => rfl⟩

/-- The write of any register but the one to CTRL that resets. -/
theorem writeReg (s : State) {r : Reg} {v : Word} (h : ¬(r = .ctrl ∧ v = 1#64)) (addr n : Word) :
    s.HostFrame (s.writeReg r addr n v) := by
  cases r with
  | cmd => exact ite (fun _ => recordFault s _ _ _) fun hb => ite (fun _ => refl s) fun _ => accepted hb v
  | arg0 => exact ite (fun _ => recordFault s _ _ _) fun _ => withArgs s v s.arg1
  | arg1 => exact ite (fun _ => recordFault s _ _ _) fun _ => withArgs s s.arg0 v
  | ctrl =>
    exact ite (fun hv => absurd ⟨rfl, hv⟩ h) fun _ => ite (fun _ => refl s) fun _ => recordFault s _ _ _
  | _ => exact recordFault s _ _ _

/-- CTRL is reached at 0x28 by an access of 8 bytes only, so a write that is no soft reset is not the write of 1 to it. -/
theorem hostWrite (s : State) {addr n v : Word} (h : isResetEvent (.write addr n v) = false) :
    s.HostFrame (s.hostWrite addr n v) := by
  have hreset : ∀ r, accessTarget addr n = some r → ¬(r = .ctrl ∧ v = 1#64) := by
    rintro r hr ⟨rfl, rfl⟩
    obtain ⟨rfl, ha⟩ := accessTarget_eq_some_iff.1 hr
    obtain rfl : addr = 0x28#64 := BitVec.eq_of_toNat_eq ha
    cases h
  unfold State.hostWrite
  refine ite (fun _ => (refl s).replying none) fun _ => ?_
  split
  · exact (recordFault s .errBus addr _).replying none
  · exact (writeReg s (hreset _ ‹_›) addr n).replying none

end State.HostFrame

/-- An event that is neither the engine's turn nor a reset is a host access. -/
theorem handleEvent_hostFrame {s t : State} {e : Event} (he : e ≠ .engine) (hr : isResetEvent e = false)
    (h : handleEvent e s = .next t) : s.HostFrame t := by
  cases e with
  | read addr n => cases h; exact .hostRead s addr n
  | write addr n v => cases h; exact .hostWrite s hr
  | rst => cases hr
  | engine => exact absurd rfl he

/-- Settles O55: a host access that is no reset changes CMD, the operands, the fault record and the reply only. -/
theorem hostAccessNeverTouchesTheStorage : Obligations.HostAccessNeverTouchesTheStorage := by
  intro s t e rest he hr hp hs
  rw [step_cons hp] at hs
  obtain ⟨hrest, hflight⟩ := handleEvent_hostFrame he hr hs
  rw [hrest]
  refine ⟨rfl, rfl, rfl, rfl, rfl, rfl, rfl, rfl, rfl, rfl, rfl, rfl, hflight,
    fun addr n v hw hacc => hrest.symm.trans ?_⟩
  rcases hacc with rfl | rfl
  · cases hs; exact hostRead_outside hw
  · cases hs; exact hostWrite_outside hw v

end Sys2Proof.Machine
end

section
/-! SUPPORT. The bit view and the word view of STORE (20_memory.md R67, R69), and what the two commands that read them
answer. -/

namespace Sys2Proof.Machine

/-- A bit of a word as the register value it is returned as. -/
theorem bitWord_getLsbD (x : Word) (b : Nat) : bitWord (x.getLsbD b) = (x >>> b) &&& 1#64 := by
  rw [BitVec.and_one_eq_setWidth_ofBool_getLsbD, BitVec.getLsbD_ushiftRight, Nat.add_zero]
  cases x.getLsbD b <;> rfl

/-- Bit b of word w is position w*W + b (20_memory.md R67). -/
theorem State.bit_mul_add (s : State) {w b : Nat} (hb : b < s.W) : s.bit (w * s.W + b) = (s.word w).getLsbD b := by
  have hdiv : (w * s.W + b) / s.W = w := by
    rw [Nat.add_comm, Nat.add_mul_div_right _ _ s.W_pos, Nat.div_eq_of_lt hb, Nat.zero_add]
  rw [State.bit, Memory.bit, hdiv, Nat.mul_add_mod_self_right, Nat.mod_eq_of_lt hb]
  rfl

/-- Settles O31: a position is a word and a bit of it. -/
theorem positionIsABitOfItsWord : Obligations.PositionIsABitOfItsWord := fun s =>
  ⟨fun p => bitWord_getLsbD (s.word (p / s.W)) (p % s.W), fun _ _ hb => s.bit_mul_add hb⟩

theorem exec_bvReadWord_of_lt {s : State} (h : s.a0.toNat < s.nwords) :
    exec .bvReadWord s = .next (s.completed (s.word s.a0.toNat) false) := by
  have hlive : absentFlag s.a0.toNat s.nwords = false := decide_eq_false (Nat.not_le.2 h)
  rw [exec, execBvReadWord, inLegalMode_of_legal rfl]
  simp [hlive, complete]

theorem exec_bvGet_of_lt {s : State} (h : s.a0.toNat < s.nbits.toNat) :
    exec .bvGet s = .next (s.completed (bitWord (s.bit s.a0.toNat)) false) := by
  have hlive : absentFlag s.a0.toNat s.nbits.toNat = false := decide_eq_false (Nat.not_le.2 h)
  rw [exec, execBvGet, inLegalMode_of_legal rfl]
  simp [hlive, complete]

section

variable {s : State} (hr : s.ready = true)
include hr

/-- BV_READ_WORD of a live word returns the word (40_bitvector.md R122). -/
theorem runCommand_bvReadWord {w : Nat} (hw : w < s.nwords) :
    ∃ t, runCommand { instr := .bvReadWord, args := [BitVec.ofNat 64 w] } s = .next t ∧ t.result = s.word w := by
  obtain ⟨hi, hf⟩ := State.ready_iff.1 hr
  have hlt : w < 2 ^ 64 := (hw.trans_le (ceilDiv_le_self s.W_pos)).trans s.nbits.isLt
  have ha0 : (BitVec.ofNat 64 w).toNat = w := Nat.mod_eq_of_lt hlt
  refine ⟨_, (runCommand_eq rfl hi hf).trans (exec_bvReadWord_of_lt (ha0.trans_lt hw)), ?_⟩
  exact congrArg s.word ha0

/-- BV_GET of a live position returns the bit, NONE = 0 (40_bitvector.md R115). -/
theorem runCommand_bvGet {p : Nat} (hp : p < s.nbits.toNat) :
    ∃ u, runCommand { instr := .bvGet, args := [BitVec.ofNat 64 p] } s = .next u ∧
      u.noneFlag = false ∧ u.result = bitWord (s.bit p) := by
  obtain ⟨hi, hf⟩ := State.ready_iff.1 hr
  have ha0 : (BitVec.ofNat 64 p).toNat = p := Nat.mod_eq_of_lt (hp.trans s.nbits.isLt)
  refine ⟨_, (runCommand_eq rfl hi hf).trans (exec_bvGet_of_lt (ha0.trans_lt hp)), rfl, ?_⟩
  exact congrArg (fun p => bitWord (s.bit p)) ha0

end

/-- Settles O32: both commands read the same word of STORE, whose bits past NBITS and past W the invariant keeps 0. -/
theorem wordViewAndBitViewAgree : Obligations.WordViewAndBitViewAgree := by
  intro s w b hinv hr hw
  obtain ⟨t, ht, hres⟩ := runCommand_bvReadWord hr hw
  refine ⟨t, ht, fun hb hlive => ?_, fun _ hlast hdead => ?_, fun hb => ?_⟩ <;> rw [hres]
  · obtain ⟨u, hu, hnone, hget⟩ := runCommand_bvGet hr hlive
    exact ⟨u, hu, hnone, by rw [hget, s.bit_mul_add hb]⟩
  · refine eq_false_of_ne_true fun hbit => ?_
    obtain ⟨-, hlive⟩ := State.tail_iff.1 hinv.tailClean w hlast b hbit
    exact Nat.not_lt.2 hdead hlive
  · exact eq_false_of_ne_true fun hbit => Nat.not_lt.2 hb (toNat_lt_iff_bits.1 (hinv.wordFits w) b hbit)

end Sys2Proof.Machine
end

section
/-! SUPPORT. The decoder and the values of the commands (30_encoding.md R91 to R99), and the step that runs what it
reads. -/

namespace Sys2Proof.Machine

/-! The opcode map -/

/-- Conditions (c) and (d) of 30_encoding.md R95, on the fields OPC and V. -/
def IllegalOpcode (opc : Nat) (v : Bool) : Prop :=
  (opc = 0x00 ∨ (0x0F ≤ opc ∧ opc ≤ 0x1F) ∨ (0x25 ≤ opc ∧ opc ≤ 0xFF)) ∨
  (v = true ∧ opc ≠ 0x02 ∧ opc ≠ 0x06 ∧ opc ≠ 0x07)

/-- A listed opcode is that of the command's value, with its V. -/
theorem decodeOpcode_ok {opc : Nat} {v : Bool} {i : Instr} (h : decodeOpcode opc v = .ok i) :
    (cmdValue i).toNat = opc + 256 * v.toNat ∧ ¬ IllegalOpcode opc v := by
  unfold decodeOpcode at h
  split at h <;> cases v <;> cases h <;> exact ⟨rfl, by simp [IllegalOpcode]⟩

/-- Only the last row of the map (no listed opcode) and a V on a row that takes none refuse. -/
theorem decodeOpcode_illegal {opc : Nat} {v : Bool} {why : Illegal} (hopc : opc < 256)
    (h : decodeOpcode opc v = .illegal why) : IllegalOpcode opc v := by
  unfold decodeOpcode at h
  split at h
  case h_20 => exact .inl (by simp only [imp_false] at *; omega)
  all_goals cases v <;> cases h <;> exact .inr (by decide)

/-! CMD values -/

/-- A CMD value with the bits of R95 (a) and (b) clear is its fields OPC and V (30_encoding.md R91). -/
theorem toNat_eq_opcode_add_v {c : Word} (hhigh : c.extractLsb' 32 32 = 0#32) (hrsv : c.extractLsb' 9 23 = 0#23) :
    c.toNat = opcodeOf c + 256 * (c.getLsbD 8).toNat := by
  have hhigh := congrArg BitVec.toNat hhigh
  have hrsv := congrArg BitVec.toNat hrsv
  simp only [BitVec.extractLsb'_toNat, Nat.shiftRight_eq_div_pow, BitVec.toNat_ofNat] at hhigh hrsv
  have hlt := c.isLt
  rw [opcodeOf, BitVec.getLsbD, Nat.toNat_testBit]
  omega

/-- All the decoder can do: refuse a value for its reserved bits, or read its opcode and V. -/
theorem decode_cases (c : Word) :
    (∃ why, decode c = .illegal why ∧ (c.extractLsb' 32 32 ≠ 0#32 ∨ c.extractLsb' 9 23 ≠ 0#23)) ∨
    (c.extractLsb' 32 32 = 0#32 ∧ c.extractLsb' 9 23 = 0#23 ∧
      decode c = decodeOpcode (opcodeOf c) (c.getLsbD 8)) := by
  have hopc : (c.extractLsb' 0 8).toNat = opcodeOf c := by simp [opcodeOf]
  by_cases hhigh : c.extractLsb' 32 32 = 0#32
  · by_cases hrsv : c.extractLsb' 9 23 = 0#23
    · exact .inr ⟨hhigh, hrsv, by simp [decode, Fields.decode, Fields.ofCmd, hhigh, hrsv, hopc]⟩
    · exact .inl ⟨.reservedBits, by simp [decode, Fields.decode, Fields.ofCmd, hhigh, hrsv], .inr hrsv⟩
  · exact .inl ⟨.highBits, by simp [decode, Fields.decode, Fields.ofCmd, hhigh], .inl hhigh⟩

/-- What decodes to a command is the command's value, and none of the conditions of R95 holds of it. -/
theorem decode_ok {c : Word} {i : Instr} (h : decode c = .ok i) : c = cmdValue i ∧ ¬ IllegalValue c := by
  rcases decode_cases c with ⟨why, hwhy, -⟩ | ⟨hhigh, hrsv, hdec⟩
  · rw [hwhy] at h; cases h
  · obtain ⟨hval, hlegal⟩ := decodeOpcode_ok (hdec.symm.trans h)
    exact ⟨BitVec.eq_of_toNat_eq ((toNat_eq_opcode_add_v hhigh hrsv).trans hval.symm),
      fun hill => hill.elim (absurd hhigh) fun hill => hill.elim (absurd hrsv) hlegal⟩

/-- What is refused is refused under R95. -/
theorem decode_illegal {c : Word} {why : Illegal} (h : decode c = .illegal why) : IllegalValue c := by
  rcases decode_cases c with ⟨-, -, hhigh | hrsv⟩ | ⟨-, -, hdec⟩
  · exact .inl hhigh
  · exact .inr (.inl hrsv)
  · exact .inr (.inr (decodeOpcode_illegal (Nat.mod_lt _ (by decide)) (hdec.symm.trans h)))

theorem decode_eq_ok_iff {c : Word} {i : Instr} : decode c = .ok i ↔ c = cmdValue i :=
  ⟨fun h => (decode_ok h).1, fun h => h ▸ decode_cmdValue i⟩

theorem decode_eq_illegal_iff {c : Word} : (∃ why, decode c = .illegal why) ↔ IllegalValue c := by
  refine ⟨fun ⟨_, h⟩ => decode_illegal h, fun hill => ?_⟩
  cases h : decode c with
  | ok i => exact absurd hill (decode_ok h).2
  | illegal why => exact ⟨why, rfl⟩

/-- Settles O5: the opcode map lists the fields of the commands' values, and a value without reserved bits is its
fields. -/
theorem valueDecodesExactlyToTheCommandItEncodes : Obligations.ValueDecodesExactlyToTheCommandItEncodes :=
  ⟨fun _ _ => decode_eq_ok_iff, fun _ => decode_eq_illegal_iff⟩

/-- Settles O6: each word is the value of its command. -/
theorem commandWordsDecodeAsTheTableSays : Obligations.CommandWordsDecodeAsTheTableSays :=
  ⟨decode_cmdValue .bvNew, decode_cmdValue (.bvFromElem false), decode_cmdValue (.bvFromElem true),
   decode_cmdValue .bvLen, decode_cmdValue .bvIsEmpty, decode_cmdValue .bvGet, decode_cmdValue (.bvSet false),
   decode_cmdValue (.bvSet true), decode_cmdValue (.bvPush false), decode_cmdValue (.bvPush true),
   decode_cmdValue .bvIterNext, decode_cmdValue .bfConfig, decode_cmdValue .bfIndex⟩

/-! The engine's turn on the command in flight -/

theorem engineTurn_ok {s : State} {f : InFlight} {i : Instr} (hf : s.inFlight = some f) (h : decode f.c = .ok i) :
    engineTurn s = exec i s := by
  simp [engineTurn, State.fetch, hf, h]

theorem engineTurn_illegal {s : State} {f : InFlight} {why : Illegal} (hf : s.inFlight = some f)
    (h : decode f.c = .illegal why) : engineTurn s = .next (s.faultEntry .errIllegal) := by
  simp [engineTurn, State.fetch, hf, h, raiseFault, State.faulted_eq_faultEntry]

/-- With the engine's turn the oldest event, the step is the engine's turn. -/
theorem step_engine {s : State} {rest : List Event} (hp : s.pending = .engine :: rest) :
    step s = engineTurn { s with pending := rest } := step_cons hp

/-- Settles O8: with no event left the step is the engine's turn, which goes by what the value decodes to. -/
theorem illegalValueOnlyRaisesErrIllegal : Obligations.IllegalValueOnlyRaisesErrIllegal := by
  intro s f hf hp
  rw [step_nil hp]
  refine ⟨fun hill => ?_, fun hlegal => ?_⟩
  · obtain ⟨why, h⟩ := decode_eq_illegal_iff.2 hill
    exact engineTurn_illegal hf h
  · cases h : decode f.c with
    | illegal why => exact absurd (decode_illegal h) hlegal
    | ok i => exact ⟨i, rfl, engineTurn_ok hf h⟩

/-- A table word decodes as the CMD value the host writes for it. -/
theorem decode_tableWord {nbits w : Nat} {i : Instr} (h : decodeTableWord nbits w = some i) :
    decode (tableWord nbits w) = .ok i := by
  rw [decodeTableWord, decodeBytes_leBytes] at h
  cases hd : decode (tableWord nbits w) with
  | illegal why => rw [hd] at h; cases h
  | ok j => rw [hd] at h; cases h; rfl

/-- Settles O10: both steps are the engine's turn, on the command in flight. -/
theorem stepRunsTheDecodedCommand : Obligations.StepRunsTheDecodedCommand := by
  refine ⟨fun s f i hf h => ⟨fun hp => ?_, fun rest hp => ?_, ?_⟩, fun s nbits w i h => ?_⟩
  · rw [step_nil hp, engineTurn_ok hf h]
  · rw [step_engine hp]
    exact engineTurn_ok hf h
  · exact ⟨by rw [State.current_of_inFlight hf], State.a0_of_inFlight hf, State.a1_of_inFlight hf⟩
  · have hp : (s.withFetchWord nbits w).pending = .engine :: s.pending := rfl
    rw [step_engine hp]
    exact engineTurn_ok rfl (decode_tableWord h)

end Sys2Proof.Machine
end

section
/-! SUPPORT. The bus accesses of a command (30_encoding.md R101) at any latency: what a command does does not depend on
the events to come, the last reply and the draws taken, and the polls change nothing else (70_reset_and_hazards.md
R273). -/

namespace Sys2Proof.Machine

/-! What no command looks at -/

/-- The state with other events to come, another last reply and another number of draws: the model's own fields
(logs 5, 7, 13). -/
def State.withEnv (s : State) (es : List Event) (r : Option Word) (n : Nat) : State :=
  { s with pending := es, reply := r, draws := n }

/-- An answer, its next state changed by `g`. -/
def mapNext (g : State → State) : Result → Result
  | .next t    => .next (g t)
  | .fault r   => .fault r
  | .refused r => .refused r

/-- A command chooses by the other fields between completions and faults, which leave these as they are. -/
theorem exec_withEnv (i : Instr) (s : State) (es : List Event) (r : Option Word) (n : Nat) :
    exec i (s.withEnv es r n) = mapNext (·.withEnv es r n) (exec i s) := by
  cases i <;>
    simp only [exec, execBvNew, execBvFromElem, execBvLen, execBvIsEmpty, execBvGet, execBvSet, execBvPush,
      execBvClear, execBvSetAll, execBvNegate, execBvReserve, execBvReadWord, execBvIterStart, execBvIterNext,
      execBfConfig, execBfInsert, execBfQuery, execBfClear, execBfIndex, inLegalMode, apply_ite (mapNext _)] <;>
    rfl

theorem engineTurn_withEnv (s : State) (es : List Event) (r : Option Word) (n : Nat) :
    engineTurn (s.withEnv es r n) = mapNext (·.withEnv es r n) (engineTurn s) := by
  have hfetch : (s.withEnv es r n).fetch = s.fetch := rfl
  rw [engineTurn, engineTurn, hfetch]
  cases s.fetch with
  | none => rfl
  | some d =>
    cases d with
    | illegal why => rfl
    | ok i => exact exec_withEnv i s es r n

/-- The engine's turn keeps CMD and takes no draw. -/
theorem engineTurn_frame {s t : State} (h : engineTurn s = .next t) : t.cmd = s.cmd ∧ t.draws = s.draws := by
  rcases engineTurn_cases s with ⟨-, h'⟩ | ⟨f, -, ⟨why, -, h'⟩ | ⟨i, -, h'⟩⟩
  · cases h'.symm.trans h
    exact ⟨rfl, rfl⟩
  · cases h'.symm.trans h
    exact ⟨rfl, rfl⟩
  · rcases exec_cases i s with ⟨code, he⟩ | ⟨u, r, n, he, hu⟩
    · cases (h'.trans he).symm.trans h
      exact ⟨rfl, rfl⟩
    · cases (h'.trans he).symm.trans h
      rw [hu]
      exact ⟨rfl, rfl⟩

/-! Runs of events -/

theorem steps_add {m : Nat} {s t : State} (h : steps m s = .next t) (n : Nat) : steps (m + n) s = steps n t := by
  induction m generalizing s with
  | zero => cases h; rw [Nat.zero_add]
  | succ m ih =>
    obtain ⟨u, hu, -⟩ := step_next s
    rw [Nat.succ_add, steps_succ hu]
    exact ih ((steps_succ hu).symm.trans h)

theorem steps_one {s t : State} (h : step s = .next t) : steps 1 s = .next t := steps_succ h

section

variable {s : State} {v : Word} {rest : List Event}

theorem step_write_arg0 (hi : s.inFlight = none) (hp : s.pending = .write 0x08#64 8#64 v :: rest) :
    step s = .next { s with pending := rest, arg0 := v, reply := none } :=
  (step_cons hp).trans (congrArg Host.Outcome.next (hostWrite_arg0 (by exact hi) v))

theorem step_write_arg1 (hi : s.inFlight = none) (hp : s.pending = .write 0x10#64 8#64 v :: rest) :
    step s = .next { s with pending := rest, arg1 := v, reply := none } :=
  (step_cons hp).trans (congrArg Host.Outcome.next (hostWrite_arg1 (by exact hi) v))

theorem step_write_cmd (hi : s.inFlight = none) (hf : s.fault = none)
    (hp : s.pending = .write 0x00#64 8#64 v :: rest) :
    step s = .next { s with
      pending := rest, cmd := v, reply := none, inFlight := some { c := v, a0 := s.arg0, a1 := s.arg1 } } :=
  (step_cons hp).trans (congrArg Host.Outcome.next (hostWrite_cmd (by exact hi) (by exact hf) v))

end

/-- The writes of a command's expansion, the engine idle and no fault recorded, issue it. -/
theorem steps_issue {c : Command} {s : State} {rest : List Event} (hwf : c.wf = true) (hi : s.inFlight = none)
    (hf : s.fault = none) (hp : s.pending = argWrites c ++ cmdWrite c :: rest) :
    steps ((argWrites c).length + 1) s = .next (({ s with pending := rest } : State).issued c) := by
  obtain ⟨i, args⟩ := c
  have hlen : args.length = i.arity := by simpa [Command.wf] using hwf
  have h2 : i.arity ≤ 2 := by cases i <;> simp [Instr.arity]
  match args, hlen with
  | [], _ => exact steps_one (step_write_cmd hi hf hp)
  | [a], _ => exact (steps_succ (step_write_arg0 hi hp)).trans (steps_one (step_write_cmd hi hf rfl))
  | [a, b], _ =>
    refine (steps_succ (step_write_arg0 hi hp)).trans ?_
    refine (steps_succ (step_write_arg1 (by exact hi) rfl)).trans ?_
    exact steps_one (step_write_cmd hi hf rfl)
  | _ :: _ :: _ :: _, hl => simp at hl; omega

/-- Polls that find the engine busy take a draw each and change nothing but what they reply. -/
theorem steps_polls (n : Nat) {s : State} {rest : List Event} (hi : s.inFlight ≠ none)
    (hp : s.pending = List.replicate n pollRead ++ rest) :
    ∃ r, steps n s = .next (s.withEnv rest r (s.draws + n)) := by
  induction n generalizing s with
  | zero =>
    obtain rfl : s.pending = rest := hp
    exact ⟨s.reply, rfl⟩
  | succ n ih =>
    have hstep := step_poll_busy hi hp
    obtain ⟨r, hr⟩ := ih (s := s.withEnv (List.replicate n pollRead ++ rest) _ (s.draws + 1)) hi rfl
    refine ⟨r, (steps_succ hstep).trans (hr.trans ?_)⟩
    rw [Nat.add_comm n 1, ← Nat.add_assoc]
    rfl

/-- The BUSY poll, whatever the latency, ends with the command in flight over and STATUS read. -/
theorem steps_wait {s t : State} {polls : Nat} {rest : List Event} (hi : s.inFlight ≠ none)
    (hp : s.pending = waitEvents polls ++ rest) (ht : engineTurn { s with pending := rest } = .next t) :
    steps (waitEvents polls).length s = .next { t with reply := some t.status, draws := t.draws + polls } := by
  obtain ⟨hidle, hrest⟩ := engineTurn_idle ht
  obtain ⟨-, hdraws⟩ := engineTurn_frame ht
  obtain ⟨r, hpolls⟩ := steps_polls polls (rest := .engine :: pollRead :: rest) hi (by rw [hp]; simp [waitEvents])
  have hturn : step (s.withEnv (.engine :: pollRead :: rest) r (s.draws + polls)) =
      .next (t.withEnv (pollRead :: rest) r (s.draws + polls)) :=
    (engineTurn_withEnv { s with pending := rest } (pollRead :: rest) r _).trans (congrArg (mapNext _) ht)
  have hread := step_poll_idle (s := t.withEnv (pollRead :: rest) r (s.draws + polls)) hidle rfl
  calc steps (waitEvents polls).length s
    _ = steps (polls + 2) s := by simp [waitEvents]
    _ = steps 2 (s.withEnv (.engine :: pollRead :: rest) r (s.draws + polls)) := steps_add hpolls 2
    _ = steps 1 (t.withEnv (pollRead :: rest) r (s.draws + polls)) := steps_succ hturn
    _ = .next (t.withEnv rest (some t.status) (s.draws + polls)) := steps_one hread
    _ = .next { t with reply := some t.status, draws := t.draws + polls } := by
      rw [hdraws]
      exact congrArg (fun es => Host.Outcome.next (t.withEnv es (some t.status) (s.draws + polls))) hrest.symm

/-- Settles O58: the writes issue the command, and the wait for it ends with its own rule's state. -/
theorem expansionRunsTheCommandAtAnyLatency : Obligations.ExpansionRunsTheCommandAtAnyLatency := by
  intro c s polls rest hwf hi hf hp
  have hwrites := hostWrites_issue (s := { s with pending := rest }) hwf hi hf
  obtain ⟨t, ht⟩ := engineTurn_next (({ s with pending := rest } : State).issued c)
  refine ⟨t, (congrArg engineTurn hwrites).trans ht, State.busy_eq_false.2 (engineTurn_idle ht).1,
    (engineTurn_frame ht).1, ?_⟩
  have hissue := steps_issue (rest := waitEvents polls ++ rest) hwf hi hf (by rw [hp]; simp [commandEvents])
  have hlen : (commandEvents c polls).length = (argWrites c).length + 1 + (waitEvents polls).length := by
    rw [commandEvents, List.length_append, List.length_cons, Nat.add_assoc, Nat.add_comm 1]
  rw [hlen, steps_add hissue]
  exact steps_wait (by simp [State.issued]) rfl ht

end Sys2Proof.Machine
end

section
/-! SUPPORT. SIZE (41_bloom.md R160 to R163) and what `bf.create` emits (30_encoding.md R102). -/

namespace Sys2Proof.Machine

section

variable {capacity m k : Nat} {x : ℝ}

/-- SIZE has one value at most. -/
theorem IsSize.unique (h : IsSize capacity x m k) {m' k' : Nat} (h' : IsSize capacity x m' k') : m' = m ∧ k' = k := by
  obtain ⟨-, hm, hk⟩ := h
  obtain ⟨-, hm', hk'⟩ := h'
  obtain rfl : m' = m := by exact_mod_cast hm'.trans hm.symm
  exact ⟨rfl, by exact_mod_cast hk'.trans hk.symm⟩

/-- SIZE asks for at least one bit and one probe (41_bloom.md R163). -/
theorem IsSize.pos (h : IsSize capacity x m k) : 0 < m ∧ 0 < k := by
  obtain ⟨⟨hcap, hx0, hx1⟩, hm, hk⟩ := h
  have hcap : (0 : ℝ) < capacity := by exact_mod_cast hcap
  have hlog2 : 0 < Real.log 2 := Real.log_pos one_lt_two
  have hlog : 0 < |Real.log x| := abs_pos.2 (Real.log_neg hx0 hx1).ne
  have hmpos : 0 < m := Int.natCast_pos.1 (hm ▸ Int.ceil_pos.2 (by positivity))
  exact ⟨hmpos, Int.natCast_pos.1 (hk ▸ Int.ceil_pos.2 (by positivity))⟩

end

/-- `bf.config m, k`: what `assembleCreate` and `CreateEmits` write out (`assembleCreate_eq_ok_iff`,
`createEmits_iff`). -/
def configCommand (m k : Nat) : Command := { instr := .bfConfig, args := [BitVec.ofNat 64 m, BitVec.ofNat 64 k] }

/-! The assembler -/

/-- The assembler's check of a rate is SIZE's precondition on it (41_bloom.md R161). -/
theorem Rate.Denotes.valid_iff {rate : Rate} {x : ℝ} (h : rate.Denotes x) : rate.valid = true ↔ 0 < x ∧ x < 1 := by
  rw [Rate.valid, Bool.and_eq_true, decide_eq_true_iff, decide_eq_true_iff, h]
  cases rate.den.eq_zero_or_pos with
  | inl hden => simp [hden]
  | inr hden =>
    have hden : (0 : ℝ) < rate.den := by exact_mod_cast hden
    rw [div_pos_iff_of_pos_right hden, div_lt_one hden, Nat.cast_pos, Nat.cast_lt]

/-- The assembler's checks before it sizes a filter are SIZE's preconditions (R161). -/
theorem Rate.Denotes.sizePre_iff {rate : Rate} {x : ℝ} (h : rate.Denotes x) {capacity : Nat} :
    SizePre capacity x ↔ capacity ≠ 0 ∧ rate.valid = true := by
  rw [h.valid_iff, SizePre, Nat.one_le_iff_ne_zero]

section

variable {host : AsmHost} {capacity : Nat} {rate : Rate} {x : ℝ}

/-- `bf.create` passes its checks exactly if SIZE's preconditions hold and its answer fits the device (R102). -/
theorem assembleCreate_eq_ok_iff (h : rate.Denotes x) {item : Item} :
    assembleCreate host capacity rate = .ok item ↔
      SizePre capacity x ∧
      ((host.size capacity rate).1 ≤ host.params.nbitsMax.toNat ∧
        (host.size capacity rate).2 ≤ host.params.kMax.toNat) ∧
      item = .command (configCommand (host.size capacity rate).1 (host.size capacity rate).2) := by
  rw [h.sizePre_iff]
  by_cases hc : capacity = 0
  · simp [assembleCreate, hc]
  · cases hv : rate.valid with
    | false => simp [assembleCreate, hc, hv]
    | true =>
      rw [assembleCreate, if_neg hc, if_pos hv]
      dsimp only
      split
      next hfits =>
        rw [Assembled.ok.injEq]
        exact ⟨fun hitem => ⟨⟨hc, rfl⟩, hfits, hitem.symm⟩, fun ⟨_, _, hitem⟩ => hitem.symm⟩
      next hlarge => exact ⟨nofun, fun ⟨_, hfits, _⟩ => absurd hfits hlarge⟩

/-- With an exact host, what `bf.create` emits is what the host's answer says (R102). -/
theorem createEmits_iff (hhost : host.SizesExactly) (h : rate.Denotes x) {c : Command} :
    CreateEmits host.params capacity x c ↔
      SizePre capacity x ∧
      ((host.size capacity rate).1 ≤ host.params.nbitsMax.toNat ∧
        (host.size capacity rate).2 ≤ host.params.kMax.toNat) ∧
      c = configCommand (host.size capacity rate).1 (host.size capacity rate).2 := by
  constructor
  · rintro ⟨m, k, hsize, hm, hk, hc⟩
    obtain ⟨hm', hk'⟩ := hsize.unique (hhost capacity rate x h hsize.1)
    rw [hm', hk']
    exact ⟨hsize.1, ⟨hm, hk⟩, hc⟩
  · rintro ⟨hpre, ⟨hm, hk⟩, hc⟩
    exact ⟨_, _, hhost capacity rate x h hpre, hm, hk, hc⟩

end

/-! The engine -/

/-- BF_CONFIG of legal numbers configures the filter (41_bloom.md R168). -/
theorem runCommand_configCommand {s : State} {m k : Nat} (hr : s.ready = true) (hm : 0 < m) (hk : 0 < k)
    (hmmax : m ≤ s.params.nbitsMax.toNat) (hkmax : k ≤ s.params.kMax.toNat) :
    ∃ t, runCommand (configCommand m k) s = .next t ∧ t.fault = none ∧ t.mode = .filter ∧
      t.nbits.toNat = m ∧ t.k.toNat = k := by
  obtain ⟨hi, hf⟩ := State.ready_iff.1 hr
  have hmnat : (BitVec.ofNat 64 m).toNat = m := Nat.mod_eq_of_lt (hmmax.trans_lt s.params.nbitsMax.isLt)
  have hknat : (BitVec.ofNat 64 k).toNat = k := Nat.mod_eq_of_lt (hkmax.trans_lt s.params.kMax.isLt)
  have hgood : ¬((BitVec.ofNat 64 m).toNat = 0 ∨ s.params.nbitsMax.toNat < (BitVec.ofNat 64 m).toNat ∨
      (BitVec.ofNat 64 k).toNat = 0 ∨ s.params.kMax.toNat < (BitVec.ofNat 64 k).toNat) := by
    rw [hmnat, hknat]
    omega
  exact ⟨_, (runCommand_eq rfl hi hf).trans (if_neg hgood), hf, rfl, hmnat, hknat⟩

/-- Settles O60: the assembler's checks are SIZE's preconditions and the device's bounds, and SIZE asks for at least one
bit and one probe, so the engine has no reason to refuse. -/
theorem createdFilterIsNeverRefused : Obligations.CreatedFilterIsNeverRefused := by
  refine ⟨fun host capacity rate x item hhost h => ?_, fun s capacity m k x c hr hsize hemits => ?_⟩
  · simp only [assembleCreate_eq_ok_iff h, createEmits_iff hhost h]
    exact ⟨fun ⟨hpre, hfits, hitem⟩ => ⟨_, hitem, hpre, hfits, rfl⟩,
      fun ⟨c, hitem, hpre, hfits, hc⟩ => ⟨hpre, hfits, hc ▸ hitem⟩⟩
  · obtain ⟨m', k', hsize', hm, hk, rfl⟩ := hemits
    obtain ⟨rfl, rfl⟩ := hsize.unique hsize'
    exact runCommand_configCommand hr hsize.pos.1 hsize.pos.2 hm hk

end Sys2Proof.Machine
end

section
/-! SUPPORT. What the BV_* commands do to the words and bits of STORE (40_bitvector.md R112, R117, R120). -/

namespace Sys2Proof.Machine

namespace Memory

variable {m : Memory} (hm : wf m = true) {W : Nat} (hW : W ≤ 64) (hpos : 0 < W)

/-! Filling -/

include hm hW hpos in
/-- Every position below the length of a filled container is the value filled in. -/
theorem bit_fill {n p : Nat} (hp : p < n) (v : Bool) : bit W (fill W n v m) p = v := by
  have hb : p % W < W := Nat.mod_lt p hpos
  rw [bit, word_fill hm hW hpos, if_pos (div_lt_ceilDiv hpos hp)]
  cases v with
  | false => exact BitVec.getLsbD_zero
  | true =>
    rw [if_pos rfl]
    split
    next hlast => simp [getLsbD_tailMask_last hW hpos hlast, hb, Nat.div_add_mod', hp]
    next => simp [getLsbD_ones hW, hb]

/-! Negation -/

/-- BV_NEGATE's words for length `n`: the live words flipped, the tail masked (40_bitvector.md R120). -/
def negate (W n : Nat) (m : Memory) : Memory :=
  maskTail W n (mapWords (ceilDiv n W) (fun x => ~~~x &&& ones W) m)

include hm in
theorem wf_negate (W n : Nat) : wf (negate W n m) = true := wf_maskTail (wf_mapWords hm _ _) W n

include hm in
/-- Negation leaves the words past the length. -/
theorem word_negate_of_le {W n w : Nat} (hw : ceilDiv n W ≤ w) : word (negate W n m) w = word m w := by
  rw [negate, word_maskTail (wf_mapWords hm _ _), if_neg (by omega), word_mapWords, if_neg (Nat.not_lt.2 hw)]

include hm hW hpos in
/-- Negation flips the live bits and leaves no other 1 in a live word. -/
theorem getLsbD_word_negate {n w : Nat} (hw : w < ceilDiv n W) (b : Nat) :
    (word (negate W n m) w).getLsbD b =
      (decide (b < W) && decide (w * W + b < n) && !(word m w).getLsbD b) := by
  have hflip : (~~~word m w &&& ones W).getLsbD b = (decide (b < W) && !(word m w).getLsbD b) := by
    rw [BitVec.getLsbD_and, BitVec.getLsbD_not, getLsbD_ones hW]
    by_cases hb : b < W
    · simp [hb, hb.trans_le hW]
    · simp [hb]
  rw [negate, word_maskTail (wf_mapWords hm _ _), word_mapWords, if_pos hw]
  split
  next hlast =>
    rw [BitVec.getLsbD_and, hflip, getLsbD_tailMask_last hW hpos hlast]
    cases decide (b < W) <;> simp [Bool.and_comm]
  next hmid =>
    rw [hflip]
    by_cases hb : b < W
    · have hfull : (w + 1) * W < n := (lt_ceilDiv hpos).1 (by omega)
      have hlive : w * W + b < n := by rw [Nat.add_mul] at hfull; omega
      simp [hb, hlive]
    · simp [hb]

include hm hW hpos in
theorem bit_negate {n p : Nat} (hp : p < n) : bit W (negate W n m) p = !bit W m p := by
  have hb : p % W < W := Nat.mod_lt p hpos
  rw [bit, getLsbD_word_negate hm hW hpos (div_lt_ceilDiv hpos hp)]
  simp [hb, Nat.div_add_mod', hp, bit]

/-! One bit written -/

include hm in
theorem word_setBit_of_ne {W p w : Nat} (hw : w ≠ p / W) (v : Bool) : word (setBit W m p v) w = word m w := by
  rw [word_setBit hm, if_neg hw]

include hm hW hpos in
theorem getLsbD_word_setBit (p : Nat) (v : Bool) (b : Nat) :
    (word (setBit W m p v) (p / W)).getLsbD b = if b = p % W then v else (word m (p / W)).getLsbD b := by
  rw [word_setBit hm, if_pos rfl, getLsbD_withBit _ ((Nat.mod_lt p hpos).trans_le hW)]

/-! One more bit -/

/-- BV_PUSH's words at length `n`: a new word zeroed, then bit n written (40_bitvector.md R117). -/
def push (W n : Nat) (v : Bool) (m : Memory) : Memory :=
  setBit W (if n % W = 0 then setWord m (n / W) 0#64 else m) n v

include hm in
theorem wf_grown (W n : Nat) : wf (if n % W = 0 then setWord m (n / W) 0#64 else m) = true := by
  split
  · exact wf_setWord hm _ _
  · exact hm

include hm in
theorem wf_push (W n : Nat) (v : Bool) : wf (push W n v m) = true := wf_setBit (wf_grown hm W n) W n v

include hm in
/-- A push writes the word of the new position, which it takes as 0 where it is new. -/
theorem word_push (W n : Nat) (v : Bool) (w : Nat) :
    word (push W n v m) w =
      if w = n / W then withBit (if n % W = 0 then 0#64 else word m w) (n % W) v else word m w := by
  rw [push, word_setBit (wf_grown hm W n)]
  by_cases hw : w = n / W
  · rw [if_pos hw, if_pos hw]
    split
    · rw [word_setWord hm, if_pos hw]
    · rfl
  · rw [if_neg hw, if_neg hw]
    split
    · rw [word_setWord hm, if_neg hw]
    · rfl

include hm in
theorem word_push_of_ne {n w : Nat} (hw : w ≠ n / W) (v : Bool) : word (push W n v m) w = word m w := by
  rw [word_push hm, if_neg hw]

include hm in
theorem word_push_new {n : Nat} (hn : n % W = 0) (v : Bool) :
    word (push W n v m) (n / W) = if v then 1#64 else 0#64 := by
  rw [word_push hm, if_pos rfl, if_pos hn, hn]
  cases v <;> rfl

include hm hW hpos in
theorem getLsbD_word_push {n : Nat} (hn : n % W ≠ 0) (v : Bool) (b : Nat) :
    (word (push W n v m) (n / W)).getLsbD b = if b = n % W then v else (word m (n / W)).getLsbD b := by
  rw [word_push hm, if_pos rfl, if_neg hn, getLsbD_withBit _ ((Nat.mod_lt n hpos).trans_le hW)]

include hm hW hpos in
theorem bit_push_self (n : Nat) (v : Bool) : bit W (push W n v m) n = v := by
  rw [push, bit_setBit (wf_grown hm W n) hW hpos, if_pos rfl]

include hm hW hpos in
/-- A push leaves the positions below it: a new word holds none of them. -/
theorem bit_push_of_lt {n p : Nat} (hp : p < n) (v : Bool) : bit W (push W n v m) p = bit W m p := by
  rw [push, bit_setBit (wf_grown hm W n) hW hpos, if_neg (Nat.ne_of_lt hp)]
  split
  next hn =>
    have hw : p / W ≠ n / W := by
      refine Nat.ne_of_lt ((Nat.div_lt_iff_lt_mul hpos).2 ?_)
      rwa [Nat.div_mul_cancel (Nat.dvd_of_mod_eq_zero hn)]
    rw [bit, word_setWord hm, if_neg hw, bit]
  next => rfl

end Memory

end Sys2Proof.Machine
end

section
/-! SUPPORT. What each BV_* command answers (40_bitvector.md R111 to R124): the mode fault once for every command, and
the next state of each command in each of its cases. -/

namespace Sys2Proof.Machine

/-! The mode check -/

theorem exec_eq_inLegalMode (i : Instr) (s : State) : ∃ body, exec i s = inLegalMode i s body := by
  cases i <;> exact ⟨_, rfl⟩

/-- A command that is not legal in the mode raises ERR_MODE and does nothing else (30_encoding.md R98). -/
theorem exec_of_illegalInMode {i : Instr} {s : State} (h : legalInMode i s.mode = false) :
    exec i s = .next (s.faultEntry .errMode) := by
  obtain ⟨body, he⟩ := exec_eq_inLegalMode i s
  rw [he, inLegalMode_of_illegal h, State.faulted_eq_faultEntry]

theorem raiseFault_eq (code : FaultCode) (s : State) : raiseFault code s = .next (s.faultEntry code) :=
  congrArg _ (s.faulted_eq_faultEntry code)

theorem ofNat_toNat_succ (x : Word) : BitVec.ofNat 64 (x.toNat + 1) = x + 1#64 :=
  BitVec.eq_of_toNat_eq (by simp [BitVec.toNat_add])

theorem toNat_succ_of_lt {x y : Word} (h : x.toNat < y.toNat) : (x + 1#64).toNat = x.toNat + 1 := by
  rw [← ofNat_toNat_succ]
  exact Nat.mod_eq_of_lt (by omega)

section

variable {s : State} {v : Bool}

/-! The commands legal in either mode -/

theorem exec_bvNew (s : State) : exec .bvNew s =
    .next (({ s with nbits := 0#64, capwords := 0#64, mode := .vector, k := 0#64 } : State).closeIter.completed
      0#64 false) := rfl

theorem exec_bvFromElem_of_lt (h : s.params.nbitsMax.toNat < s.a0.toNat) :
    exec (.bvFromElem v) s = .next (s.faultEntry .errCapacity) := by
  rw [exec, execBvFromElem, inLegalMode_of_legal rfl, ← raiseFault_eq]
  exact if_pos h

theorem exec_bvFromElem_of_le (h : s.a0.toNat ≤ s.params.nbitsMax.toNat) :
    exec (.bvFromElem v) s =
      .next (({ s with
        store := Memory.fill s.W s.a0.toNat v s.store, nbits := s.a0
        capwords := BitVec.ofNat 64 (ceilDiv s.a0.toNat s.W), mode := .vector, k := 0#64 } : State).closeIter.completed
          0#64 false) := by
  rw [exec, execBvFromElem, inLegalMode_of_legal rfl]
  exact if_neg (Nat.not_lt.2 h)

theorem exec_bvLen (s : State) : exec .bvLen s = .next (s.completed s.nbits false) := rfl

theorem exec_bvIsEmpty (s : State) :
    exec .bvIsEmpty s = .next (s.completed (bitWord (s.nbits.toNat == 0)) false) := rfl

theorem exec_bvGet_of_le (h : s.nbits.toNat ≤ s.a0.toNat) : exec .bvGet s = .next (s.completed 0#64 true) := by
  have habsent : absentFlag s.a0.toNat s.nbits.toNat = true := decide_eq_true h
  rw [exec, execBvGet, inLegalMode_of_legal rfl]
  simp [habsent, complete]

theorem exec_bvReadWord_of_le (h : s.nwords ≤ s.a0.toNat) :
    exec .bvReadWord s = .next (s.completed 0#64 true) := by
  have habsent : absentFlag s.a0.toNat s.nwords = true := decide_eq_true h
  rw [exec, execBvReadWord, inLegalMode_of_legal rfl]
  simp [habsent, complete]

theorem exec_bvIterStart (s : State) : exec .bvIterStart s =
    .next (({ s with iterActive := true, iterPos := 0#64 } : State).completed 0#64 false) := rfl

theorem exec_bvIterNext_of_closed (h : s.iterActive = false) :
    exec .bvIterNext s = .next (s.faultEntry .errIter) := by
  rw [exec, execBvIterNext, inLegalMode_of_legal rfl, ← raiseFault_eq]
  exact if_neg (ne_true_of_eq_false h)

theorem exec_bvIterNext_of_lt (ha : s.iterActive = true) (h : s.iterPos.toNat < s.nbits.toNat) :
    exec .bvIterNext s =
      .next (({ s with iterPos := s.iterPos + 1#64 } : State).completed (bitWord (s.bit s.iterPos.toNat)) false) := by
  have hlive : absentFlag s.iterPos.toNat s.nbits.toNat = false := decide_eq_false (Nat.not_le.2 h)
  rw [exec, execBvIterNext, inLegalMode_of_legal rfl]
  simp [ha, hlive, complete, ← ofNat_toNat_succ]

theorem exec_bvIterNext_of_le (ha : s.iterActive = true) (h : s.nbits.toNat ≤ s.iterPos.toNat) :
    exec .bvIterNext s = .next (s.completed 0#64 true) := by
  have hend : absentFlag s.iterPos.toNat s.nbits.toNat = true := decide_eq_true h
  rw [exec, execBvIterNext, inLegalMode_of_legal rfl]
  simp [ha, hend, complete]

/-! The commands legal in VECTOR mode only -/

section

variable (hm : s.mode = .vector)
include hm

theorem exec_bvSet_of_le (h : s.nbits.toNat ≤ s.a0.toNat) :
    exec (.bvSet v) s = .next (s.faultEntry .errRange) := by
  rw [exec, execBvSet, inLegalMode_of_legal (by rw [hm]; rfl), ← raiseFault_eq]
  exact if_pos h

theorem exec_bvSet_of_lt (h : s.a0.toNat < s.nbits.toNat) :
    exec (.bvSet v) s =
      .next (({ s with store := Memory.setBit s.W s.store s.a0.toNat v } : State).closeIter.completed 0#64 false) := by
  rw [exec, execBvSet, inLegalMode_of_legal (by rw [hm]; rfl)]
  exact if_neg (Nat.not_le.2 h)

theorem exec_bvPush_of_full (h : s.nbits.toNat = s.params.nbitsMax.toNat) :
    exec (.bvPush v) s = .next (s.faultEntry .errCapacity) := by
  rw [exec, execBvPush, inLegalMode_of_legal (by rw [hm]; rfl), ← raiseFault_eq]
  exact if_pos h

theorem exec_bvPush_of_lt (h : s.nbits.toNat < s.params.nbitsMax.toNat) :
    exec (.bvPush v) s =
      .next (({ s with
        store := Memory.push s.W s.nbits.toNat v s.store, nbits := s.nbits + 1#64
        capwords := BitVec.ofNat 64 (max s.capwords.toNat (ceilDiv (s.nbits.toNat + 1) s.W)) } :
          State).closeIter.completed 0#64 false) := by
  rw [exec, execBvPush, inLegalMode_of_legal (by rw [hm]; rfl), ← ofNat_toNat_succ]
  exact if_neg (Nat.ne_of_lt h)

theorem exec_bvClear : exec .bvClear s =
    .next (({ s with store := Memory.zeroWords s.nwords s.store } : State).closeIter.completed 0#64 false) := by
  rw [exec, execBvClear, inLegalMode_of_legal (by rw [hm]; rfl), complete]

/-- BV_SET_ALL writes the words of BV_FROM_ELEM (40_bitvector.md R119). -/
theorem exec_bvSetAll : exec .bvSetAll s =
    .next (({ s with store := Memory.fill s.W s.nbits.toNat true s.store } : State).closeIter.completed
      0#64 false) := by
  rw [exec, execBvSetAll, inLegalMode_of_legal (by rw [hm]; rfl)]
  rfl

theorem exec_bvNegate : exec .bvNegate s =
    .next (({ s with store := Memory.negate s.W s.nbits.toNat s.store } : State).closeIter.completed
      0#64 false) := by
  rw [exec, execBvNegate, inLegalMode_of_legal (by rw [hm]; rfl)]
  rfl

theorem exec_bvReserve_of_lt (h : s.params.nbitsMax.toNat < s.nbits.toNat + s.a0.toNat) :
    exec .bvReserve s = .next (s.faultEntry .errCapacity) := by
  rw [exec, execBvReserve, inLegalMode_of_legal (by rw [hm]; rfl), ← raiseFault_eq]
  exact if_pos h

theorem exec_bvReserve_of_le (h : s.nbits.toNat + s.a0.toNat ≤ s.params.nbitsMax.toNat) :
    exec .bvReserve s =
      .next (({ s with
        capwords := BitVec.ofNat 64 (max s.capwords.toNat (ceilDiv (s.nbits.toNat + s.a0.toNat) s.W)) } :
          State).closeIter.completed 0#64 false) := by
  rw [exec, execBvReserve, inLegalMode_of_legal (by rw [hm]; rfl)]
  exact if_neg (Nat.not_lt.2 h)

end

end

/-! The statements -/

/-- Settles O13: BV_NEW is legal in either mode and has no fault. -/
theorem bvNewMakesTheStorageAnEmptyContainer : Obligations.BvNewMakesTheStorageAnEmptyContainer :=
  ⟨decode_cmdValue .bvNew, exec_bvNew⟩

/-- The words of a fill, the last one written as the mask of all ones (40_bitvector.md R112, R119). -/
theorem Memory.word_fill_ones {m : Memory} (hm : Memory.wf m = true) {W : Nat} (hW : W ≤ 64) (hpos : 0 < W) (n : Nat)
    (v : Bool) (w : Nat) :
    Memory.word (Memory.fill W n v m) w =
      if w < ceilDiv n W then
        (if v then (if w + 1 = ceilDiv n W then ones W &&& tailMask W n else ones W) else 0#64)
      else Memory.word m w := by
  rw [ones_and_tailMask hW hpos, Memory.word_fill hm hW hpos]

/-- Settles O14: what a fill does to every word, and so to every position below the length. -/
theorem bvFromElemFillsAndMasks : Obligations.BvFromElemFillsAndMasks :=
  ⟨decode_cmdValue (.bvFromElem false), decode_cmdValue (.bvFromElem true), fun v s hwf =>
    ⟨exec_bvFromElem_of_lt, fun h => ⟨_, exec_bvFromElem_of_le h, Memory.wf_fill hwf _ _ v,
      Memory.word_fill_ones hwf s.W_le s.W_pos _ v, fun _ hp => Memory.bit_fill hwf s.W_le s.W_pos hp v⟩⟩⟩

theorem bitWord_toNat_beq_zero (x : Word) : bitWord (x.toNat == 0) = if x = 0#64 then 1#64 else 0#64 := by
  have hzero : (x.toNat == 0) = decide (x = 0#64) := by
    rw [Bool.beq_eq_decide_eq, decide_eq_decide]
    exact BitVec.toNat_inj (y := 0#64)
  rw [hzero]
  by_cases hx : x = 0#64 <;> simp [bitWord, hx]

/-- Settles O15: both queries read NBITS, which a filter's invariant keeps from 0. -/
theorem lengthQueriesReturnTheLength : Obligations.LengthQueriesReturnTheLength :=
  ⟨decode_cmdValue .bvLen, decode_cmdValue .bvIsEmpty, fun s =>
    ⟨exec_bvLen s, by rw [exec_bvIsEmpty, bitWord_toNat_beq_zero]; rfl,
      fun hinv hf hn => Nat.ne_of_gt (hinv.nbits_pos hf) (congrArg BitVec.toNat hn)⟩⟩

theorem State.bitWord_bit (s : State) (p : Nat) : bitWord (s.bit p) = (s.word (p / s.W) >>> (p % s.W)) &&& 1#64 :=
  bitWord_getLsbD (s.word (p / s.W)) (p % s.W)

/-- Settles O16: a position below NBITS is read, any other answers "absent". -/
theorem bvGetReadsTheBitOrAnswersAbsent : Obligations.BvGetReadsTheBitOrAnswersAbsent :=
  ⟨decode_cmdValue .bvGet, fun s =>
    ⟨fun h => by rw [exec_bvGet_of_lt h, State.bitWord_bit]; rfl, exec_bvGet_of_le⟩⟩

/-- Settles O17: the faults are raised before the write, which is BitSet of one bit. -/
theorem bvSetWritesOneBit : Obligations.BvSetWritesOneBit :=
  ⟨decode_cmdValue (.bvSet false), decode_cmdValue (.bvSet true), fun v s hwf =>
    ⟨fun hf => exec_of_illegalInMode (by rw [hf]; rfl), exec_bvSet_of_le, fun hm hi =>
      ⟨_, exec_bvSet_of_lt hm hi, Memory.wf_setBit hwf _ _ v, fun _ hw => Memory.word_setBit_of_ne hwf hw v,
        Memory.getLsbD_word_setBit hwf s.W_le s.W_pos _ v, Memory.bit_setBit hwf s.W_le s.W_pos _ v⟩⟩⟩

/-- Settles O18: a push writes the word of position NBITS, zeroed first where the position begins a word. -/
theorem bvPushAppendsOneBit : Obligations.BvPushAppendsOneBit :=
  ⟨decode_cmdValue (.bvPush false), decode_cmdValue (.bvPush true), fun v s hwf =>
    ⟨fun hf => exec_of_illegalInMode (by rw [hf]; rfl), exec_bvPush_of_full, fun hm hn =>
      ⟨_, exec_bvPush_of_lt hm hn, toNat_succ_of_lt hn, Memory.wf_push hwf _ _ v,
        fun _ hw => Memory.word_push_of_ne hwf hw v, fun hnew => Memory.word_push_new hwf hnew v,
        fun hold => Memory.getLsbD_word_push hwf s.W_le s.W_pos hold v,
        fun _ hp => Memory.bit_push_of_lt hwf s.W_le s.W_pos hp v, Memory.bit_push_self hwf s.W_le s.W_pos _ v⟩⟩⟩

/-- Settles O19: the pass zeroes the words below NWORDS. -/
theorem bvClearZeroesEveryLiveWord : Obligations.BvClearZeroesEveryLiveWord :=
  ⟨decode_cmdValue .bvClear, fun s hwf =>
    ⟨fun hf => exec_of_illegalInMode (by rw [hf]; rfl), fun hm =>
      ⟨_, exec_bvClear hm, Memory.wf_zeroWords hwf _, Memory.word_zeroWords s.nwords s.store⟩⟩⟩

/-- Settles O20: the words are those of a fill with 1 at length NBITS. -/
theorem bvSetAllSetsEveryLiveBit : Obligations.BvSetAllSetsEveryLiveBit :=
  ⟨decode_cmdValue .bvSetAll, fun s hwf =>
    ⟨fun hf => exec_of_illegalInMode (by rw [hf]; rfl), fun hm =>
      ⟨_, exec_bvSetAll hm, Memory.wf_fill hwf _ _ true, Memory.word_fill_ones hwf s.W_le s.W_pos _ true,
        fun _ hp => Memory.bit_fill hwf s.W_le s.W_pos hp true⟩⟩⟩

/-- Settles O21: the flip, and the mask that takes the tail bits back to 0. -/
theorem bvNegateFlipsEveryLiveBit : Obligations.BvNegateFlipsEveryLiveBit :=
  ⟨decode_cmdValue .bvNegate, fun s hwf =>
    ⟨fun hf => exec_of_illegalInMode (by rw [hf]; rfl), fun hm =>
      ⟨_, exec_bvNegate hm, Memory.wf_negate hwf _ _, fun _ hw => Memory.word_negate_of_le hwf hw,
        fun _ b hw => Memory.getLsbD_word_negate hwf s.W_le s.W_pos hw b,
        fun _ hp => Memory.bit_negate hwf s.W_le s.W_pos hp⟩⟩⟩

/-- Settles O22: both bounds of the new CAPWORDS are 64-bit values, so it is the maximum itself. -/
theorem bvReserveRaisesTheReservedCapacity : Obligations.BvReserveRaisesTheReservedCapacity := by
  refine ⟨decode_cmdValue .bvReserve, fun s => ⟨fun hf => exec_of_illegalInMode (by rw [hf]; rfl),
    exec_bvReserve_of_lt, fun hm h => ⟨_, exec_bvReserve_of_le hm h, Nat.mod_eq_of_lt (max_lt s.capwords.isLt ?_)⟩⟩⟩
  exact ((ceilDiv_le_self s.W_pos).trans h).trans_lt s.params.nbitsMax.isLt

/-- Settles O23: a word below NWORDS is read, any other answers "absent"; the invariant bounds the word. -/
theorem bvReadWordReadsALiveWordOrAnswersAbsent : Obligations.BvReadWordReadsALiveWordOrAnswersAbsent :=
  ⟨decode_cmdValue .bvReadWord, fun _ =>
    ⟨exec_bvReadWord_of_lt, exec_bvReadWord_of_le, fun hinv =>
      ⟨hinv.wordFits _, fun hlast _ hr hb => hinv.tail_bit hlast hr hb⟩⟩⟩

/-- Settles O24: BV_ITER_START is legal in either mode and has no fault. -/
theorem bvIterStartOpensAnIterationAtZero : Obligations.BvIterStartOpensAnIterationAtZero :=
  ⟨decode_cmdValue .bvIterStart, exec_bvIterStart⟩

/-- Settles O25: no iteration open, one at a live position, one at the end. -/
theorem bvIterNextYieldsTheNextBit : Obligations.BvIterNextYieldsTheNextBit :=
  ⟨decode_cmdValue .bvIterNext, fun s =>
    ⟨exec_bvIterNext_of_closed, fun ha h => by rw [exec_bvIterNext_of_lt ha h, State.bitWord_bit]; rfl,
      exec_bvIterNext_of_le⟩⟩

end Sys2Proof.Machine
end

section
/-! SUPPORT. How a command ends: which commands close the iteration (40_bitvector.md R125), and the tail bits after any
command (R126, R129). -/

namespace Sys2Proof.Machine

/-! Fault or completion -/

/-- The answer of a command from `s` is a fault entry, or the completion of a state that satisfies `P`. -/
def Ends (s : State) (P : State → Prop) (x : Result) : Prop :=
  (∃ code, x = .next (s.faulted code)) ∨ ∃ u r absent, x = .next (State.completed u r absent) ∧ P u

section

variable {s u : State} {P : State → Prop} {x y : Result}

theorem ends_raiseFault (code : FaultCode) : Ends s P (raiseFault code s) := .inl ⟨code, rfl⟩

theorem ends_complete {r : Word} {absent : Bool} (hu : P u) : Ends s P (complete r absent u) :=
  .inr ⟨u, r, absent, rfl, hu⟩

theorem ends_ite {c : Prop} [Decidable c] (hx : Ends s P x) (hy : Ends s P y) : Ends s P (if c then x else y) := by
  split
  · exact hx
  · exact hy

theorem ends_inLegalMode {i : Instr} (hx : Ends s P x) : Ends s P (inLegalMode i s x) :=
  ends_ite hx (ends_raiseFault .errMode)

end

/-- `invalidate_iter()` has been performed (40_bitvector.md R125). -/
def State.IterClosed (u : State) : Prop := u.iterActive = false ∧ u.iterPos = 0#64

theorem State.iterClosed_closeIter (u : State) : u.closeIter.IterClosed := ⟨rfl, rfl⟩

theorem ends_closed {s : State} (u : State) : Ends s State.IterClosed (complete 0#64 false u.closeIter) :=
  ends_complete u.iterClosed_closeIter

/-- A command of the mutating class closes the iteration before it completes. -/
theorem exec_mutating_ends {i : Instr} (h : mutating i = true) (s : State) : Ends s State.IterClosed (exec i s) := by
  cases i
  case bvLen | bvIsEmpty | bvGet | bvReadWord | bvIterStart | bvIterNext | bfQuery | bfIndex => cases h
  case bvNew | bvClear | bvSetAll | bvNegate | bfInsert | bfClear =>
    rw [exec]
    exact ends_inLegalMode (ends_closed _)
  case bvFromElem v | bvSet v | bvPush v | bvReserve | bfConfig =>
    rw [exec]
    exact ends_inLegalMode (ends_ite (ends_raiseFault _) (ends_closed _))

/-- The queries of the two families: the commands that only answer. -/
def isQuery : Instr → Bool
  | .bvLen | .bvIsEmpty | .bvGet | .bvReadWord | .bfQuery | .bfIndex => true
  | _ => false

theorem ends_answer {s : State} (r : Word) (absent : Bool) : Ends s (· = s) (complete r absent s) := ends_complete rfl

/-- A query completes the state it finds. -/
theorem exec_query_ends {i : Instr} (h : isQuery i = true) (s : State) : Ends s (· = s) (exec i s) := by
  cases i
  case bvLen | bvIsEmpty | bvGet | bvReadWord | bfQuery =>
    rw [exec]
    exact ends_inLegalMode (ends_answer _ _)
  case bfIndex =>
    rw [exec]
    exact ends_inLegalMode (ends_ite (ends_raiseFault _) (ends_answer _ _))
  all_goals cases h

/-- Settles O38: a mutating command closes the iteration before it completes; a query completes the state it finds. -/
theorem mutatingCommandsCloseTheIteration : Obligations.MutatingCommandsCloseTheIteration := by
  refine fun i s t he => ⟨fun hi => ?_, fun hi => ?_⟩
  · have hmut : mutating i = true := by
      rcases hi with rfl | ⟨v, rfl⟩ | ⟨v, rfl⟩ | ⟨v, rfl⟩ | rfl | rfl | rfl | rfl | rfl | rfl | rfl <;> rfl
    rcases exec_mutating_ends hmut s with ⟨code, hx⟩ | ⟨u, r, absent, hx, hu⟩
    · cases he.symm.trans hx
      exact .inr ⟨code, s.faulted_eq_faultEntry code⟩
    · cases he.symm.trans hx
      exact .inl hu
  · have hq : isQuery i = true := by
      rcases hi with rfl | rfl | rfl | rfl | rfl | rfl <;> rfl
    rcases exec_query_ends hq s with ⟨code, hx⟩ | ⟨u, r, absent, hx, rfl⟩
    · cases he.symm.trans hx
      exact ⟨rfl, rfl, rfl⟩
    · cases he.symm.trans hx
      exact ⟨rfl, rfl, rfl⟩

/-! The tail bits -/

/-- With a tail there is a last live word. -/
theorem State.nwords_pos {s : State} (h : s.nbits.toNat % s.W ≠ 0) : 0 < s.nwords := by
  rw [State.nwords, ceilDiv_of_mod_ne_zero s.W_pos h]
  exact Nat.succ_pos _

/-- In a state that meets the invariant the tail bits are 0 (10_state.md R39). -/
theorem State.Inv.tail_clean {s : State} (h : s.Inv) {b : Nat} (hr : s.nbits.toNat % s.W ≠ 0)
    (hb : s.nbits.toNat % s.W ≤ b) : (s.word (s.nwords - 1)).getLsbD b = false :=
  h.tail_bit (Nat.sub_add_cancel (State.nwords_pos hr)) hr hb

/-- Settles O40: the tail bits are a clause of the invariant, which every command keeps. -/
theorem everyCommandLeavesTheTailClean : Obligations.EveryCommandLeavesTheTailClean := by
  refine ⟨fun i s t h he b hr hb => ?_, fun s => ceilDiv_zero s.W_pos⟩
  obtain ⟨u, hu, hinv, -⟩ := keepsInv_exec h i
  cases he.symm.trans hu
  exact hinv.tail_clean hr hb

/-- A fill with 0 leaves no 1 in a live word (40_bitvector.md R129). -/
theorem Memory.word_fill_false {W n w : Nat} (m : Memory) (hw : w < ceilDiv n W) :
    Memory.word (Memory.fill W n false m) w = 0#64 := by
  rw [Memory.fill, if_neg Bool.false_ne_true, Memory.word_zeroWords, if_pos hw]

/-- The last word of a fill with 1 has no bit at or above the length's remainder (40_bitvector.md R129). -/
theorem Memory.getLsbD_word_fill_tail {m : Memory} (hm : Memory.wf m = true) {W : Nat} (hW : W ≤ 64) (hpos : 0 < W)
    {n b : Nat} (hr : n % W ≠ 0) (hb : n % W ≤ b) :
    (Memory.word (Memory.fill W n true m) (ceilDiv n W - 1)).getLsbD b = false := by
  have hlast : ceilDiv n W - 1 + 1 = ceilDiv n W := by rw [ceilDiv_of_mod_ne_zero hpos hr]; rfl
  rw [Memory.word_fill hm hW hpos, if_pos (by omega), if_pos rfl, if_pos hlast, getLsbD_tailMask hW hpos, if_neg hr]
  exact decide_eq_false (Nat.not_lt.2 hb)

/-- Settles O43: a fill with 0 zeroes the live words, a fill with 1 masks the last one. -/
theorem fromElemLeavesTheTailClean : Obligations.FromElemLeavesTheTailClean := fun s hwf hn =>
  ⟨⟨_, exec_bvFromElem_of_le hn, fun _ hw => Memory.word_fill_false s.store hw⟩,
    ⟨_, exec_bvFromElem_of_le hn, fun hr _ hb => Memory.getLsbD_word_fill_tail hwf s.W_le s.W_pos hr hb⟩⟩

end Sys2Proof.Machine
end

section
/-! SUPPORT. Runs of BV_* commands from a ready state (40_bitvector.md R127, R128, R130): each command's one step, then
the induction over the program. -/

namespace Sys2Proof.Machine

theorem runProgram_cons {c : Command} {cs : List Command} {s t : State} (h : runCommand c s = .next t) :
    runProgram (c :: cs) s = runProgram cs t := by
  simp only [runProgram, h]

/-! BV_SET, then BV_GET -/

theorem runCommand_bvSet {s : State} (hr : s.ready = true) (hm : s.mode = .vector) {i : Word}
    (hi : i.toNat < s.nbits.toNat) (v : Bool) :
    ∃ t, runCommand { instr := .bvSet v, args := [i] } s = .next t ∧ t.ready = true ∧ t.nbits = s.nbits ∧
      t.params = s.params ∧ t.store = Memory.setBit s.W s.store i.toNat v := by
  obtain ⟨hfl, hf⟩ := State.ready_iff.1 hr
  exact ⟨_, (runCommand_eq rfl hfl hf).trans (exec_bvSet_of_lt hm hi), State.ready_iff.2 ⟨rfl, hf⟩, rfl, rfl, rfl⟩

/-- Settles O41: BV_GET reads the bit that BV_SET has just written. -/
theorem setThenGetRoundTrips : Obligations.SetThenGetRoundTrips := by
  intro s i v hinv hr hm hi
  obtain ⟨t, ht, htr, hnbits, hparams, hstore⟩ := runCommand_bvSet hr hm hi v
  obtain ⟨u, hu, hnone, hres⟩ := runCommand_bvGet htr (hi.trans_eq (congrArg BitVec.toNat hnbits.symm))
  rw [BitVec.ofNat_toNat, BitVec.setWidth_eq] at hu
  refine ⟨u, by rw [runProgram_cons ht, runProgram_cons hu]; rfl, ?_, hnone⟩
  have hW : t.W = s.W := congrArg Params.W hparams
  rw [hres, State.bit, hW, hstore, Memory.bit_setBit hinv.storeWf s.W_le s.W_pos, if_pos rfl]

/-! Pushes -/

/-- A ready VECTOR-mode container whose bits, in order, are `vs`. -/
structure State.Contains (s : State) (vs : List Bool) : Prop where
  ready  : s.ready = true
  vector : s.mode = .vector
  wf     : Memory.wf s.store = true
  length : s.nbits.toNat = vs.length
  bits   : ∀ (j : Nat) (h : j < vs.length), s.bit j = vs[j]

/-- The program that pushes the values one after another. -/
def pushes (vs : List Bool) : List Command := vs.map fun v => { instr := .bvPush v, args := [] }

theorem runCommand_bvPush {s : State} {vs : List Bool} (h : s.Contains vs)
    (hmax : vs.length < s.params.nbitsMax.toNat) (v : Bool) :
    ∃ t, runCommand { instr := .bvPush v, args := [] } s = .next t ∧ t.params = s.params ∧ t.Contains (vs ++ [v]) := by
  obtain ⟨hfl, hf⟩ := State.ready_iff.1 h.ready
  have hlt : s.nbits.toNat < s.params.nbitsMax.toNat := h.length.trans_lt hmax
  refine ⟨_, (runCommand_eq rfl hfl hf).trans (exec_bvPush_of_lt h.vector hlt), rfl,
    { ready := State.ready_iff.2 ⟨rfl, hf⟩, vector := h.vector, wf := Memory.wf_push h.wf _ _ v
      length := ?_, bits := fun j hj => ?_ }⟩
  · rw [List.length_append, List.length_singleton, ← h.length]
    exact toNat_succ_of_lt hlt
  · rcases Nat.lt_succ_iff_lt_or_eq.1 (hj.trans_eq List.length_append) with hold | rfl
    · rw [List.getElem_append_left hold]
      exact (Memory.bit_push_of_lt h.wf s.W_le s.W_pos (hold.trans_eq h.length.symm) v).trans (h.bits j hold)
    · rw [List.getElem_concat_length rfl, ← h.length]
      exact Memory.bit_push_self h.wf s.W_le s.W_pos _ v

theorem runProgram_pushes (ws : List Bool) {s : State} {vs : List Bool} (h : s.Contains vs)
    (hmax : (vs ++ ws).length ≤ s.params.nbitsMax.toNat) :
    ∃ t, runProgram (pushes ws) s = .next t ∧ t.params = s.params ∧ t.Contains (vs ++ ws) := by
  induction ws generalizing s vs with
  | nil => exact ⟨s, rfl, rfl, by rwa [List.append_nil]⟩
  | cons w ws ih =>
    rw [List.append_cons] at hmax ⊢
    have hroom : vs.length < s.params.nbitsMax.toNat := by
      simp only [List.length_append, List.length_singleton] at hmax
      omega
    obtain ⟨u, hu, hup, huc⟩ := runCommand_bvPush h hroom w
    obtain ⟨t, ht, htp, htc⟩ := ih huc (by rwa [hup])
    exact ⟨t, (runProgram_cons hu).trans ht, htp.trans hup, htc⟩

/-- Settles O42: from no bits, each push appends one. -/
theorem pushesGrowTheContainer : Obligations.PushesGrowTheContainer := by
  intro s vs hinv hr hm hempty hmax
  have hnil : s.Contains [] :=
    { ready := hr, vector := hm, wf := hinv.storeWf, length := congrArg BitVec.toNat hempty, bits := nofun }
  obtain ⟨t, ht, hparams, hc⟩ := runProgram_pushes vs hnil hmax
  refine ⟨t, ht, hc.length, ?_, hc.bits⟩
  rw [State.nwords, hc.length, State.W, hparams]
  rfl

/-! An iteration -/

/-- `t` differs from `s`, as far as an iteration looks, in that `p` calls of BV_ITER_NEXT are behind it: it stands at
position `p`, or at the end. -/
structure State.Iterating (s t : State) (p : Nat) : Prop where
  ready  : t.ready = true
  params : t.params = s.params
  store  : t.store = s.store
  nbits  : t.nbits = s.nbits
  active : t.iterActive = true
  pos    : t.iterPos.toNat = min p s.nbits.toNat

theorem runCommand_bvIterStart {s : State} (hr : s.ready = true) :
    ∃ t, runCommand { instr := .bvIterStart, args := [] } s = .next t ∧ s.Iterating t 0 := by
  obtain ⟨hfl, hf⟩ := State.ready_iff.1 hr
  exact ⟨_, (runCommand_eq rfl hfl hf).trans (exec_bvIterStart _),
    { ready := State.ready_iff.2 ⟨rfl, hf⟩, params := rfl, store := rfl, nbits := rfl, active := rfl
      pos := (Nat.zero_min _).symm }⟩

/-- What BV_ITER_NEXT answers at position `p` of the vector of `s`: the bit, or "absent" past the end
(40_bitvector.md R124). -/
def State.YieldsAt (s t : State) (p : Nat) : Prop :=
  (p < s.nbits.toNat → t.result = bitWord (s.bit p) ∧ t.noneFlag = false) ∧
  (s.nbits.toNat ≤ p → t.result = 0#64 ∧ t.noneFlag = true)

theorem runCommand_bvIterNext {s t : State} {p : Nat} (h : s.Iterating t p) :
    ∃ u, runCommand { instr := .bvIterNext, args := [] } t = .next u ∧ s.Iterating u (p + 1) ∧ s.YieldsAt u p := by
  obtain ⟨hfl, hf⟩ := State.ready_iff.1 h.ready
  have hrun := runCommand_eq (c := { instr := .bvIterNext, args := [] }) rfl hfl hf
  have hlen : t.nbits.toNat = s.nbits.toNat := congrArg BitVec.toNat h.nbits
  rcases Nat.lt_or_ge p s.nbits.toNat with hlive | hend
  · have hpos : t.iterPos.toNat = p := h.pos.trans (Nat.min_eq_left hlive.le)
    have hlt : t.iterPos.toNat < t.nbits.toNat := by omega
    have hbit : t.bit t.iterPos.toNat = s.bit p := by rw [hpos, State.bit, State.W, h.params, h.store]; rfl
    refine ⟨_, hrun.trans (exec_bvIterNext_of_lt h.active hlt),
      { h with ready := State.ready_iff.2 ⟨rfl, hf⟩, pos := ?_ },
      fun _ => ⟨congrArg bitWord hbit, rfl⟩, fun hge => absurd hlive (Nat.not_lt.2 hge)⟩
    exact (toNat_succ_of_lt hlt).trans (by omega)
  · have hpos : t.iterPos.toNat = s.nbits.toNat := h.pos.trans (Nat.min_eq_right hend)
    exact ⟨_, hrun.trans (exec_bvIterNext_of_le h.active (hlen.trans hpos.symm).le),
      { h with ready := State.ready_iff.2 ⟨rfl, hf⟩, pos := hpos.trans (by omega) },
      fun hlt => absurd hlt (Nat.not_lt.2 hend), fun _ => ⟨rfl, rfl⟩⟩

theorem runProgram_bvIterNext (j : Nat) {s t : State} {p : Nat} (h : s.Iterating t p) :
    ∃ u, runProgram (List.replicate (j + 1) { instr := .bvIterNext, args := [] }) t = .next u ∧
      s.Iterating u (p + j + 1) ∧ s.YieldsAt u (p + j) := by
  induction j generalizing t p with
  | zero =>
    obtain ⟨u, hu, hnext⟩ := runCommand_bvIterNext h
    exact ⟨u, runProgram_cons hu, hnext⟩
  | succ j ih =>
    obtain ⟨u, hu, hiter, -⟩ := runCommand_bvIterNext h
    obtain ⟨w, hw, hlast⟩ := ih hiter
    rw [Nat.add_right_comm p 1 j] at hlast
    exact ⟨w, (runProgram_cons hu).trans hw, hlast⟩

/-- Settles O44: j + 1 calls from position 0 end with the answer at position j. -/
theorem iterationYieldsEveryBitInOrder : Obligations.IterationYieldsEveryBitInOrder := by
  intro s j _ hr
  obtain ⟨t, ht, hstart⟩ := runCommand_bvIterStart hr
  obtain ⟨u, hu, hiter, hyields⟩ := runProgram_bvIterNext j hstart
  rw [Nat.zero_add] at hyields
  exact ⟨u, (runProgram_cons ht).trans hu, (State.ready_iff.1 hiter.ready).2, hiter.store, hyields⟩

end Sys2Proof.Machine
end

section
/-! SUPPORT. What the BF_* commands answer (41_bloom.md R168 to R172): the next state of each command in each of its
cases, and the statements about one command. -/

namespace Sys2Proof.Machine

theorem bitWord_eq_one_iff {b : Bool} : bitWord b = 1#64 ↔ b = true := by cases b <;> decide

theorem bitWord_eq_one_or_zero (b : Bool) : bitWord b = 1#64 ∨ bitWord b = 0#64 := by cases b <;> decide

section

variable {s : State}

/-- The operands BF_CONFIG refuses (41_bloom.md R168): what `execBfConfig` tests (`exec_bfConfig_of_bad`,
`exec_bfConfig_of_good`). -/
def State.BadConfig (s : State) : Prop :=
  s.a0.toNat = 0 ∨ s.params.nbitsMax.toNat < s.a0.toNat ∨ s.a1.toNat = 0 ∨ s.params.kMax.toNat < s.a1.toNat

theorem exec_bfConfig_of_bad (h : s.BadConfig) : exec .bfConfig s = .next (s.faultEntry .errConfig) := by
  rw [exec, execBfConfig, inLegalMode_of_legal rfl, ← raiseFault_eq]
  exact if_pos h

theorem exec_bfConfig_of_good (h : ¬s.BadConfig) :
    exec .bfConfig s =
      .next (({ s with
        store := Memory.zeroWords (ceilDiv s.a0.toNat s.W) s.store, nbits := s.a0
        capwords := BitVec.ofNat 64 (ceilDiv s.a0.toNat s.W), k := s.a1, mode := .filter } :
          State).closeIter.completed 0#64 false) := by
  rw [exec, execBfConfig, inLegalMode_of_legal rfl]
  exact if_neg h

/-! The commands legal in FILTER mode only -/

section

variable (hm : s.mode = .filter)
include hm

theorem exec_bfInsert : exec .bfInsert s =
    .next (({ s with store := setProbes s.W s.nbits.toNat s.a0 s.k.toNat s.store } : State).closeIter.completed
      0#64 false) := by
  rw [exec, execBfInsert, inLegalMode_of_legal (by rw [hm]; rfl), complete]

theorem exec_bfQuery : exec .bfQuery s =
    .next (s.completed (bitWord (allProbes s.W s.nbits.toNat s.a0 s.store s.k.toNat)) false) := by
  rw [exec, execBfQuery, inLegalMode_of_legal (by rw [hm]; rfl), complete]

theorem exec_bfClear : exec .bfClear s =
    .next (({ s with store := Memory.zeroWords s.nwords s.store } : State).closeIter.completed 0#64 false) := by
  rw [exec, execBfClear, inLegalMode_of_legal (by rw [hm]; rfl), complete]

theorem exec_bfIndex_of_le (h : s.k.toNat ≤ s.a1.toNat) : exec .bfIndex s = .next (s.faultEntry .errRange) := by
  rw [exec, execBfIndex, inLegalMode_of_legal (by rw [hm]; rfl), ← raiseFault_eq]
  exact if_pos h

theorem exec_bfIndex_of_lt (h : s.a1.toNat < s.k.toNat) : exec .bfIndex s =
    .next (s.completed (BitVec.ofNat 64 (probeIndex s.nbits.toNat s.a0 s.a1.toNat)) false) := by
  rw [exec, execBfIndex, inLegalMode_of_legal (by rw [hm]; rfl)]
  exact if_neg (Nat.not_le.2 h)

end

end

/-! The statements -/

/-- Settles O26: the fault is raised before the words of the new length are zeroed. -/
theorem bfConfigConstructsTheFilter : Obligations.BfConfigConstructsTheFilter :=
  ⟨decode_cmdValue .bfConfig, fun s hwf =>
    ⟨exec_bfConfig_of_bad, fun hgood => ⟨_, exec_bfConfig_of_good hgood, Memory.wf_zeroWords hwf _,
      Memory.word_zeroWords (ceilDiv s.a0.toNat s.W) s.store⟩⟩⟩

/-- Settles O27: what the writes of the first K probe bits do, each index written out. -/
theorem bfInsertSetsTheProbeBits : Obligations.BfInsertSetsTheProbeBits := by
  refine ⟨decode_cmdValue .bfInsert, fun s hwf =>
    ⟨fun hv => exec_of_illegalInMode (by rw [hv]; rfl), fun hf => ⟨_, exec_bfInsert hf, ?_⟩⟩⟩
  have hspec := setProbes_spec (m := s.nbits.toNat) (d := s.a0) s.W_le s.W_pos s.k.toNat hwf
  simp only [probeIndex_eq] at hspec
  exact hspec

/-- Settles O28: RESULT is the AND of the first K probe bits, each index written out. -/
theorem bfQueryAndsTheProbeBits : Obligations.BfQueryAndsTheProbeBits := by
  refine ⟨decode_cmdValue .bfQuery, fun s =>
    ⟨fun hv => exec_of_illegalInMode (by rw [hv]; rfl), fun hf =>
      ⟨_, exec_bfQuery hf, bitWord_eq_one_or_zero _, bitWord_eq_one_iff.trans ?_⟩⟩⟩
  have hall := allProbes_iff s.W s.nbits.toNat s.a0 s.store s.k.toNat
  simp only [probeIndex_eq] at hall
  exact hall

/-- Settles O29: the pass zeroes the words below NWORDS and touches no control register. -/
theorem bfClearZeroesTheBitField : Obligations.BfClearZeroesTheBitField :=
  ⟨decode_cmdValue .bfClear, fun s hwf =>
    ⟨fun hv => exec_of_illegalInMode (by rw [hv]; rfl), fun hf =>
      ⟨_, exec_bfClear hf, Memory.wf_zeroWords hwf _, Memory.word_zeroWords s.nwords s.store⟩⟩⟩

/-- Settles O30: a probe number below K has its index returned, any other is out of range. -/
theorem bfIndexReturnsOneProbeIndex : Obligations.BfIndexReturnsOneProbeIndex :=
  ⟨decode_cmdValue .bfIndex, fun s =>
    ⟨fun hv => exec_of_illegalInMode (by rw [hv]; rfl), exec_bfIndex_of_le, fun hf hi => by
      rw [exec_bfIndex_of_lt hf hi, probeIndex_eq]; rfl⟩⟩

end Sys2Proof.Machine
end

section
/-! SUPPORT. The mapper in 64-bit arithmetic (41_bloom.md R165, R166), and the probes in any order (R167). -/

namespace Sys2Proof.Machine

/-! The mapper -/

theorem probeIndex_zero (m : Nat) (d : Word) : probeIndex m d 0 = d.toNat % 2 ^ 32 % m := by
  rw [probeIndex_eq, Nat.mul_zero, Nat.add_zero]

/-- With a stride that is a multiple of m every probe falls on the first (41_bloom.md R165). -/
theorem probeIndex_of_stride {m : Nat} {d : Word} (h : d.toNat / 2 ^ 32 % m = 0) (i : Nat) :
    probeIndex m d i = probeIndex m d 0 := by
  obtain ⟨q, hq⟩ := Nat.dvd_of_mod_eq_zero h
  rw [probeIndex_eq, probeIndex_zero, hq, Nat.mul_assoc, Nat.add_mul_mod_self_left]

/-- The sum of the low half and a multiple of the high half is a 64-bit value (41_bloom.md R166). -/
theorem probeSum_lt (d : Word) {i : Nat} (hi : i < 2 ^ 32) :
    d.toNat % 2 ^ 32 + d.toNat / 2 ^ 32 * i < 2 ^ 64 := by
  have hlow : d.toNat % 2 ^ 32 < 2 ^ 32 := Nat.mod_lt _ (by decide)
  have hhigh : d.toNat / 2 ^ 32 ≤ 2 ^ 32 - 1 := by have := d.isLt; omega
  have hmul : d.toNat / 2 ^ 32 * i ≤ (2 ^ 32 - 1) * (2 ^ 32 - 1) := Nat.mul_le_mul hhigh (by omega)
  omega

theorem toNat_lowHalf (d : Word) : (d &&& 0xFFFFFFFF#64).toNat = d.toNat % 2 ^ 32 := by
  rw [BitVec.toNat_and]
  exact Nat.and_two_pow_sub_one_eq_mod d.toNat 32

theorem toNat_highHalf (d : Word) : (d >>> 32).toNat = d.toNat / 2 ^ 32 := by
  rw [BitVec.toNat_ushiftRight, Nat.shiftRight_eq_div_pow]

/-- The multiply-add and remainder of 64-bit words compute the index (41_bloom.md R166). -/
theorem toNat_wordIndex (d : Word) {m i : Nat} (hm : m < 2 ^ 64) (hi : i < 2 ^ 32) :
    (((d &&& 0xFFFFFFFF#64) + (d >>> 32) * BitVec.ofNat 64 i) % BitVec.ofNat 64 m).toNat = probeIndex m d i := by
  have hsum := probeSum_lt d hi
  have hi64 : i % 2 ^ 64 = i := Nat.mod_eq_of_lt (by omega)
  rw [BitVec.toNat_umod, BitVec.toNat_add, BitVec.toNat_mul, toNat_lowHalf, toNat_highHalf, BitVec.toNat_ofNat,
    BitVec.toNat_ofNat, hi64, Nat.mod_eq_of_lt hm, Nat.add_mod_mod, Nat.mod_eq_of_lt hsum, probeIndex_eq]

/-- Settles O33: the sum of the two halves never leaves 64 bits. -/
theorem probeIndexIsExactInSixtyFourBits : Obligations.ProbeIndexIsExactInSixtyFourBits := fun d m i hm hm64 hi =>
  ⟨probeIndex_eq m d i, probeIndex_lt hm d i, probeIndex_zero m d, fun h => probeIndex_of_stride h i,
    toNat_wordIndex d hm64 hi⟩

/-! The order of the probes -/

namespace Memory

theorem withBit_true_comm (x : Word) (a b : Nat) :
    withBit (withBit x a true) b true = withBit (withBit x b true) a true := by
  simp only [withBit, if_true, BitVec.or_assoc, BitVec.or_comm (1#64 <<< a)]

/-- Two bits may be set in either order. -/
theorem setBit_true_comm {m : Memory} (hm : wf m = true) (W p q : Nat) :
    setBit W (setBit W m p true) q true = setBit W (setBit W m q true) p true := by
  have hp := wf_setBit hm W p true
  have hq := wf_setBit hm W q true
  refine ext_words (wf_setBit hp W q true) (wf_setBit hq W p true) fun w => ?_
  rw [word_setBit hp, word_setBit hq, word_setBit hm, word_setBit hm]
  by_cases hwp : w = p / W
  · by_cases hwq : w = q / W
    · rw [if_pos hwq, if_pos hwp, if_pos hwp, if_pos hwq, withBit_true_comm]
    · rw [if_neg hwq, if_pos hwp, if_pos hwp, if_neg hwq]
  · rw [if_neg hwp, if_neg hwp]

/-- Bits may be set in any order. -/
theorem foldl_setBit_perm {W : Nat} {pos : Nat → Nat} {l l' : List Nat} (h : l.Perm l') {m : Memory}
    (hm : wf m = true) :
    l.foldl (fun st i => setBit W st (pos i) true) m = l'.foldl (fun st i => setBit W st (pos i) true) m := by
  induction h generalizing m with
  | nil => rfl
  | cons i _ ih => exact ih (wf_setBit hm W (pos i) true)
  | swap i j _ => rw [List.foldl_cons, List.foldl_cons, List.foldl_cons, List.foldl_cons, setBit_true_comm hm]
  | trans _ _ ih ih' => exact (ih hm).trans (ih' hm)

end Memory

theorem setProbes_eq_foldl (W m : Nat) (d : Word) (k : Nat) (st : Memory) :
    setProbes W m d k st = (List.range k).foldl (fun st i => Memory.setBit W st (probeIndex m d i) true) st := by
  induction k with
  | zero => rfl
  | succ k ih => rw [List.range_succ, List.foldl_append, ← ih]; rfl

theorem allProbes_eq_all (W m : Nat) (d : Word) (st : Memory) (k : Nat) :
    allProbes W m d st k = (List.range k).all fun i => Memory.bit W st (probeIndex m d i) := by
  rw [Bool.eq_iff_iff, allProbes_iff, List.all_eq_true]
  simp only [List.mem_range]

/-- Settles O34: an AND does not depend on the order, nor does setting bits. -/
theorem probesMayBeTakenInAnyOrder : Obligations.ProbesMayBeTakenInAnyOrder := by
  intro s order hwf hm hperm
  refine ⟨⟨_, exec_bfQuery hm, ?_⟩, ⟨_, exec_bfInsert hm, ?_⟩⟩
  · rw [hperm.all_eq]
    exact congrArg bitWord (allProbes_eq_all _ _ _ _ _)
  · rw [Memory.foldl_setBit_perm hperm hwf]
    exact setProbes_eq_foldl _ _ _ _ _

end Sys2Proof.Machine
end

section
/-! SUPPORT. Who may change the bit field, NBITS, K and MODE (41_bloom.md R173). -/

namespace Sys2Proof.Machine

/-- The mode a command leaves when it completes (10_state.md R25): only the constructors choose one. -/
def modeAfter : Instr → Mode → Mode
  | .bvNew, _        => .vector
  | .bvFromElem _, _ => .vector
  | .bfConfig, _     => .filter
  | _, m             => m

/-- What a command that completes may change of the bit field, NBITS, K and MODE. -/
structure State.Effect (i : Instr) (s t : State) : Prop where
  mode  : t.mode = modeAfter i s.mode
  k     : isConstructor i = false → t.k = s.k
  nbits : isConstructor i = false → (∀ v, i ≠ .bvPush v) → t.nbits = s.nbits
  store : mutating i = false → t.store = s.store

theorem exec_ends_effect (i : Instr) (s : State) : Ends s (s.Effect i) (exec i s) := by
  cases i <;> rw [exec]
  case bvNew => exact ends_inLegalMode (ends_complete ⟨rfl, nofun, nofun, nofun⟩)
  case bvFromElem v | bfConfig =>
    exact ends_inLegalMode (ends_ite (ends_raiseFault _) (ends_complete ⟨rfl, nofun, nofun, nofun⟩))
  case bvPush v =>
    exact ends_inLegalMode (ends_ite (ends_raiseFault _)
      (ends_complete ⟨rfl, fun _ => rfl, fun _ h => absurd rfl (h v), nofun⟩))
  case bvClear | bvSetAll | bvNegate | bfInsert | bfClear =>
    exact ends_inLegalMode (ends_complete ⟨rfl, fun _ => rfl, fun _ _ => rfl, nofun⟩)
  case bvSet v | bvReserve =>
    exact ends_inLegalMode (ends_ite (ends_raiseFault _)
      (ends_complete ⟨rfl, fun _ => rfl, fun _ _ => rfl, nofun⟩))
  case bvLen | bvIsEmpty | bvGet | bvReadWord | bvIterStart | bfQuery =>
    exact ends_inLegalMode (ends_complete ⟨rfl, fun _ => rfl, fun _ _ => rfl, fun _ => rfl⟩)
  case bfIndex =>
    exact ends_inLegalMode (ends_ite (ends_raiseFault _)
      (ends_complete ⟨rfl, fun _ => rfl, fun _ _ => rfl, fun _ => rfl⟩))
  case bvIterNext =>
    exact ends_inLegalMode (ends_ite
      (ends_ite (ends_complete ⟨rfl, fun _ => rfl, fun _ _ => rfl, fun _ => rfl⟩)
        (ends_complete ⟨rfl, fun _ => rfl, fun _ _ => rfl, fun _ => rfl⟩))
      (ends_raiseFault _))

/-- A command raises one fault, or is legal in the mode and has its effect. -/
theorem exec_effect_cases {i : Instr} {s t : State} (he : exec i s = .next t) :
    (∃ code, t = s.faulted code) ∨ (legalInMode i s.mode = true ∧ s.Effect i t) := by
  cases hl : legalInMode i s.mode with
  | false =>
    cases he.symm.trans (exec_of_illegalInMode hl)
    exact .inl ⟨.errMode, (s.faulted_eq_faultEntry .errMode).symm⟩
  | true =>
    rcases exec_ends_effect i s with ⟨code, hx⟩ | ⟨u, r, absent, hx, hu⟩
    · cases he.symm.trans hx
      exact .inl ⟨code, rfl⟩
    · cases he.symm.trans hx
      exact .inr ⟨rfl, { hu with }⟩

theorem filter_mutating_cases {i : Instr} (hl : legalInMode i .filter = true) (h : mutating i = true) :
    i = .bfInsert ∨ i = .bfClear ∨ isConstructor i = true := by
  cases i
  case bfInsert => exact .inl rfl
  case bfClear => exact .inr (.inl rfl)
  case bvNew | bvFromElem v | bfConfig => exact .inr (.inr rfl)
  case bvSet v | bvPush v | bvClear | bvSetAll | bvNegate | bvReserve => cases hl
  all_goals cases h

theorem modeAfter_filter_eq_vector {i : Instr} (h : modeAfter i .filter = .vector) :
    i = .bvNew ∨ ∃ v, i = .bvFromElem v := by
  cases i
  case bvNew => exact .inl rfl
  case bvFromElem v => exact .inr ⟨v, rfl⟩
  all_goals cases h

theorem modeAfter_vector_eq_filter {i : Instr} (h : modeAfter i .vector = .filter) : i = .bfConfig := by
  cases i
  case bfConfig => rfl
  all_goals cases h

/-- BV_PUSH never shrinks the container, NBITS + 1 being a 64-bit value (40_bitvector.md R117). -/
theorem exec_bvPush_nbits_le {s t : State} {v : Bool} (hinv : s.Inv) (he : exec (.bvPush v) s = .next t) :
    s.nbits.toNat ≤ t.nbits.toNat := by
  rcases exec_effect_cases he with ⟨code, rfl⟩ | ⟨hl, -⟩
  · exact Nat.le_refl _
  · have hm : s.mode = .vector := by simpa [legalInMode] using hl
    by_cases hfull : s.nbits.toNat = s.params.nbitsMax.toNat
    · cases he.symm.trans ((exec_bvPush_of_full hm hfull).trans (congrArg _ (s.faulted_eq_faultEntry _).symm))
      exact Nat.le_refl _
    · have hlt := Nat.lt_of_le_of_ne hinv.nbitsBound hfull
      cases he.symm.trans (exec_bvPush_of_lt hm hlt)
      exact (Nat.le_succ _).trans_eq (toNat_succ_of_lt hlt).symm

/-- Settles O39: a fault changes none of them, and a completed command has its effect. -/
theorem onlyTheNamedCommandsChangeTheFilter : Obligations.OnlyTheNamedCommandsChangeTheFilter := by
  intro i s t he
  rcases exec_effect_cases he with ⟨code, rfl⟩ | ⟨hl, heff⟩
  · refine ⟨fun _ h => absurd rfl h, fun _ h => ?_, fun hf hv => ?_, fun hv hf => ?_, fun h => absurd rfl h,
      fun _ h => absurd h (Nat.lt_irrefl _)⟩
    · exact h.elim (absurd rfl) (absurd rfl)
    · exact nomatch hf.symm.trans hv
    · exact nomatch hv.symm.trans hf
  · refine ⟨fun hf h => ?_, fun hf h => ?_, fun hf hv => ?_, fun hv hf => ?_, fun h => ?_, fun hinv h => ?_⟩
    · exact filter_mutating_cases (hf ▸ hl) (eq_true_of_ne_false fun hq => h (heff.store hq))
    · by_contra hc
      have hc := eq_false_of_ne_true hc
      have hpush : ∀ v, i ≠ .bvPush v := by rintro v rfl; rw [hf] at hl; cases hl
      exact h.elim (absurd (heff.nbits hc hpush)) (absurd (heff.k hc))
    · exact modeAfter_filter_eq_vector (hf ▸ heff.mode.symm.trans hv)
    · exact modeAfter_vector_eq_filter (hv ▸ heff.mode.symm.trans hf)
    · by_contra hno
      obtain ⟨hc, hpush⟩ := not_or.1 hno
      exact h (heff.nbits (eq_false_of_ne_true hc) (not_exists.1 hpush))
    · by_contra hc
      refine Nat.not_le.2 h ?_
      by_cases hpush : ∃ v, i = .bvPush v
      · obtain ⟨v, rfl⟩ := hpush
        exact exec_bvPush_nbits_le hinv he
      · rw [heff.nbits (eq_false_of_ne_true hc) (not_exists.1 hpush)]

end Sys2Proof.Machine
end

section
/-! SUPPORT. Runs of BF_* commands from a ready state (41_bloom.md R174, R175): the state each command leaves, then the
induction over the program. -/

namespace Sys2Proof.Machine

theorem runProgram_append_next {l r : List Command} {s t : State} (h : runProgram l s = .next t) :
    runProgram (l ++ r) s = runProgram r t := by
  rw [runProgram_append, h]

/-! The state each command leaves -/

/-- What BF_CONFIG of `m` and `k` leaves (`runCommand_bfConfig`). -/
def State.configured (s : State) (m k : Word) : State :=
  { s with
    cmd := cmdValue .bfConfig, arg0 := m, arg1 := k, reply := none
    store := Memory.zeroWords (ceilDiv m.toNat s.W) s.store
    nbits := m, capwords := BitVec.ofNat 64 (ceilDiv m.toNat s.W), k := k, mode := .filter
    iterActive := false, iterPos := 0#64, result := 0#64, noneFlag := false, inFlight := none, pos := s.pos + 1 }

/-- What BF_INSERT of `d` leaves (`runCommand_bfInsert`). -/
def State.inserted (s : State) (d : Word) : State :=
  { s with
    cmd := cmdValue .bfInsert, arg0 := d, reply := none
    store := setProbes s.W s.nbits.toNat d s.k.toNat s.store
    iterActive := false, iterPos := 0#64, result := 0#64, noneFlag := false, inFlight := none, pos := s.pos + 1 }

/-- What BF_QUERY of `d` leaves (`runCommand_bfQuery`). -/
def State.queried (s : State) (d : Word) : State :=
  { s with
    cmd := cmdValue .bfQuery, arg0 := d, reply := none
    result := bitWord (allProbes s.W s.nbits.toNat d s.store s.k.toNat)
    noneFlag := false, inFlight := none, pos := s.pos + 1 }

/-- What BF_CLEAR leaves (`runCommand_bfClear`). -/
def State.cleared (s : State) : State :=
  { s with
    cmd := cmdValue .bfClear, reply := none, store := Memory.zeroWords s.nwords s.store
    iterActive := false, iterPos := 0#64, result := 0#64, noneFlag := false, inFlight := none, pos := s.pos + 1 }

section

variable {s : State} (hr : s.ready = true)
include hr

theorem runCommand_bfConfig {m k : Word} (hm : 1 ≤ m.toNat) (hmmax : m.toNat ≤ s.params.nbitsMax.toNat)
    (hk : 1 ≤ k.toNat) (hkmax : k.toNat ≤ s.params.kMax.toNat) :
    runCommand { instr := .bfConfig, args := [m, k] } s = .next (s.configured m k) := by
  obtain ⟨hi, hf⟩ := State.ready_iff.1 hr
  have hgood : ¬(s.issued { instr := .bfConfig, args := [m, k] }).BadConfig := by
    rintro (h | h | h | h)
    · exact Nat.ne_of_gt hm h
    · exact Nat.not_lt.2 hmmax h
    · exact Nat.ne_of_gt hk h
    · exact Nat.not_lt.2 hkmax h
  exact (runCommand_eq rfl hi hf).trans (exec_bfConfig_of_good hgood)

variable (hm : s.mode = .filter)
include hm

theorem runCommand_bfInsert (d : Word) :
    runCommand { instr := .bfInsert, args := [d] } s = .next (s.inserted d) := by
  obtain ⟨hi, hf⟩ := State.ready_iff.1 hr
  exact (runCommand_eq rfl hi hf).trans (exec_bfInsert hm)

theorem runCommand_bfQuery (d : Word) :
    runCommand { instr := .bfQuery, args := [d] } s = .next (s.queried d) := by
  obtain ⟨hi, hf⟩ := State.ready_iff.1 hr
  exact (runCommand_eq rfl hi hf).trans (exec_bfQuery hm)

theorem runCommand_bfClear : runCommand { instr := .bfClear, args := [] } s = .next s.cleared := by
  obtain ⟨hi, hf⟩ := State.ready_iff.1 hr
  exact (runCommand_eq rfl hi hf).trans (exec_bfClear hm)

end

/-! Inserts and queries -/

/-- A filter the engine can take commands for. -/
structure State.Serving (s : State) : Prop where
  ready  : s.ready = true
  filter : s.mode = .filter
  wf     : Memory.wf s.store = true

/-- Every probe bit of the digest is 1. -/
def State.Holds (s : State) (d : Word) : Prop :=
  ∀ i, i < s.k.toNat → s.bit (probeIndex s.nbits.toNat d i) = true

/-- `t` is the filter of `s` with no bit cleared. -/
structure State.Grows (s t : State) : Prop where
  serving : t.Serving
  nbits   : t.nbits = s.nbits
  k       : t.k = s.k
  bits    : ∀ p, s.bit p = true → t.bit p = true

namespace State.Grows

variable {s t u : State}

theorem refl (h : s.Serving) : s.Grows s := ⟨h, rfl, rfl, fun _ => id⟩

theorem trans (h : s.Grows t) (h' : t.Grows u) : s.Grows u :=
  ⟨h'.serving, h'.nbits.trans h.nbits, h'.k.trans h.k, fun p hp => h'.bits p (h.bits p hp)⟩

/-- A digest found once is found later. -/
theorem holds (h : s.Grows t) {d : Word} (hd : s.Holds d) : t.Holds d := fun i hi => by
  rw [h.nbits]
  exact h.bits _ (hd i (h.k ▸ hi))

theorem inserted (h : s.Serving) (d : Word) : s.Grows (s.inserted d) := by
  obtain ⟨hwf, -, hbits⟩ := setProbes_spec (m := s.nbits.toNat) (d := d) s.W_le s.W_pos s.k.toNat h.wf
  exact ⟨⟨State.ready_iff.2 ⟨rfl, (State.ready_iff.1 h.ready).2⟩, h.filter, hwf⟩, rfl, rfl,
    fun p hp => (hbits p).2 (.inl hp)⟩

theorem queried (h : s.Serving) (d : Word) : s.Grows (s.queried d) :=
  ⟨⟨State.ready_iff.2 ⟨rfl, (State.ready_iff.1 h.ready).2⟩, h.filter, h.wf⟩, rfl, rfl, fun _ => id⟩

end State.Grows

namespace State.Serving

variable {s : State}

theorem holds_inserted (h : s.Serving) (d : Word) : (s.inserted d).Holds d := fun i hi =>
  have ⟨_, _, hbits⟩ := setProbes_spec (m := s.nbits.toNat) (d := d) s.W_le s.W_pos s.k.toNat h.wf
  (hbits _).2 (.inr ⟨i, hi, rfl⟩)

/-- Inserts and queries complete, and clear no bit. -/
theorem runProgram_grows {cs : List Command} (h : s.Serving)
    (hcs : ∀ c, c ∈ cs → ∃ x : Word,
      c = { instr := .bfInsert, args := [x] } ∨ c = { instr := .bfQuery, args := [x] }) :
    ∃ t, runProgram cs s = .next t ∧ s.Grows t := by
  induction cs generalizing s with
  | nil => exact ⟨s, rfl, .refl h⟩
  | cons c cs ih =>
    have ⟨u, hu, hgrow⟩ : ∃ u, runCommand c s = .next u ∧ s.Grows u := by
      obtain ⟨x, rfl | rfl⟩ := hcs c List.mem_cons_self
      · exact ⟨_, runCommand_bfInsert h.ready h.filter x, .inserted h x⟩
      · exact ⟨_, runCommand_bfQuery h.ready h.filter x, .queried h x⟩
    obtain ⟨t, ht, hgrow'⟩ := ih hgrow.serving fun c hc => hcs c (List.mem_cons_of_mem _ hc)
    exact ⟨t, (runProgram_cons hu).trans ht, hgrow.trans hgrow'⟩

end State.Serving

theorem State.Holds.queried_result {s : State} {d : Word} (h : s.Holds d) : (s.queried d).result = 1#64 :=
  bitWord_eq_one_iff.2 ((allProbes_iff _ _ _ _ _).2 h)

/-- Settles O45: the insert sets every probe bit of the digest, and no later insert or query clears one. -/
theorem insertedDigestIsAlwaysFound : Obligations.InsertedDigestIsAlwaysFound := by
  intro s before after d hinv hr hm hcs
  obtain ⟨t, ht, hbefore⟩ := State.Serving.runProgram_grows ⟨hr, hm, hinv.storeWf⟩
    fun c hc => hcs c (List.mem_append_left _ hc)
  have hins := State.Grows.inserted hbefore.serving d
  obtain ⟨u, hu, hafter⟩ := hins.serving.runProgram_grows fun c hc => hcs c (List.mem_append_right _ hc)
  have hfound : u.Holds d := hafter.holds (hbefore.serving.holds_inserted d)
  have hserving := hafter.serving
  refine ⟨u.queried d, ?_, (State.ready_iff.1 hserving.ready).2, hfound.queried_result⟩
  rw [List.append_assoc, runProgram_append_next ht, List.cons_append,
    runProgram_cons (runCommand_bfInsert hbefore.serving.ready hbefore.serving.filter d), runProgram_append_next hu,
    runProgram_cons (runCommand_bfQuery hserving.ready hserving.filter d)]
  rfl

/-! BF_CLEAR, then BF_QUERY -/

/-- After BF_CLEAR no live position holds a 1. -/
theorem State.bit_cleared {s : State} {p : Nat} (hp : p < s.nbits.toNat) : s.cleared.bit p = false := by
  have hzero : Memory.word s.cleared.store (p / s.W) = 0#64 :=
    (Memory.word_zeroWords s.nwords s.store _).trans (if_pos (div_lt_ceilDiv s.W_pos hp))
  show (Memory.word s.cleared.store (p / s.W)).getLsbD (p % s.W) = false
  rw [hzero, BitVec.getLsbD_zero]

/-- Settles O46: the first probe of any digest is a live position, and its bit is 0. -/
theorem queryAfterClearAnswersAbsent : Obligations.QueryAfterClearAnswersAbsent := by
  intro s d hinv hr hm
  obtain ⟨hk, -, hn⟩ := hinv.filterK hm
  obtain ⟨-, hfault⟩ := State.ready_iff.1 hr
  have hr' : s.cleared.ready = true := State.ready_iff.2 ⟨rfl, hfault⟩
  refine ⟨s.cleared.queried d, ?_, hfault, ?_⟩
  · rw [runProgram_cons (runCommand_bfClear hr hm), runProgram_cons (runCommand_bfQuery hr' hm d)]
    rfl
  · refine (bitWord_eq_one_or_zero _).resolve_left fun hone => ?_
    have hbit := (allProbes_iff _ _ _ _ _).1 (bitWord_eq_one_iff.1 hone) 0 hk
    exact Bool.false_ne_true ((State.bit_cleared (probeIndex_lt hn d 0)).symm.trans hbit)

end Sys2Proof.Machine
end

section
/-! SUPPORT. Two filters equally configured and fed (41_bloom.md R176): what the machine answers does not depend on the
model's own fields and the program position, nor on dead words. -/

namespace Sys2Proof.Machine

/-! What no answer depends on -/

/-- The state without the model's own fields and the program position (logs 5, 7, 9, 13). -/
def State.bare (s : State) : State := { s with pos := 0, pending := [], reply := none, draws := 0 }

theorem State.Inv.bare {s : State} (h : s.Inv) : s.bare.Inv := { h with }

/-- A command goes by the other fields, and only counts the program position up. -/
theorem exec_bare (i : Instr) (s : State) : mapNext State.bare (exec i s.bare) = mapNext State.bare (exec i s) := by
  cases i <;>
    simp only [exec, execBvNew, execBvFromElem, execBvLen, execBvIsEmpty, execBvGet, execBvSet, execBvPush,
      execBvClear, execBvSetAll, execBvNegate, execBvReserve, execBvReadWord, execBvIterStart, execBvIterNext,
      execBfConfig, execBfInsert, execBfQuery, execBfClear, execBfIndex, inLegalMode, apply_ite (mapNext _)] <;>
    rfl

theorem engineTurn_bare (s : State) :
    mapNext State.bare (engineTurn s.bare) = mapNext State.bare (engineTurn s) := by
  have hfetch : s.bare.fetch = s.fetch := rfl
  rw [engineTurn, engineTurn, hfetch]
  cases s.fetch with
  | none => rfl
  | some d =>
    cases d with
    | illegal why => rfl
    | ok i => exact exec_bare i s

theorem writeReg_bare (s : State) (r : Reg) (addr n v : Word) :
    (s.bare.writeReg r addr n v).bare = (s.writeReg r addr n v).bare := by
  cases r with
  | cmd => simp only [State.writeReg, State.writeCmd, apply_ite State.bare]; rfl
  | arg0 => simp only [State.writeReg, apply_ite State.bare]; rfl
  | arg1 => simp only [State.writeReg, apply_ite State.bare]; rfl
  | ctrl => simp only [State.writeReg, State.writeCtrl, apply_ite State.bare]; rfl
  | _ => rfl

theorem hostWrite_bare (s : State) (addr n v : Word) :
    (s.bare.hostWrite addr n v).bare = (s.hostWrite addr n v).bare := by
  simp only [State.hostWrite, apply_ite State.bare]
  cases accessTarget addr n with
  | none => rfl
  | some r => exact congrArg (fun b => if outsideWindow addr = true then s.bare else b) (writeReg_bare s r addr n v)

/-! States that are answered alike -/

/-- Two states that differ in dead words, the model's own fields and the program position only. -/
def State.Peers (s t : State) : Prop := Alike (.next s.bare) (.next t.bare)

namespace State.Peers

variable {s t : State}

theorem iff_bare : s.Peers t ↔ ∃ m, t.bare = s.bare.withStore m ∧ Memory.Twins s.nwords s.store m := by
  constructor
  · rintro ⟨u, m, hs, ht, htwins⟩
    cases hs
    exact ⟨m, Host.Outcome.next.inj ht, htwins⟩
  · rintro ⟨m, ht, htwins⟩
    exact ⟨s.bare, m, rfl, congrArg _ ht, htwins⟩

/-- Peers answer the host's reads of RESULT and STATUS alike. -/
theorem result_status (h : s.Peers t) : s.result = t.result ∧ s.status = t.status := by
  obtain ⟨m, ht, -⟩ := iff_bare.1 h
  exact ⟨(congrArg State.result ht).symm, (congrArg State.status ht).symm⟩

theorem hostWrite (h : s.Peers t) (addr n v : Word) : (s.hostWrite addr n v).Peers (t.hostWrite addr n v) := by
  obtain ⟨m, ht, htwins⟩ := iff_bare.1 h
  obtain ⟨hstore, hnwords⟩ := hostWrite_frame s addr n v
  refine iff_bare.2 ⟨m, ?_, hstore ▸ htwins.mono hnwords⟩
  rw [← hostWrite_bare t, ht, hostWrite_withStore, ← hostWrite_bare s]
  rfl

theorem engineTurn (hinv : s.Inv) (h : s.Peers t) :
    ∃ u v, engineTurn s = .next u ∧ engineTurn t = .next v ∧ u.Peers v := by
  obtain ⟨m, ht, htwins⟩ := iff_bare.1 h
  obtain ⟨u, hu⟩ := engineTurn_next s
  obtain ⟨v, hv⟩ := engineTurn_next t
  obtain ⟨w, m', hw, hw', htwins'⟩ := alike_engineTurn hinv.bare htwins
  have hub := engineTurn_bare s
  have hvb := engineTurn_bare t
  rw [hw, hu] at hub
  rw [ht, hw', hv] at hvb
  have hub : w.bare = u.bare := Host.Outcome.next.inj hub
  have hvb : w.bare.withStore m' = v.bare := Host.Outcome.next.inj hvb
  refine ⟨u, v, hu, hv, iff_bare.2 ⟨m', hub ▸ hvb.symm, ?_⟩⟩
  have hstore : w.store = u.store := (congrArg State.store hub :)
  have hnwords : w.nwords = u.nwords := (congrArg State.nwords hub :)
  rwa [hstore, hnwords] at htwins'

end State.Peers

/-! Programs -/

/-- The host's writes for a command, accepted or not: the state of the engine's turn in `runCommand`. -/
def State.written (s : State) (c : Command) : State := (writeArgs c s).hostWrite 0x00#64 8#64 (cmdValue c.instr)

theorem runCommand_eq_engineTurn (c : Command) (s : State) : runCommand c s = engineTurn (s.written c) := rfl

/-- A relation that every host write keeps is kept by the writes for a command. -/
theorem State.written_rel {R : State → State → Prop} {s t : State} (c : Command) (h : R s t)
    (hstep : ∀ u v addr n x, R u v → R (u.hostWrite addr n x) (v.hostWrite addr n x)) :
    R (s.written c) (t.written c) := by
  refine hstep _ _ _ _ _ ?_
  unfold writeArgs
  split
  · exact h
  · exact hstep _ _ _ _ _ h
  · exact hstep _ _ _ _ _ (hstep _ _ _ _ _ h)

theorem keepsInv_hostWrite_trans {s u : State} (h : u.Inv ∧ u.params = s.params) (addr n v : Word) :
    (u.hostWrite addr n v).Inv ∧ (u.hostWrite addr n v).params = s.params := by
  obtain ⟨t, ht, hinv, hp⟩ := keepsInv_hostWrite h.1 addr n v
  cases ht
  exact ⟨hinv, hp.trans h.2⟩

theorem State.Inv.written {s : State} (h : s.Inv) (c : Command) : (s.written c).Inv ∧ (s.written c).params = s.params :=
  State.written_rel (t := s) (R := fun u _ => u.Inv ∧ u.params = s.params) c ⟨h, rfl⟩
    fun _ _ addr n x hu => keepsInv_hostWrite_trans hu addr n x

theorem keepsInv_runCommand {s : State} (h : s.Inv) (c : Command) : KeepsInv s (runCommand c s) := by
  obtain ⟨hinv, hp⟩ := h.written c
  obtain ⟨t, ht, htinv, htp⟩ := keepsInv_engineTurn hinv
  exact ⟨t, ht, htinv, htp.trans hp⟩

theorem keepsInv_runProgram {s : State} (h : s.Inv) (cs : List Command) : KeepsInv s (runProgram cs s) := by
  induction cs generalizing s with
  | nil => exact ⟨s, rfl, h, rfl⟩
  | cons c cs ih =>
    obtain ⟨u, hu, hinv, hp⟩ := keepsInv_runCommand h c
    obtain ⟨t, ht, htinv, htp⟩ := ih hinv
    exact ⟨t, (runProgram_cons hu).trans ht, htinv, htp.trans hp⟩

/-- Peers run every program alike. -/
theorem State.Peers.runProgram {s t : State} (hinv : s.Inv) (h : s.Peers t) (cs : List Command) :
    ∃ u v, runProgram cs s = .next u ∧ runProgram cs t = .next v ∧ u.Peers v := by
  induction cs generalizing s t with
  | nil => exact ⟨s, t, rfl, rfl, h⟩
  | cons c cs ih =>
    have hwritten : (s.written c).Peers (t.written c) :=
      State.written_rel c h fun _ _ addr n x hp => hp.hostWrite addr n x
    obtain ⟨s', t', hs, ht, hpeers⟩ := hwritten.engineTurn (hinv.written c).1
    obtain ⟨s'', hs', hinv', -⟩ := keepsInv_runCommand hinv c
    cases hs'.symm.trans hs
    obtain ⟨u, v, hu, hv, hlast⟩ := ih hinv' hpeers
    exact ⟨u, v, (runProgram_cons hs).trans hu, (runProgram_cons (s := t) ht).trans hv, hlast⟩

/-! Filters equally configured and fed -/

/-- Two filters that differ in their parameters other than W, in dead words, the model's own fields and the program
position only. -/
structure State.FedAlike (s t : State) : Prop where
  ready  : s.ready = true
  filter : s.mode = .filter
  same   : t.bare = { s.bare with params := t.params, store := t.store }
  width  : t.W = s.W
  live   : Memory.Twins s.nwords s.store t.store

namespace State.FedAlike

variable {s t : State}

theorem nbits (h : s.FedAlike t) : t.nbits = s.nbits := (congrArg State.nbits h.same :)

theorem k (h : s.FedAlike t) : t.k = s.k := (congrArg State.k h.same :)

theorem mode (h : s.FedAlike t) : t.mode = s.mode := (congrArg State.mode h.same :)

theorem ready' (h : s.FedAlike t) : t.ready = true := (congrArg State.ready h.same :).trans h.ready

/-- BF_CONFIG makes any two ready devices alike. -/
theorem configured {m k : Word} (hs : s.Inv) (ht : t.Inv) (hsr : s.ready = true) (htr : t.ready = true)
    (hW : t.W = s.W) : (s.configured m k).FedAlike (t.configured m k) := by
  obtain ⟨hsi, hsf⟩ := State.ready_iff.1 hsr
  obtain ⟨hti, htf⟩ := State.ready_iff.1 htr
  obtain ⟨hs0, hs1⟩ := hs.noFaultInfo hsf
  obtain ⟨ht0, ht1⟩ := ht.noFaultInfo htf
  refine ⟨State.ready_iff.2 ⟨rfl, hsf⟩, rfl, ?_, hW, ?_⟩
  · simp only [State.configured, State.bare, hsf, htf, hs0, hs1, ht0, ht1, hW]
  · have hnone : Memory.Twins 0 s.store t.store :=
      ⟨hs.storeWf, ht.storeWf, fun w hw => absurd hw (Nat.not_lt_zero w)⟩
    show Memory.Twins (ceilDiv m.toNat s.W) (Memory.zeroWords (ceilDiv m.toNat s.W) s.store)
      (Memory.zeroWords (ceilDiv m.toNat t.W) t.store)
    rw [hW]
    exact hnone.zeroWords (ceilDiv m.toNat s.W)

/-- BF_INSERT sets the same bits in both. -/
theorem inserted (h : s.FedAlike t) (d : Word) : (s.inserted d).FedAlike (t.inserted d) := by
  refine ⟨State.ready_iff.2 ⟨rfl, (State.ready_iff.1 h.ready).2⟩, h.filter, ?_, h.width, ?_⟩
  · exact congrArg (fun b => { b.inserted d with store := (t.inserted d).store }.bare) h.same
  · show Memory.Twins s.nwords (setProbes s.W s.nbits.toNat d s.k.toNat s.store)
      (setProbes t.W t.nbits.toNat d t.k.toNat t.store)
    rw [h.width, h.nbits, h.k]
    exact h.live.setProbes s.W s.nbits.toNat d s.k.toNat

theorem runProgram_inserts (h : s.FedAlike t) (ds : List Word) :
    ∃ u v, runProgram (ds.map fun d => { instr := .bfInsert, args := [d] }) s = .next u ∧
      runProgram (ds.map fun d => { instr := .bfInsert, args := [d] }) t = .next v ∧ u.FedAlike v := by
  induction ds generalizing s t with
  | nil => exact ⟨s, t, rfl, rfl, h⟩
  | cons d ds ih =>
    obtain ⟨u, v, hu, hv, hfed⟩ := ih (h.inserted d)
    exact ⟨u, v, (runProgram_cons (runCommand_bfInsert h.ready h.filter d)).trans hu,
      (runProgram_cons (runCommand_bfInsert h.ready' (h.mode.trans h.filter) d)).trans hv, hfed⟩

theorem peers (h : s.FedAlike t) (hp : t.params = s.params) : s.Peers t :=
  State.Peers.iff_bare.2 ⟨t.store, h.same.trans (by rw [hp]; rfl), h.live⟩

end State.FedAlike

theorem Params.eq_of_fields {p q : Params} (hwidth : p.width = q.width) (hnbitsMax : p.nbitsMax = q.nbitsMax)
    (hkMax : p.kMax = q.kMax) : p = q := by
  cases p
  cases q
  cases hwidth
  cases hnbitsMax
  cases hkMax
  rfl

/-- Settles O47: BF_CONFIG makes the two filters alike, each insert keeps them so, and with equal parameters no program
tells them apart. -/
theorem equalFiltersEquallyFedAgree : Obligations.EqualFiltersEquallyFedAgree := by
  intro s₁ s₂ m k ds hinv₁ hinv₂ hr₁ hr₂ hwidth hmax hm hmmax hk hkmax₁ hkmax₂ prog
  have hW : s₂.W = s₁.W := congrArg Width.bits hwidth.symm
  have hrun₁ := runCommand_bfConfig hr₁ hm hmmax hk hkmax₁
  have hrun₂ := runCommand_bfConfig hr₂ hm (hmax ▸ hmmax) hk hkmax₂
  obtain ⟨t₁, t₂, ht₁, ht₂, hfed⟩ :=
    (State.FedAlike.configured (m := m) (k := k) hinv₁ hinv₂ hr₁ hr₂ hW).runProgram_inserts ds
  have hprog₁ : runProgram prog s₁ = .next t₁ := (runProgram_cons hrun₁).trans ht₁
  have hprog₂ : runProgram prog s₂ = .next t₂ := (runProgram_cons hrun₂).trans ht₂
  refine ⟨t₁, t₂, hprog₁, hprog₂, hfed.nbits.symm, hfed.k.symm, hfed.mode.symm,
    fun w hw => (hfed.live.live w hw).symm, fun hkmax later => ?_⟩
  obtain ⟨u₁, hu₁, htinv₁, hp₁⟩ := keepsInv_runProgram hinv₁ prog
  obtain ⟨u₂, hu₂, -, hp₂⟩ := keepsInv_runProgram hinv₂ prog
  cases hu₁.symm.trans hprog₁
  cases hu₂.symm.trans hprog₂
  have hparams : s₂.params = s₁.params := Params.eq_of_fields hwidth.symm hmax.symm hkmax.symm
  obtain ⟨v₁, v₂, hv₁, hv₂, hpeers⟩ := (hfed.peers (hp₂.trans (hparams.trans hp₁.symm))).runProgram htinv₁ later
  exact ⟨v₁, v₂, hv₁, hv₂, hpeers.result_status⟩

end Sys2Proof.Machine
end

section
/-! SUPPORT. The value of SIZE and its bound on the number of probes (41_bloom.md R163). -/

namespace Sys2Proof.Machine

theorem IsSize.exists_of_pre {capacity : Nat} {x : ℝ} (h : SizePre capacity x) : ∃ m k : Nat, IsSize capacity x m k := by
  obtain ⟨m, hm⟩ := Int.eq_ofNat_of_zero_le (a := ⌈(capacity : ℝ) * |Real.log x| / Real.log 2 ^ 2⌉)
    (Int.ceil_nonneg (by positivity))
  obtain ⟨k, hk⟩ := Int.eq_ofNat_of_zero_le (a := ⌈(m : ℝ) * Real.log 2 / (capacity : ℝ)⌉)
    (Int.ceil_nonneg (by positivity))
  exact ⟨m, k, h, hm.symm, hk.symm⟩

/-- m is large enough for log2(1 / error_rate) probes: before the ceiling of m the two sides are equal. -/
theorem IsSize.logb_le {capacity m k : Nat} {x : ℝ} (h : IsSize capacity x m k) :
    Real.logb 2 (1 / x) ≤ (m : ℝ) * Real.log 2 / capacity := by
  obtain ⟨⟨hcap, hx0, hx1⟩, hm, -⟩ := h
  have hcap : (0 : ℝ) < capacity := by exact_mod_cast hcap
  have hlog2 : 0 < Real.log 2 := Real.log_pos one_lt_two
  have hle : (capacity : ℝ) * |Real.log x| / Real.log 2 ^ 2 ≤ m := by
    have hceil := Int.le_ceil ((capacity : ℝ) * |Real.log x| / Real.log 2 ^ 2)
    rwa [← hm, Int.cast_natCast] at hceil
  calc Real.logb 2 (1 / x) = |Real.log x| / Real.log 2 := by
        rw [Real.logb, one_div, Real.log_inv, abs_of_neg (Real.log_neg hx0 hx1)]
    _ = (capacity : ℝ) * |Real.log x| / Real.log 2 ^ 2 * Real.log 2 / capacity := by field_simp
    _ ≤ (m : ℝ) * Real.log 2 / capacity := by gcongr

/-- Settles O59: both ceilings are natural numbers, and the second one is of a number at least log2(1 / error_rate). -/
theorem sizeGivesAtLeastOneBitAndOneProbe : Obligations.SizeGivesAtLeastOneBitAndOneProbe := by
  refine fun capacity x hpre => ⟨IsSize.exists_of_pre hpre, fun m k h => ?_⟩
  obtain ⟨hm, hk⟩ := h.pos
  have hlogb := h.logb_le
  refine ⟨hm, hk, ?_, fun m' k' h' => h.unique h'⟩
  obtain ⟨-, -, hkceil⟩ := h
  exact (Int.ceil_mono hlogb).trans_eq hkceil.symm

end Sys2Proof.Machine
end

section
/-! SUPPORT. The step of a host access that reaches a register: a read while BUSY = 0 and while BUSY = 1 (42_host.md
R200, R205), and the operand and CMD writes while BUSY = 0 (R201, R202, R207). -/

namespace Sys2Proof.Machine

/-! Reads -/

theorem accessTarget_lt {addr n : Word} {r : Reg} (h : accessTarget addr n = some r) : addr.toNat < 0x100 := by
  obtain ⟨-, ha⟩ := accessTarget_eq_some_iff.1 h
  have hle := r.offset_le
  omega

theorem accessTarget_offset (r : Reg) : accessTarget (BitVec.ofNat 64 r.offset) 8#64 = some r := by cases r <;> rfl

theorem hostRead_of_target {s : State} {addr n : Word} {r : Reg} (h : accessTarget addr n = some r) :
    s.hostRead addr n =
      if s.busy && !r.stable then
        { s.replying (some (busyDraw r (Config.freeRead s.draws))) with draws := s.draws + 1 }
      else s.replying (some (s.readReg r)) := by
  rw [State.hostRead, outsideWindow_of_lt (accessTarget_lt h), h]; rfl

section

variable {s : State} {r : Reg} {addr n : Word} {rest : List Event}

/-- While BUSY = 0 every register reads its value, while BUSY = 1 a stable one does. -/
theorem step_read_value (h : s.inFlight = none ∨ r.stable = true) (ht : accessTarget addr n = some r) :
    step { s with pending := .read addr n :: rest } =
      .next { s with pending := rest, reply := some (s.readReg r) } := by
  have hvalue : (s.busy && !r.stable) = false := by
    rcases h with h | h
    · rw [State.busy_eq_false.2 h]; rfl
    · rw [h]; exact Bool.and_false _
  rw [step_cons rfl, handleEvent, hostRead_of_target ht]
  exact congrArg Host.Outcome.next (if_neg (ne_true_of_eq_false hvalue))

/-- While BUSY = 1 a register that is not stable reads a draw. -/
theorem step_read_draw (h : s.inFlight ≠ none) (hr : r.stable = false) (ht : accessTarget addr n = some r) :
    step { s with pending := .read addr n :: rest } =
      .next { s with
        pending := rest, reply := some (busyDraw r (Config.freeRead s.draws)), draws := s.draws + 1 } := by
  have hbusy : s.busy = true := eq_true_of_ne_false (mt State.busy_eq_false.1 h)
  have hdraw : (s.busy && !r.stable) = true := by rw [hbusy, hr]; rfl
  rw [step_cons rfl, handleEvent, hostRead_of_target ht]
  exact congrArg Host.Outcome.next (if_pos hdraw)

end

/-- Settles O50: with no command in flight every register of the window reads its value. -/
theorem hostReadReturnsTheRegister : Obligations.HostReadReturnsTheRegister := by
  intro s rest hi reads
  have hread : ∀ r : Reg, reads (BitVec.ofNat 64 r.offset) (s.readReg r) := fun r =>
    step_read_value (.inl hi) (accessTarget_offset r)
  exact ⟨hread .cmd, hread .arg0, hread .arg1, hread .result, hread .status, hread .ctrl, hread .nbits, hread .nwords,
    hread .capwords, hread .k, hread .iterPos, hread .faultInfo0, hread .faultInfo1, hread .paramW,
    hread .paramNbitsMax, hread .paramKMax, hread .id⟩

/-- The offsets of the registers that read a draw while BUSY = 1 (42_host.md R205). -/
theorem accessTarget_unstable : ∀ addr ∈ [0x18#64, 0x20#64, 0x28#64, 0x30#64, 0x38#64, 0x40#64, 0x48#64, 0x50#64,
    0x58#64, 0x60#64], (accessTarget addr 8#64).map Reg.stable = some false := by
  intro addr h
  fin_cases h <;> rfl

/-- A draw for STATUS has BUSY = 1. -/
theorem busyDraw_status_getLsbD_zero (free : Word) : (busyDraw .status free).getLsbD 0 = true := by
  simp [busyDraw]

/-- Settles O51: the stable registers read their value, any other a draw, which for STATUS has BUSY = 1. -/
theorem hostReadDuringACommand : Obligations.HostReadDuringACommand := by
  intro s rest hi reads
  have hread : ∀ r : Reg, r.stable = true → reads (BitVec.ofNat 64 r.offset) (s.readReg r) := fun r hr =>
    step_read_value (.inr hr) (accessTarget_offset r)
  refine ⟨hread .cmd rfl, hread .arg0 rfl, hread .arg1 rfl, hread .paramW rfl, hread .paramNbitsMax rfl,
    hread .paramKMax rfl, hread .id rfl, fun addr haddr => ?_⟩
  obtain ⟨r, ht, hr⟩ := Option.map_eq_some_iff.1 (accessTarget_unstable addr haddr)
  refine ⟨busyDraw r (Config.freeRead s.draws), step_read_draw hi hr ht, ?_⟩
  rintro rfl
  obtain rfl : Reg.status = r := Option.some.inj ((accessTarget_offset .status).symm.trans ht)
  exact busyDraw_status_getLsbD_zero _

/-! Writes -/

/-- A CMD write while BUSY = 0 and FAULT = 1 is discarded (42_host.md R207). -/
theorem hostWrite_cmd_discarded {s : State} (hi : s.inFlight = none) (hf : s.fault ≠ none) (v : Word) :
    s.hostWrite 0x00#64 8#64 v = s.replying none := by
  have hdiscard : s.writeCmd 0x00#64 8#64 v = s :=
    (if_neg (ne_true_of_eq_false (State.busy_eq_false.2 hi))).trans (if_pos (Option.isSome_iff_ne_none.2 hf))
  have htarget : accessTarget 0x00#64 8#64 = some .cmd := accessTarget_offset .cmd
  rw [hostWrite_of_target (accessTarget_lt htarget) htarget, State.writeReg, hdiscard]

theorem step_write_cmd_discarded {s : State} {v : Word} {rest : List Event} (hi : s.inFlight = none)
    (hf : s.fault ≠ none) (hp : s.pending = .write 0x00#64 8#64 v :: rest) :
    step s = .next { s with pending := rest, reply := none } :=
  (step_cons hp).trans (congrArg Host.Outcome.next (hostWrite_cmd_discarded (by exact hi) (by exact hf) v))

/-- Settles O54: each of the four writes has its one next state. -/
theorem idleWritesStoreOperandsAndIssueCommands : Obligations.IdleWritesStoreOperandsAndIssueCommands :=
  fun _ _ _ hi => ⟨step_write_arg0 hi rfl, step_write_arg1 hi rfl, fun hf => step_write_cmd hi hf rfl,
    fun hf => step_write_cmd_discarded hi hf rfl⟩

end Sys2Proof.Machine
end

section
/-! SUPPORT. Which fault codes a command and a host access can record (60_exceptions.md R220 to R229): ERR_ILLEGAL and
ERR_MODE come from the prologue alone, the rest from a command's own check or from the host. -/

namespace Sys2Proof.Machine

/-- Every fault recorded in `t` was recorded in `s`, or has one of the codes listed. -/
def State.RecordsOnly (codes : List FaultCode) (s t : State) : Prop :=
  ∀ code, t.fault = some code → s.fault = some code ∨ code ∈ codes

namespace State.RecordsOnly

variable {codes : List FaultCode} {code : FaultCode} {s t u : State}

theorem of_fault_eq (h : t.fault = s.fault) : s.RecordsOnly codes t := fun _ hc => .inl (h.symm.trans hc)

theorem recordFault (h : code ∈ codes) (info0 info1 : Word) :
    s.RecordsOnly codes (s.recordFault code info0 info1) := by
  intro c hc
  rw [recordFault_fault] at hc
  split at hc
  · cases hc; exact .inr h
  · exact .inl hc

theorem faulted (h : code ∈ codes) : s.RecordsOnly codes (s.faulted code) := recordFault h s.current.c s.current.a0

theorem ite {c : Prop} [Decidable c] (ht : s.RecordsOnly codes t) (hu : s.RecordsOnly codes u) :
    s.RecordsOnly codes (if c then t else u) := by
  split
  · exact ht
  · exact hu

theorem fault_of_notMem (h : s.RecordsOnly codes t) (hc : code ∉ codes) (ht : t.fault = some code) :
    s.fault = some code := (h code ht).resolve_right hc

end State.RecordsOnly

/-! Commands -/

/-- The faults of the commands' own checks (60_exceptions.md R234 (3)). -/
def ownCodes : List FaultCode := [.errRange, .errCapacity, .errConfig, .errIter]

/-- The answer of a command whose value and mode are legal: a next state with no new fault but of its own check. -/
def RecordsOwn (s : State) (x : Result) : Prop := ∃ t, x = .next t ∧ s.RecordsOnly ownCodes t

section

variable {s u : State} {x y : Result}

theorem recordsOwn_raiseFault {code : FaultCode} (h : code ∈ ownCodes) : RecordsOwn s (raiseFault code s) :=
  ⟨_, rfl, .faulted h⟩

theorem recordsOwn_complete {r : Word} {absent : Bool} (h : u.fault = s.fault) : RecordsOwn s (complete r absent u) :=
  ⟨_, rfl, .of_fault_eq h⟩

theorem recordsOwn_ite {c : Prop} [Decidable c] (hx : RecordsOwn s x) (hy : RecordsOwn s y) :
    RecordsOwn s (if c then x else y) := by
  split
  · exact hx
  · exact hy

theorem recordsOwn_inLegalMode {i : Instr} (h : legalInMode i s.mode = true) (hx : RecordsOwn s x) :
    RecordsOwn s (inLegalMode i s x) := by
  rwa [inLegalMode_of_legal h]

end

theorem exec_recordsOwn {i : Instr} {s : State} (h : legalInMode i s.mode = true) : RecordsOwn s (exec i s) := by
  cases i <;> rw [exec] <;> refine recordsOwn_inLegalMode h ?_
  case bvNew | bvLen | bvIsEmpty | bvGet | bvClear | bvSetAll | bvNegate | bvReadWord | bvIterStart | bfInsert |
      bfQuery | bfClear =>
    exact recordsOwn_complete rfl
  case bvFromElem v | bvSet v | bvPush v | bvReserve | bfConfig | bfIndex =>
    exact recordsOwn_ite (recordsOwn_raiseFault (by decide)) (recordsOwn_complete rfl)
  case bvIterNext =>
    exact recordsOwn_ite (recordsOwn_ite (recordsOwn_complete rfl) (recordsOwn_complete rfl))
      (recordsOwn_raiseFault (by decide))

/-- A command legal in the mode records a fault of its own check only. -/
theorem exec_recordsOnly_ownCodes {i : Instr} {s t : State} (hl : legalInMode i s.mode = true)
    (he : exec i s = .next t) : s.RecordsOnly ownCodes t := by
  obtain ⟨u, hu, hrec⟩ := exec_recordsOwn hl
  cases he.symm.trans hu
  exact hrec

/-- A command illegal in the mode records ERR_MODE only. -/
theorem exec_recordsOnly_errMode {i : Instr} {s t : State} (hl : legalInMode i s.mode = false)
    (he : exec i s = .next t) : s.RecordsOnly [.errMode] t := by
  rw [exec_of_illegalInMode hl, ← State.faulted_eq_faultEntry] at he
  cases he
  exact .faulted (List.mem_singleton_self _)

/-! Host accesses -/

/-- The faults of host accesses (60_exceptions.md R220). -/
def hostCodes : List FaultCode := [.errBus, .errBusy]

theorem errBus_mem_hostCodes : .errBus ∈ hostCodes := .head _

theorem errBusy_mem_hostCodes : .errBusy ∈ hostCodes := .tail _ (.head _)

theorem hostRead_recordsOnly (s : State) (addr n : Word) : s.RecordsOnly hostCodes (s.hostRead addr n) := by
  rcases hostRead_cases s addr n with ⟨v, he⟩ | ⟨v, he⟩ | ⟨v, he⟩ <;> rw [he]
  · exact .of_fault_eq rfl
  · exact .recordFault errBus_mem_hostCodes addr n
  · exact .of_fault_eq rfl

theorem writeReg_recordsOnly (s : State) (r : Reg) (addr n v : Word) :
    s.RecordsOnly hostCodes (s.writeReg r addr n v) := by
  cases r with
  | cmd => exact .ite (.recordFault errBusy_mem_hostCodes _ _) (.ite (.of_fault_eq rfl) (.of_fault_eq rfl))
  | arg0 | arg1 => exact .ite (.recordFault errBusy_mem_hostCodes _ _) (.of_fault_eq rfl)
  | ctrl => exact .ite nofun (.ite (.of_fault_eq rfl) (.recordFault errBus_mem_hostCodes _ _))
  | _ => exact .recordFault errBus_mem_hostCodes _ _

theorem hostWrite_recordsOnly (s : State) (addr n v : Word) : s.RecordsOnly hostCodes (s.hostWrite addr n v) := by
  rcases hostWrite_cases s addr n v with he | he | ⟨r, he⟩ <;> rw [he]
  · exact .of_fault_eq rfl
  · exact .recordFault errBus_mem_hostCodes addr (n ||| 0x100#64)
  · exact writeReg_recordsOnly s r addr n v

/-! The statements -/

/-- Settles O9: the engine's turn raises ERR_ILLEGAL for an illegal value, and it is none of the codes a decoded command
or a host access records. -/
theorem errIllegalForIllegalValuesOnly : Obligations.ErrIllegalForIllegalValuesOnly := by
  refine ⟨fun s f why hf h => engineTurn_illegal hf h, fun i s t he ht => ?_, fun s addr n v => ⟨?_, ?_⟩⟩
  · cases hl : legalInMode i s.mode with
    | false => exact (exec_recordsOnly_errMode hl he).fault_of_notMem (by decide) ht
    | true => exact (exec_recordsOnly_ownCodes hl he).fault_of_notMem (by decide) ht
  · exact (hostRead_recordsOnly s addr n).fault_of_notMem (by decide)
  · exact (hostWrite_recordsOnly s addr n v).fault_of_notMem (by decide)

/-- The commands the mode check refuses, by name (60_exceptions.md R223). -/
theorem legalInMode_eq_false_iff (i : Instr) (m : Mode) :
    legalInMode i m = false ↔
      (m = .filter ∧ ((∃ v, i = .bvSet v) ∨ (∃ v, i = .bvPush v) ∨ i = .bvClear ∨ i = .bvSetAll ∨
        i = .bvNegate ∨ i = .bvReserve)) ∨
      (m = .vector ∧ (i = .bfInsert ∨ i = .bfQuery ∨ i = .bfClear ∨ i = .bfIndex)) := by
  cases m with
  | vector => cases i <;> simp [legalInMode]
  | filter => cases i <;> simp [legalInMode]

/-- Settles O12: the commands named are those the mode check refuses; any other records a fault of its own check. -/
theorem errModeForExactlyTheCommandsNamed : Obligations.ErrModeForExactlyTheCommandsNamed := by
  intro i s named
  have hnamed : legalInMode i s.mode = false ↔ named := legalInMode_eq_false_iff i s.mode
  refine ⟨fun h => exec_of_illegalInMode (hnamed.2 h), fun h t he => ?_⟩
  have hl : legalInMode i s.mode = true := eq_true_of_ne_false (mt hnamed.1 h)
  exact (exec_recordsOnly_ownCodes hl he).fault_of_notMem (by decide)

end Sys2Proof.Machine
end

section
/-! SUPPORT. How a command ends (60_exceptions.md R230, R231), what no step but a reset does to the fault record once it
is written (R232, R233), and the two orders of a host's fault and a command's (R235). -/

namespace Sys2Proof.Machine

/-! The end of a command -/

/-- `t` is `s` with a command over: one fault entry, or the fault record as it was; the operands, CMD, the parameters
and the environment are untouched either way. -/
structure State.EndsIn (s t : State) : Prop where
  busy    : t.busy = false
  pos     : t.pos = s.pos + 1
  cmd     : t.cmd = s.cmd
  arg0    : t.arg0 = s.arg0
  arg1    : t.arg1 = s.arg1
  params  : t.params = s.params
  pending : t.pending = s.pending
  reply   : t.reply = s.reply
  draws   : t.draws = s.draws
  record  : (∃ code, t = s.faultEntry code) ∨
    (t.fault = s.fault ∧ t.faultInfo0 = s.faultInfo0 ∧ t.faultInfo1 = s.faultInfo1)

theorem Ends.endsIn {s : State} {x : Result} (h : Ends s s.sameOutside x) : ∃ t, x = .next t ∧ s.EndsIn t := by
  rcases h with ⟨code, hx⟩ | ⟨u, r, absent, hx, hu⟩
  · exact ⟨_, hx, rfl, rfl, rfl, rfl, rfl, rfl, rfl, rfl, rfl, .inl ⟨code, s.faulted_eq_faultEntry code⟩⟩
  · rw [hu] at hx
    exact ⟨_, hx, rfl, rfl, rfl, rfl, rfl, rfl, rfl, rfl, rfl, .inr ⟨rfl, rfl, rfl⟩⟩

theorem exec_endsIn (i : Instr) (s : State) : ∃ t, exec i s = .next t ∧ s.EndsIn t := Ends.endsIn (exec_cases i s)

/-- Settles O36: a command raises one fault, or completes having changed STORE and the storage-control registers. -/
theorem commandCompletesOrOnlyRecordsAFault : Obligations.CommandCompletesOrOnlyRecordsAFault := by
  intro i s
  obtain ⟨t, he, h⟩ := exec_endsIn i s
  exact ⟨t, he, h.busy, h.pos, h.cmd, h.arg0, h.arg1, h.params, h.pending, h.reply, h.draws, h.record⟩

/-! The engine's turn -/

theorem engineTurn_of_idle {s : State} (h : s.inFlight = none) : engineTurn s = .next s := by
  simp [engineTurn, State.fetch, h]

/-- Settles O11: with no command in flight there is nothing to run. -/
theorem idleEngineKeepsEveryPieceOfState : Obligations.IdleEngineKeepsEveryPieceOfState := fun _ hi =>
  ⟨engineTurn_of_idle hi, fun hp => (step_nil hp).trans (engineTurn_of_idle hi)⟩

/-- The engine's turn ends the command in flight, be its value legal or not. -/
theorem engineTurn_endsIn {s : State} (h : s.inFlight ≠ none) : ∃ t, engineTurn s = .next t ∧ s.EndsIn t := by
  rcases engineTurn_cases s with ⟨hidle, -⟩ | ⟨f, -, ⟨why, -, he⟩ | ⟨i, -, he⟩⟩
  · exact absurd hidle h
  · rw [he]; exact Ends.endsIn (.inl ⟨.errIllegal, rfl⟩)
  · rw [he]; exact exec_endsIn i s

/-! The first fault is kept -/

section

variable {s t : State} {code : FaultCode}

theorem State.recordFault_of_fault (hf : s.fault ≠ none) (info0 info1 : Word) :
    s.recordFault code info0 info1 = s := by
  rw [State.recordFault_eq, if_neg hf]

theorem State.faultEntry_of_fault (hf : s.fault ≠ none) :
    s.faultEntry code = { s with inFlight := none, pos := s.pos + 1 } := by
  rw [← State.faulted_eq_faultEntry, State.faulted, State.recordFault_of_fault hf]

theorem State.faultEntry_of_no_fault (hf : s.fault = none) :
    s.faultEntry code = { s with
      fault := some code, faultInfo0 := s.current.c, faultInfo1 := s.current.a0, inFlight := none
      pos := s.pos + 1 } := by
  rw [State.faultEntry, hf]

/-- `t` has the fault record of `s`, and if no command is in flight in `s`, all the rest of it but ARG0, ARG1, the reply
and the events to come. -/
structure State.KeepsRecord (s t : State) : Prop where
  fault      : t.fault = s.fault
  faultInfo0 : t.faultInfo0 = s.faultInfo0
  faultInfo1 : t.faultInfo1 = s.faultInfo1
  quiet      : s.inFlight = none →
    t = { s with arg0 := t.arg0, arg1 := t.arg1, reply := t.reply, pending := t.pending }

theorem State.EndsIn.keepsRecord (h : s.EndsIn t) (hf : s.fault ≠ none) (hi : s.inFlight ≠ none) :
    s.KeepsRecord t := by
  rcases h.record with ⟨code, rfl⟩ | ⟨hfault, hinfo0, hinfo1⟩
  · rw [State.faultEntry_of_fault hf]
    exact ⟨rfl, rfl, rfl, fun hidle => absurd hidle hi⟩
  · exact ⟨hfault, hinfo0, hinfo1, fun hidle => absurd hidle hi⟩

namespace State.KeepsRecord

theorem refl (s : State) : s.KeepsRecord s := ⟨rfl, rfl, rfl, fun _ => rfl⟩

theorem recordFault (hf : s.fault ≠ none) (info0 info1 : Word) : s.KeepsRecord (s.recordFault code info0 info1) := by
  rw [State.recordFault_of_fault hf]
  exact refl s

theorem replying (h : s.KeepsRecord t) (v : Option Word) : s.KeepsRecord (t.replying v) :=
  ⟨h.fault, h.faultInfo0, h.faultInfo1, fun hi => by rw [h.quiet hi]; rfl⟩

theorem withArgs (s : State) (x y : Word) : s.KeepsRecord { s with arg0 := x, arg1 := y } :=
  ⟨rfl, rfl, rfl, fun _ => rfl⟩

theorem ite {u : State} {c : Prop} [Decidable c] (ht : c → s.KeepsRecord t) (hu : ¬c → s.KeepsRecord u) :
    s.KeepsRecord (if c then t else u) := by
  split
  · exact ht ‹c›
  · exact hu ‹¬c›

/-- A read takes a draw only while a command is in flight (42_host.md R205). -/
theorem hostRead (hf : s.fault ≠ none) (addr n : Word) : s.KeepsRecord (s.hostRead addr n) := by
  unfold State.hostRead
  refine ite (fun _ => (refl s).replying none) fun _ => ?_
  split
  · exact (recordFault hf addr n).replying _
  · refine ite (fun hdraw => ⟨rfl, rfl, rfl, fun hi => ?_⟩) fun _ => (refl s).replying _
    rw [State.busy_eq_false.2 hi] at hdraw
    cases hdraw

/-- The write of any register but the one to CTRL that resets: operands are written, a CMD write is discarded
(42_host.md R207). -/
theorem writeReg (hf : s.fault ≠ none) {r : Reg} {v : Word} (h : ¬(r = .ctrl ∧ v = 1#64)) (addr n : Word) :
    s.KeepsRecord (s.writeReg r addr n v) := by
  cases r with
  | cmd =>
    exact ite (fun _ => recordFault hf _ _) fun _ =>
      ite (fun _ => refl s) fun hno => absurd (Option.isSome_iff_ne_none.2 hf) hno
  | arg0 => exact ite (fun _ => recordFault hf _ _) fun _ => withArgs s v s.arg1
  | arg1 => exact ite (fun _ => recordFault hf _ _) fun _ => withArgs s s.arg0 v
  | ctrl => exact ite (fun hv => absurd ⟨rfl, hv⟩ h) fun _ => ite (fun _ => refl s) fun _ => recordFault hf _ _
  | _ => exact recordFault hf _ _

end State.KeepsRecord

end

/-- A write that is no reset event is not the write of 1 to CTRL (70_reset_and_hazards.md R260). -/
theorem not_softReset_of_target {addr n v : Word} {r : Reg} (h : isResetEvent (.write addr n v) = false)
    (ht : accessTarget addr n = some r) : ¬(r = .ctrl ∧ v = 1#64) := by
  rintro ⟨rfl, rfl⟩
  obtain ⟨rfl, ha⟩ := accessTarget_eq_some_iff.1 ht
  obtain rfl : addr = 0x28#64 := BitVec.eq_of_toNat_eq ha
  cases h

theorem hostWrite_keepsRecord {s : State} (hf : s.fault ≠ none) {addr n v : Word}
    (h : isResetEvent (.write addr n v) = false) : s.KeepsRecord (s.hostWrite addr n v) := by
  unfold State.hostWrite
  refine .ite (fun _ => (State.KeepsRecord.refl s).replying none) fun _ => ?_
  split
  · exact (State.KeepsRecord.recordFault hf addr _).replying none
  · exact (State.KeepsRecord.writeReg hf (not_softReset_of_target h ‹_›) addr n).replying none

theorem engineTurn_keepsRecord {s t : State} (hf : s.fault ≠ none) (h : engineTurn s = .next t) :
    s.KeepsRecord t := by
  by_cases hi : s.inFlight = none
  · cases (engineTurn_of_idle hi).symm.trans h
    exact .refl s
  · obtain ⟨u, hu, hend⟩ := engineTurn_endsIn hi
    cases h.symm.trans hu
    exact hend.keepsRecord hf hi

theorem handleEvent_keepsRecord {s t : State} {e : Event} (hf : s.fault ≠ none) (hr : isResetEvent e = false)
    (h : handleEvent e s = .next t) : s.KeepsRecord t := by
  cases e with
  | read addr n => cases h; exact .hostRead hf addr n
  | write addr n v => cases h; exact hostWrite_keepsRecord hf hr
  | rst => cases hr
  | engine => exact engineTurn_keepsRecord hf h

/-- The events to come are no part of what is kept. -/
theorem step_keepsRecord {s t : State} (hf : s.fault ≠ none)
    (hr : ∀ e, s.pending.head? = some e → isResetEvent e = false) (h : step s = .next t) : s.KeepsRecord t := by
  cases hp : s.pending with
  | nil => exact engineTurn_keepsRecord hf ((step_nil hp).symm.trans h)
  | cons e rest =>
    have hkeep : ({ s with pending := rest } : State).KeepsRecord t :=
      handleEvent_keepsRecord hf (hr e (by rw [hp]; rfl)) ((step_cons hp).symm.trans h)
    exact ⟨hkeep.fault, hkeep.faultInfo0, hkeep.faultInfo1, hkeep.quiet⟩

/-- Settles O37: once written, the fault record is kept by every event that is no reset, and with no command in flight
only the operands can be written. -/
theorem faultIsStickyUntilReset : Obligations.FaultIsStickyUntilReset := fun _ _ hf hr hs =>
  have h := step_keepsRecord hf hr hs
  ⟨h.fault, h.faultInfo0, h.faultInfo1, h.quiet⟩

/-! A host write while a command is in flight -/

theorem writeReg_of_busy {s : State} (hi : s.inFlight ≠ none) {r : Reg} (hr : r = .cmd ∨ r = .arg0 ∨ r = .arg1)
    (addr n v : Word) : s.writeReg r addr n v = s.busyWriteFault addr n := by
  have hbusy : s.busy = true := eq_true_of_ne_false (mt State.busy_eq_false.1 hi)
  rcases hr with rfl | rfl | rfl <;> exact if_pos hbusy

/-- Settles O53: the write reaches CMD or an operand register and is refused there. -/
theorem writeDuringACommandOnlyRaisesErrBusy : Obligations.WriteDuringACommandOnlyRaisesErrBusy := by
  intro s addr v rest hi haddr
  obtain ⟨r, hr, ht⟩ : ∃ r : Reg, (r = .cmd ∨ r = .arg0 ∨ r = .arg1) ∧ accessTarget addr 8#64 = some r := by
    rcases haddr with rfl | rfl | rfl
    · exact ⟨.cmd, .inl rfl, accessTarget_offset .cmd⟩
    · exact ⟨.arg0, .inr (.inl rfl), accessTarget_offset .arg0⟩
    · exact ⟨.arg1, .inr (.inr rfl), accessTarget_offset .arg1⟩
  rw [step_cons rfl, handleEvent, hostWrite_of_target (accessTarget_lt ht) ht, writeReg_of_busy (by exact hi) hr,
    State.busyWriteFault, State.recordFault_eq]
  exact congrArg Host.Outcome.next (apply_ite (State.replying · none) _ _ _)

/-! The two orders of a host's fault and the command's own -/

section

variable {s : State} (hf : s.fault = none) (hi : s.inFlight ≠ none) (v : Word)
include hf hi

/-- The host first: ERR_BUSY is recorded and kept, and the command ends all the same. -/
theorem steps_write_then_engine :
    ∃ u, steps 2 { s with pending := [.write 0x08#64 8#64 v, .engine] } = .next u ∧
      u.fault = some .errBusy ∧ u.faultInfo0 = 0x08#64 ∧ u.busy = false ∧ u.arg0 = s.arg0 := by
  have hwrite := writeDuringACommandOnlyRaisesErrBusy s 0x08#64 v [.engine] hi (.inr (.inl rfl))
  rw [if_pos hf] at hwrite
  obtain ⟨u, hu, hend⟩ := engineTurn_endsIn (s := { s with
    pending := [], reply := none, fault := some .errBusy, faultInfo0 := 0x08#64, faultInfo1 := 0x108#64 }) hi
  have hkeep := hend.keepsRecord nofun hi
  exact ⟨u, (steps_succ hwrite).trans (steps_one ((step_engine rfl).trans hu)), hkeep.fault, hkeep.faultInfo0,
    hend.busy, hend.arg0⟩

/-- The engine first: the command's own fault is recorded, and the write finds BUSY = 0. -/
theorem steps_engine_then_write {t : State} {code : FaultCode} (ht : engineTurn s = .next t)
    (hcode : t.fault = some code) :
    ∃ u, steps 2 { s with pending := [.engine, .write 0x08#64 8#64 v] } = .next u ∧
      u.fault = some code ∧ u.faultInfo0 = s.current.c ∧ u.busy = false ∧ u.arg0 = v := by
  have hengine : step { s with pending := [.engine, .write 0x08#64 8#64 v] } =
      .next (t.withEnv [.write 0x08#64 8#64 v] s.reply s.draws) :=
    (engineTurn_withEnv s _ s.reply s.draws).trans (congrArg (mapNext _) ht)
  have hinfo : t.faultInfo0 = s.current.c := by
    obtain ⟨u, hu, hend⟩ := engineTurn_endsIn hi
    cases ht.symm.trans hu
    rcases hend.record with ⟨own, rfl⟩ | ⟨hkept, -⟩
    · rw [State.faultEntry_of_no_fault hf]
    · rw [hkept, hf] at hcode; cases hcode
  have hidle : t.inFlight = none := (engineTurn_idle ht).1
  exact ⟨_, (steps_succ hengine).trans (steps_one (step_write_arg0 hidle rfl)), hcode, hinfo,
    State.busy_eq_false.2 hidle, rfl⟩

end

/-- Settles O56: whichever comes first finds no fault recorded and is the one recorded. -/
theorem eitherFaultMayBeTheOneRecorded : Obligations.EitherFaultMayBeTheOneRecorded := fun _ _ _ v hf hi ht hcode =>
  ⟨steps_write_then_engine hf hi v, steps_engine_then_write hf hi v ht hcode⟩

end Sys2Proof.Machine
end

section
/-! SUPPORT. Reset (70_reset_and_hazards.md R260, R261): the state it leaves, from any state and by either source. -/

namespace Sys2Proof.Machine

theorem afterReset_atResetValues (s : State) : s.afterReset.AtResetValues := { resetOf_atResetValues s.params with }

/-- A write to CTRL (42_host.md R203) does the same whatever else the state holds: BUSY and FAULT are not looked at. -/
theorem step_write_ctrl (s : State) (rest : List Event) (v : Word) :
    step { s with pending := .write 0x28#64 8#64 v :: rest } =
      .next ((({ s with pending := rest } : State).writeCtrl 0x28#64 8#64 v).replying none) := by
  have ht : accessTarget 0x28#64 8#64 = some .ctrl := accessTarget_offset .ctrl
  rw [step_cons rfl, handleEvent, hostWrite_of_target (accessTarget_lt ht) ht]
  rfl

theorem step_rst (s : State) (rest : List Event) :
    step { s with pending := .rst :: rest } = .next ({ s with pending := rest } : State).afterReset := by
  rw [step_cons rfl]; rfl

theorem writeCtrl_one (s : State) (addr n : Word) : s.writeCtrl addr n 1#64 = s.afterReset := rfl

theorem writeCtrl_zero (s : State) (addr n : Word) : s.writeCtrl addr n 0#64 = s := rfl

theorem writeCtrl_other (s : State) (addr n : Word) {v : Word} (h0 : v ≠ 0#64) (h1 : v ≠ 1#64) :
    s.writeCtrl addr n v = s.busWriteFault addr n := by
  rw [State.writeCtrl, if_neg h1, if_neg h0]

/-- Settles O2: a write to CTRL is a reset, nothing, or ERR_BUS by its value alone, and rst_i is the same reset. -/
theorem bothResetSourcesResetFromEveryState : Obligations.BothResetSourcesResetFromEveryState := by
  intro s rest
  refine ⟨⟨({ s with pending := rest } : State).afterReset, step_rst s rest, ?_, afterReset_atResetValues _, rfl, rfl⟩,
    ?_, fun v h0 h1 => ?_⟩
  · rw [step_write_ctrl, writeCtrl_one]; rfl
  · rw [step_write_ctrl, writeCtrl_zero]; rfl
  · rw [step_write_ctrl, writeCtrl_other _ _ _ h0 h1, State.busWriteFault, recordFault_replying_eq]
    exact ⟨fun hf => congrArg Host.Outcome.next (if_pos hf), fun hf => congrArg Host.Outcome.next (if_neg hf)⟩

/-- The reset state meets the invariant: its length is 0 and it lists no word, so no word is live and every one is 0. -/
theorem State.Inv.resetOf {p : Params} (h : p.legal = true) : (State.resetOf p).Inv where
  paramsLegal := h
  storeWf := rfl
  wordFits _ := Nat.two_pow_pos _
  storeBound _ _ := rfl
  nbitsBound := Nat.zero_le _
  capwordsLower := (resetOf_atResetValues p).nwords.le
  capwordsUpper := Nat.zero_le _
  vectorK _ := rfl
  filterK := nofun
  iterBound := nofun
  iterClosed _ := rfl
  noneResult := nofun
  noFaultInfo _ := ⟨rfl, rfl⟩
  inFlightRegs := nofun
  tailClean _ := BitVec.zero_and

/-- Settles O3: the parameters of `State.reset` are legal, and legal parameters are enough. -/
theorem resetMeetsTheInvariant : Obligations.ResetMeetsTheInvariant :=
  ⟨State.Inv.resetOf (by decide), fun _ h => State.Inv.resetOf h⟩

end Sys2Proof.Machine
end

section
/-! SUPPORT. BUSY falls, the poll ends, and the run of a program ends (70_reset_and_hazards.md R271, R273). The states
are written `s.withEnv es r n`: what the machine does does not depend on the events to come, the last reply and the
draws. -/

namespace Sys2Proof

/-- A command uses at most two operands (30_encoding.md R93). -/
theorem Command.args_of_wf {c : Command} (h : c.wf = true) :
    c.args = [] ∨ (∃ a, c.args = [a]) ∨ ∃ a b, c.args = [a, b] := by
  obtain ⟨i, args⟩ := c
  have hlen : args.length = i.arity := by simpa [Command.wf] using h
  have hle : i.arity ≤ 2 := by cases i <;> simp [Instr.arity]
  match args, hlen with
  | [], _ => exact .inl rfl
  | [a], _ => exact .inr (.inl ⟨a, rfl⟩)
  | [a, b], _ => exact .inr (.inr ⟨a, b, rfl⟩)
  | _ :: _ :: _ :: _, hlen => simp at hlen; omega

end Sys2Proof

namespace Sys2Proof.Machine

/-! BUSY falls -/

/-- With the events over and one step more, no command is in flight. -/
theorem steps_pending_idle {s : State} {es : List Event} (hp : s.pending = es) :
    ∃ t, steps (es.length + 1) s = .next t ∧ t.inFlight = none := by
  induction es generalizing s with
  | nil =>
    obtain ⟨t, ht⟩ := engineTurn_next s
    exact ⟨t, steps_one ((step_nil hp).trans ht), (engineTurn_idle ht).1⟩
  | cons e es ih =>
    obtain ⟨u, hu, hup⟩ := step_next s
    obtain ⟨t, ht, hidle⟩ := ih (hup.trans (congrArg List.tail hp))
    exact ⟨t, (steps_succ hu).trans ht, hidle⟩

/-! The steps of a poll -/

section

variable {s t : State} {rest : List Event} {r : Option Word} {n : Nat}

theorem step_engine_withEnv (ht : engineTurn s = .next t) :
    step (s.withEnv (.engine :: rest) r n) = .next (t.withEnv rest r n) :=
  (step_engine rfl).trans ((engineTurn_withEnv s rest r n).trans (congrArg (mapNext _) ht))

theorem step_poll_idle_withEnv (hi : s.inFlight = none) :
    step (s.withEnv (pollRead :: rest) r n) = .next (s.withEnv rest (some s.status) n) :=
  step_poll_idle (s := s.withEnv (pollRead :: rest) r n) hi rfl

theorem step_poll_busy_withEnv (hi : s.inFlight ≠ none) :
    step (s.withEnv (pollRead :: rest) r n) =
      .next (s.withEnv rest (some (Config.freeRead n ||| 1#64)) (n + 1)) :=
  step_poll_busy (s := s.withEnv (pollRead :: rest) r n) hi rfl

/-- A poll changes the reply and the draws only. -/
theorem step_poll : ∃ r' n', step (s.withEnv (pollRead :: rest) r n) = .next (s.withEnv rest r' n') := by
  by_cases hi : s.inFlight = none
  · exact ⟨_, _, step_poll_idle_withEnv hi⟩
  · exact ⟨_, _, step_poll_busy_withEnv hi⟩

theorem steps_polls_withEnv (polls : Nat) :
    ∃ r' n', steps polls (s.withEnv (List.replicate polls pollRead ++ rest) r n) = .next (s.withEnv rest r' n') := by
  induction polls generalizing r n with
  | zero => exact ⟨r, n, rfl⟩
  | succ polls ih =>
    obtain ⟨r₁, n₁, hstep⟩ := step_poll (s := s) (rest := List.replicate polls pollRead ++ rest) (r := r) (n := n)
    obtain ⟨r₂, n₂, hsteps⟩ := ih (r := r₁) (n := n₁)
    exact ⟨r₂, n₂, (steps_succ hstep).trans hsteps⟩

theorem waitEvents_append (polls : Nat) (rest : List Event) :
    waitEvents polls ++ rest = List.replicate polls pollRead ++ .engine :: pollRead :: rest := by
  simp [waitEvents]

/-- The accesses of `wait`, a command in flight or none: they end with STATUS read after the engine's turn. -/
theorem steps_waitEvents (ht : engineTurn { s with pending := rest } = .next t) {polls : Nat}
    (hp : s.pending = waitEvents polls ++ rest) :
    ∃ n', steps (polls + 2) s = .next { t with reply := some t.status, draws := n' } := by
  obtain ⟨hidle, hrest⟩ : t.inFlight = none ∧ t.pending = rest := engineTurn_idle ht
  rw [waitEvents_append] at hp
  obtain ⟨r', n', hpolls⟩ := steps_polls_withEnv (s := s) (rest := .engine :: pollRead :: rest) (r := s.reply)
    (n := s.draws) polls
  rw [← hp] at hpolls
  have hturn := step_engine_withEnv (rest := pollRead :: rest) (r := r') (n := n') ht
  have hread := step_poll_idle_withEnv (rest := rest) (r := r') (n := n') hidle
  refine ⟨n', (steps_add hpolls 2).trans ((steps_succ hturn).trans ((steps_one hread).trans ?_))⟩
  rw [State.withEnv, hrest]

/-! The run of one command -/

/-- What a poll's read says is whether bit 0 of the value is clear. -/
theorem observedNext_poll (s : State) (es : List Event) (v : Word) (n : Nat) :
    observedNext false pollRead (s.withEnv es (some v) n) = !v.getLsbD 0 := by
  simp [observedNext, observesIdle, State.withEnv, Event.issues, pollRead]

theorem runEndFrom_poll_busy (hi : s.inFlight ≠ none) (hf : s.fault = none) :
    runEndFrom (pollRead :: rest) false (s.withEnv (pollRead :: rest) r n) =
      runEndFrom rest false (s.withEnv rest (some (Config.freeRead n ||| 1#64)) (n + 1)) := by
  rw [runEndFrom_cons (by exact hf) (.inl rfl) (step_poll_busy_withEnv hi), observedNext_poll]
  simp

theorem runEndFrom_poll_idle (hi : s.inFlight = none) (hf : s.fault = none) :
    runEndFrom (pollRead :: rest) false (s.withEnv (pollRead :: rest) r n) =
      runEndFrom rest true (s.withEnv rest (some s.status) n) := by
  rw [runEndFrom_cons (by exact hf) (.inl rfl) (step_poll_idle_withEnv hi), observedNext_poll, s.status_bit_zero,
    State.busy_eq_false.2 hi]
  rfl

/-- While the polls find BUSY = 1 the host goes on waiting. -/
theorem runEndFrom_polls (hi : s.inFlight ≠ none) (hf : s.fault = none) (polls : Nat) :
    ∃ r' n', runEndFrom (List.replicate polls pollRead ++ rest) false
        (s.withEnv (List.replicate polls pollRead ++ rest) r n) =
      runEndFrom rest false (s.withEnv rest r' n') := by
  induction polls generalizing r n with
  | zero => exact ⟨r, n, rfl⟩
  | succ polls ih =>
    obtain ⟨r', n', hend⟩ := ih
    exact ⟨r', n', (runEndFrom_poll_busy hi hf).trans hend⟩

/-- The host waits for the command in flight up to its end, and then reads STATUS. -/
theorem runEndFrom_waitEvents (hi : s.inFlight ≠ none) (hf : s.fault = none) (ht : engineTurn s = .next t)
    (polls : Nat) :
    ∃ r' n', runEndFrom (waitEvents polls ++ rest) false (s.withEnv (waitEvents polls ++ rest) r n) =
      runEndFrom (pollRead :: rest) false (t.withEnv (pollRead :: rest) r' n') := by
  rw [waitEvents_append]
  obtain ⟨r', n', hpolls⟩ := runEndFrom_polls (rest := .engine :: pollRead :: rest) (r := r) (n := n) hi hf polls
  exact ⟨r', n', hpolls.trans (runEndFrom_cons (by exact hf) (.inl rfl) (step_engine_withEnv ht))⟩

/-- The writes of a command's expansion issue it, and what the host observed before counts no more. -/
theorem runEndFrom_issue {c : Command} (hwf : c.wf = true) (hi : s.inFlight = none) (hf : s.fault = none)
    (observed : Bool) :
    runEndFrom (argWrites c ++ cmdWrite c :: rest) observed (s.withEnv (argWrites c ++ cmdWrite c :: rest) r n) =
      runEndFrom rest false ((s.issued c).withEnv rest none n) := by
  obtain ⟨i, args⟩ := c
  rcases Command.args_of_wf hwf with rfl | ⟨a, rfl⟩ | ⟨a, b, rfl⟩
  · exact runEndFrom_cons (by exact hf) (.inr rfl) (step_write_cmd (by exact hi) (by exact hf) rfl)
  · refine (runEndFrom_cons (by exact hf) (.inr rfl) (step_write_arg0 (by exact hi) rfl)).trans ?_
    exact runEndFrom_cons (by exact hf) (.inr rfl) (step_write_cmd (by exact hi) (by exact hf) rfl)
  · refine (runEndFrom_cons (by exact hf) (.inr rfl) (step_write_arg0 (by exact hi) rfl)).trans ?_
    refine (runEndFrom_cons (by exact hf) (.inr rfl) (step_write_arg1 (by exact hi) rfl)).trans ?_
    exact runEndFrom_cons (by exact hf) (.inr rfl) (step_write_cmd (by exact hi) (by exact hf) rfl)

/-- A command issued from a ready state runs to the state its own rule leaves, in which the host is about to read
STATUS. -/
theorem runEndFrom_commandEvents {c : Command} (hwf : c.wf = true) (hr : s.ready = true)
    (ht : runCommand c s = .next t) (polls : Nat) (observed : Bool) :
    ∃ r' n', runEndFrom (commandEvents c polls ++ rest) observed (s.withEnv (commandEvents c polls ++ rest) r n) =
      runEndFrom (pollRead :: rest) false (t.withEnv (pollRead :: rest) r' n') := by
  obtain ⟨hi, hf⟩ := State.ready_iff.1 hr
  have hevents : commandEvents c polls ++ rest = argWrites c ++ cmdWrite c :: (waitEvents polls ++ rest) := by
    simp [commandEvents]
  have hturn : engineTurn (s.issued c) = .next t := (congrArg engineTurn (hostWrites_issue hwf hi hf)).symm.trans ht
  obtain ⟨r', n', hwait⟩ :=
    runEndFrom_waitEvents (s := s.issued c) (rest := rest) (r := none) (n := n) nofun hf hturn polls
  rw [hevents]
  exact ⟨r', n', (runEndFrom_issue hwf hi hf observed).trans hwait⟩

end

/-! A fault of a program lasts -/

/-- The writes for a command reach ARG0, ARG1 and CMD, and none of these resets. -/
theorem State.written_fault {s : State} (hf : s.fault ≠ none) (c : Command) : (s.written c).fault = s.fault := by
  have harg0 (a : Word) : (s.hostWrite 0x08#64 8#64 a).fault = s.fault := (hostWrite_keepsRecord hf rfl).fault
  have hargs : (writeArgs c s).fault = s.fault := by
    unfold writeArgs
    split
    · rfl
    · exact harg0 _
    · exact (hostWrite_keepsRecord (by rwa [harg0]) rfl).fault.trans (harg0 _)
  exact (hostWrite_keepsRecord (by rwa [hargs]) rfl).fault.trans hargs

/-- Once a fault is recorded the commands that follow leave it recorded. -/
theorem runProgram_of_fault {s : State} (hf : s.fault ≠ none) (cs : List Command) :
    ∃ t, runProgram cs s = .next t ∧ t.fault = s.fault := by
  induction cs generalizing s with
  | nil => exact ⟨s, rfl, rfl⟩
  | cons c cs ih =>
    have hwritten := State.written_fault hf c
    obtain ⟨u, hu⟩ := engineTurn_next (s.written c)
    have hkept : u.fault = s.fault := (engineTurn_keepsRecord (by rwa [hwritten]) hu).fault.trans hwritten
    obtain ⟨t, ht, htf⟩ := ih (by rwa [hkept])
    exact ⟨t, (runProgram_cons hu).trans ht, htf.trans hkept⟩

/-! The run of a program -/

/-- The first command of the program `cs` from `s` that faults leaves `w`. -/
def FirstFault (cs : List Command) (s w : State) : Prop :=
  ∃ (done discarded : List Command) (c : Command) (v : State),
    cs = done ++ c :: discarded ∧ runProgram done s = .next v ∧ v.fault = none ∧
    runCommand c v = .next w ∧ w.fault ≠ none

theorem FirstFault.head {c : Command} {s w : State} (hf : s.fault = none) (hw : runCommand c s = .next w)
    (hwf : w.fault ≠ none) (cs : List Command) : FirstFault (c :: cs) s w :=
  ⟨[], cs, c, s, rfl, rfl, hf, hw, hwf⟩

theorem FirstFault.cons {c : Command} {cs : List Command} {s u w : State} (hu : runCommand c s = .next u)
    (h : FirstFault cs u w) : FirstFault (c :: cs) s w := by
  obtain ⟨done, discarded, d, v, rfl, hdone, hrest⟩ := h
  exact ⟨c :: done, discarded, d, v, rfl, (runProgram_cons hu).trans hdone, hrest⟩

/-- The run of `prog` from `s`, whose commands one after another leave `t`, ends as R271 says: successfully in `t`, or
at its first fault. The run of no command ends at once (log 18). -/
def RunEndsAs (prog : List (Command × Nat)) (s t : State) (e : RunEnd) : Prop :=
  (t.ready = true ∧ ∃ es r n, e = .successful (t.withEnv es r n)) ∨
  (t.fault ≠ none ∧ ∃ w es r n, FirstFault (prog.map Prod.fst) s w ∧ e = .unsuccessful (w.withEnv es r n))

theorem runEndFrom_programEvents {prog : List (Command × Nat)} {s : State} (hr : s.ready = true)
    (hwf : ∀ x, x ∈ prog → x.1.wf = true) (r : Option Word) (n : Nat) :
    ∃ t, runProgram (prog.map Prod.fst) s = .next t ∧
      RunEndsAs prog s t (runEndFrom (programEvents prog) true (s.withEnv (programEvents prog) r n)) := by
  induction prog generalizing s r n with
  | nil => exact ⟨s, rfl, .inl ⟨hr, [], r, n, runEndFrom_done [] (State.ready_iff.1 hr).2 rfl⟩⟩
  | cons x prog ih =>
    obtain ⟨c, polls⟩ := x
    obtain ⟨u, hu⟩ : ∃ u, runCommand c s = .next u := engineTurn_next (s.written c)
    have huidle : u.inFlight = none := (engineTurn_idle hu).1
    obtain ⟨r', n', hcommand⟩ := runEndFrom_commandEvents (rest := programEvents prog) (r := r) (n := n)
      (hwf _ List.mem_cons_self) hr hu polls true
    have hevents : programEvents ((c, polls) :: prog) = commandEvents c polls ++ programEvents prog := rfl
    rw [hevents, hcommand]
    by_cases huf : u.fault = none
    · obtain ⟨t, ht, hend⟩ := ih (State.ready_iff.2 ⟨huidle, huf⟩) (fun y hy => hwf y (List.mem_cons_of_mem _ hy))
        (some u.status) n'
      rw [runEndFrom_poll_idle huidle huf]
      refine ⟨t, (runProgram_cons hu).trans ht, hend.imp_right ?_⟩
      rintro ⟨htf, w, es, r'', n'', hfirst, he⟩
      exact ⟨htf, w, es, r'', n'', hfirst.cons hu, he⟩
    · obtain ⟨t, ht, htf⟩ := runProgram_of_fault huf (prog.map Prod.fst)
      exact ⟨t, (runProgram_cons hu).trans ht, .inr ⟨by rwa [htf], u, pollRead :: programEvents prog, r', n',
        .head (State.ready_iff.1 hr).2 hu huf _, runEndFrom_fault _ _ huf⟩⟩

theorem State.sameFinal_withEnv (s : State) (es : List Event) (r : Option Word) (n : Nat) :
    (s.withEnv es r n).SameFinal s := ⟨fun x => by cases x <;> rfl, fun _ _ => rfl⟩

theorem runEnd_programEvents {prog : List (Command × Nat)} {s : State} (hr : s.ready = true)
    (hwf : ∀ x, x ∈ prog → x.1.wf = true) (hp : s.pending = programEvents prog) :
    ∃ t, runProgram (prog.map Prod.fst) { s with pending := [] } = .next t ∧
      RunEndsAs prog { s with pending := [] } t (runEnd s) := by
  have hbusy : s.busy = false := State.busy_eq_false.2 (State.ready_iff.1 hr).1
  rw [runEnd, hbusy, hp]
  have hrun := runEndFrom_programEvents (s := { s with pending := [] }) hr hwf s.reply s.draws
  rw [← hp] at hrun ⊢
  exact hrun

/-- Settles O57: every step takes an event and the last one ends the command; a poll changes the reply and the draws
only; and the run of a program follows its commands up to the first that faults. -/
theorem busyAlwaysFalls : Obligations.BusyAlwaysFalls := by
  refine ⟨fun s => ?_, fun s polls rest hp => ?_, fun s prog hr hwf hp => ?_⟩
  · obtain ⟨t, ht, hidle⟩ := steps_pending_idle (s := s) rfl
    exact ⟨_, t, Nat.le_refl _, ht, State.busy_eq_false.2 hidle⟩
  · obtain ⟨t, ht⟩ := engineTurn_next { s with pending := rest }
    have hbusy : t.busy = false := State.busy_eq_false.2 (engineTurn_idle ht).1
    obtain ⟨n, hsteps⟩ := steps_waitEvents ht hp
    exact ⟨t, _, ht, hsteps, hbusy, t.status_bit_zero.trans hbusy, rfl⟩
  · obtain ⟨t, ht, hend⟩ := runEnd_programEvents hr hwf hp
    refine ⟨t, ht, fun hf => ?_, fun hf => ?_⟩
    · rcases hend with ⟨htr, es, r, n, he⟩ | ⟨hne, -⟩
      · exact ⟨_, he, hf, State.busy_eq_false.2 (State.ready_iff.1 htr).1, t.sameFinal_withEnv es r n⟩
      · exact absurd hf hne
    · rcases hend with ⟨htr, -⟩ | ⟨-, w, es, r, n, ⟨done, discarded, c, v, hfirst⟩, he⟩
      · exact absurd (State.ready_iff.1 htr).2 hf
      · obtain ⟨hcs, hdone, hvf, hw, hwf⟩ := hfirst
        exact ⟨done, discarded, c, v, w, _, hcs, hdone, hvf, hw, hwf, he, rfl, w.sameFinal_withEnv es r n⟩

end Sys2Proof.Machine
end
